-- ==== Sys2Proof/Word.lean ====
section
/-!
DEFINITION. The word types of CORE: the 32-bit command word (R60), the 16-bit CV and knob code
(R24, R62), the 8-bit register (R19), and a bank of four like things (the four divider lanes of R94,
the four analog jacks of R38).
-/
namespace Sys2Proof

/-- A command word `cw`, bit 31 most significant (R60). -/
abbrev CmdWord := BitVec 32

/-- A 16-bit code: a knob reading (R62), a CV code (R24), a note code (R33). -/
abbrev Code := BitVec 16

/-- An 8-bit register or operand, and one byte of the link (R19, R62, R70). -/
abbrev Byte := BitVec 8

/-- Four like things, numbered 0 to 3 (R18, R38). -/
structure Lanes (α : Type) where
  l0 : α
  l1 : α
  l2 : α
  l3 : α
deriving DecidableEq, Repr

end Sys2Proof
end

