-- ==== Sys2Proof/Config.lean ====
section
/-!
DEFINITION. The implementation parameters of R9, fixed at construction: the record a builder presents
(`ConfigRecord`), the configuration a built CORE keeps (`Config`), the causes of a configuration error
(R147), and the free values of the two adjacent units. The check itself is in Machine/Construct.lean.
-/
namespace Sys2Proof

/-- `BEHAVIOR`: which top-level behaviour the tick drives (R9, decision D3). -/
inductive Behavior where
  /-- `DIV`: the clock divider bank. -/
  | div
  /-- `SEQ`: the step sequencer. -/
  | seq
deriving DecidableEq, Repr

/-- A table descriptor `TDESC[t] = {base, len}`, two 16-bit fields (R34). -/
structure TableDesc where
  base : Code
  len : Code
deriving DecidableEq, Repr

/-- The timing-only parameters, in milliseconds; no rule reads them (R9, R178). -/
structure Timing where
  /-- `PULSE_WIDTH`. -/
  pulseWidth : Rat
  /-- `PATTERN_PULSE_WIDTH`. -/
  patternPulseWidth : Rat
  /-- `DEBOUNCE_WINDOW`. -/
  debounceWindow : Rat
deriving DecidableEq, Repr

/-- The parameters of the adjacent Clock Source (R9, R83, R84). -/
structure TempoConfig where
  /-- `K`: capacity of the smoothing window. -/
  capacity : Nat
  /-- `MIN_BPM`. -/
  minBpm : Rat
  /-- `MAX_BPM`. -/
  maxBpm : Rat
deriving DecidableEq, Repr

/-- The configuration of a built CORE (R9): never written after construction (R17, R164). -/
structure Config where
  /-- `BEHAVIOR`. -/
  behavior : Behavior
  /-- `DIV_INIT`: the reset divisions; `D = 4` is the number of lanes. -/
  divInit : Lanes Byte
  /-- `RESET_COUNTER_ON_CHANGE` (R97). -/
  resetCounterOnChange : Bool
  /-- `NOTIFY_EN` (R98). -/
  notifyEn : Bool
  /-- `R`: number of sequencer rows. -/
  rows : Nat
  /-- `SEQ_LEN`, the `seq_len` of R25. -/
  seqLen : Nat
  /-- `DEFAULT_PITCH` (R24). -/
  defaultPitch : Code
  /-- `DEFAULT_VEL` (R24). -/
  defaultVel : Code
  /-- `VEL_KEEP_BITS` (R117). -/
  velKeepBits : Nat
  /-- `WRITE_ON_PREVIEW` (R118). -/
  writeOnPreview : Bool
  /-- `TDESC_INIT`: the table descriptors (R34); `NT` is their number. -/
  tdesc : List TableDesc
  /-- `TMEM_INIT`: the table memory (R33); `TMEM_SIZE` is its length. -/
  tmem : List Code
  /-- `CHROMA_T`: the descriptor the sequencer quantizes pitch against (R116). -/
  chromaT : Nat
  /-- `EPS`: the quantizer epsilon, an exact rational (R127, R128). -/
  eps : Rat
  /-- `IQ_DEPTH` (R36, R138). -/
  iqDepth : Nat
  /-- `DIV_CHOICES`, read by the environment only (R103); every member is a legal division. -/
  divChoices : List Byte
  /-- Timing-only parameters. -/
  timing : Timing
  /-- Parameters of the adjacent Clock Source. -/
  tempo : TempoConfig
deriving DecidableEq, Repr

/-- `NT`, the number of table descriptors (R9). -/
def Config.nt (c : Config) : Nat := c.tdesc.length

/-- A table descriptor as a builder presents it: `base` and `len` as integers. -/
structure TableDescRecord where
  base : Int
  len : Int
deriving DecidableEq, Repr

/-- The configuration record as a builder presents it (R9, R10): its numbers are integers and rationals, so that a zero or negative
one, or one too wide for its register, can be presented and rejected (R147; log entry 10). -/
structure ConfigRecord where
  /-- `BEHAVIOR`; `none` is a strap that is neither `DIV` nor `SEQ` (cause 8). -/
  behavior : Option Behavior
  /-- `D`. -/
  d : Int
  /-- `DIV_INIT[0..D)`. -/
  divInit : List Int
  /-- `DIV_MAX`. -/
  divMax : Int
  resetCounterOnChange : Bool
  notifyEn : Bool
  /-- `R`. -/
  rows : Int
  /-- `SEQ_LEN`. -/
  seqLen : Int
  /-- `DEFAULT_PITCH`. -/
  defaultPitch : Int
  /-- `DEFAULT_VEL`. -/
  defaultVel : Int
  /-- `VEL_KEEP_BITS`. -/
  velKeepBits : Int
  writeOnPreview : Bool
  /-- `TDESC_INIT[0..NT)`. -/
  tdesc : List TableDescRecord
  /-- `TMEM_INIT[0..TMEM_SIZE)`. -/
  tmem : List Int
  /-- `CHROMA_T`. -/
  chromaT : Int
  /-- `EPS`. -/
  eps : Rat
  /-- `IQ_DEPTH`. -/
  iqDepth : Int
  /-- `DIV_CHOICES`. -/
  divChoices : List Int
  timing : Timing
  /-- `K`. -/
  capacity : Int
  minBpm : Rat
  maxBpm : Rat
deriving DecidableEq, Repr

/-- The causes of a configuration error: the nine of R147, and one for the constraints of R9 that R147 gives no code;
no CORE exists for such a record (R10). -/
inductive ConfigError where
  | seqLen
  | rows
  | divInit
  | table
  | eps
  | iq
  | velBits
  | behavior
  | tempo
  /-- `DIV_MAX` not 127, `DIV_CHOICES` not within 1..127, `PULSE_WIDTH` not positive, or `PATTERN_PULSE_WIDTH` not above it;
  `DEFAULT_PITCH`, `DEFAULT_VEL` or a table word not within 0..65535 (R9), or a descriptor's field not 16 bits wide (R34). -/
  | uncoded
deriving DecidableEq, Repr

/-- The configuration of `State.reset`. The parameters with a default have the default of R9; the open
ones (`BEHAVIOR`, the tables, the tempo bounds, two of the timings) have the values of log entries 2
and 3 (DESIGN CHOICE); the tables are the toy table of the conventions of 95_test_vectors.md. -/
def Config.default : Config where
  behavior := .seq
  divInit := ⟨1, 2, 4, 8⟩
  resetCounterOnChange := false
  notifyEn := true
  rows := 2
  seqLen := 8
  defaultPitch := 0
  defaultVel := 65535
  velKeepBits := 7
  writeOnPreview := false
  tdesc := [⟨0, 3⟩]
  tmem := [0, 100, 200]
  chromaT := 0
  eps := { num := 1, den := 10000, den_nz := by decide, reduced := by decide }
  iqDepth := 16
  divChoices := [1, 2, 3, 4, 5, 6, 7, 8, 12, 16]
  timing := ⟨10, 20, 50⟩
  tempo := ⟨10, 30, 300⟩

/-- FREE VALUE (log entry 17): the `n`-th tempo sample the smoothing window of the adjacent Clock Source holds after its
`switches`-th source switch, where it held `before`, and before the sample is kept to the tempo bounds (R84); R83 says that the
window is reset then and not to what. -/
opaque Config.clockWindowAfterSwitch : (switches : Nat) → (before : List Rat) → (n : Nat) → Rat

/-- FREE VALUE (log entry 18): the effective length the adjacent Arpeggiator derives from its range
multiplier and the collection's length; R123 does not say how. -/
opaque Config.arpEffectiveLength : (range length : Nat) → Nat

/-- FREE VALUE (log entry 18): whether the descending reading counts down from the full length of the
collection; the alternative is the effective length (R123 does not say which). -/
opaque Config.arpDescendsFromFullLength : Bool

/-- FREE VALUE (log entry 18): what an index that names no note of a collection reads as: `notes[step]` or `notes[len-1-step]`
where the start put `step` past the collection or past `len` (R122 gives no initial `step`). -/
opaque Config.arpNoteOutside : (notes : List Code) → (index : Int) → Code

/-- FREE VALUE (log entry 18): which of the four readings each of the four outputs carries, one reading to one output (R123 does
not say which). -/
opaque Config.arpReadingOf : Equiv.Perm (Fin 4)

/-- FREE VALUE (log entry 18): the direction flag of the Arpeggiator after the `n`-th restart, where it was `before`: R124 does not
say whether a restart resets it, so keeping it is admitted as well as either fixed direction. -/
opaque Config.arpDirectionAfterRestart : (n : Nat) → (before : Bool) → Bool

end Sys2Proof
end

