-- ==== Sys2Proof/Syntax.lean ====
section
/-!
DEFINITION. The ten commands of CORE-CMD v1, one constructor for each row of the opcode map (R63),
with the operands of their formats (R61, R62).
-/
namespace Sys2Proof

/-- A command (R63). Operands are the unsigned fields of R62, at their own widths. -/
inductive Instr where
  /-- `TICK`: one tick release (R76). -/
  | tick
  /-- `DADJ c`: adjust the selected division (R96). -/
  | dadj (c : Byte)
  /-- `EPIT k`: Edit-mode sample of the pitch control (R114). -/
  | epit (k : Code)
  /-- `EVEL k`: Edit-mode sample of the velocity control (R115). -/
  | evel (k : Code)
  /-- `QNT t, k`: one quantizer lookup (R129). -/
  | qnt (t : Byte) (k : Code)
  /-- `DSEL`: select the next output (R95). -/
  | dsel
  /-- `BAS`: short press A (R107). -/
  | bas
  /-- `BAL`: long press A (R108). -/
  | bal
  /-- `BBS`: short press B (R109). -/
  | bbs
  /-- `BBL`: long press B (R110). -/
  | bbl
deriving DecidableEq, Repr

end Sys2Proof
end

