-- ==== Sys2Proof/Machine/State.lean ====
section
/-!
DEFINITION. The state of CORE (R17), the reasons a step can stop, and the state after reset (R44).
Everything here is plain data.
-/
namespace Sys2Proof.Machine

/-- Why the machine stops. No rule of the spec raises at run time (R148), and no state that meets the
invariants of Safety.lean stops; each reason is an access that R46, R47 or R38 say cannot happen. -/
inductive Fault where
  /-- Raised by the step file (StepRead, StepWrite) for a row or position outside `0..R-1`, `0..SEQ_LEN-1`: R46 gives
  no behaviour. Safe: the model stops where the spec describes nothing. -/
  | stepAddress
  /-- Raised by the quantizer for a table or a table word that does not exist: R47 gives no behaviour. Safe: as above. -/
  | tableAddress
  /-- Raised by `play_step` for a row above 1, which would drive an analog jack above 3: R38 has none. Safe: as above. -/
  | noSuchJack
deriving DecidableEq, Repr

/-- Why the model gives a command no meaning. -/
inductive Refusal where
  /-- Raised by `exec` for a command that has no meaning in the model yet; no arm does so. Safe: the model stops. -/
  | notModelled (mnemonic : String)
deriving DecidableEq, Repr

/-- `mode`: 0 = Edit, 1 = Play (R28). -/
inductive Mode where
  | edit
  | play
deriving DecidableEq, Repr

/-- A class-A opcode held in the intent queue (R36). -/
inductive Intent where
  | dsel
  | bas
  | bal
  | bbs
  | bbl
deriving DecidableEq, Repr

/-- One cell of the step register file (R24). -/
structure StepCell where
  pitch : Code
  vel : Code
deriving DecidableEq, Repr

/-- A field of a step cell (R46). -/
inductive StepField where
  | pitch
  | vel
deriving DecidableEq, Repr

/-- The STEP space (R45, R46): linear address and cell, addresses strictly rising, no entry equal to the cell an
unlisted address reads as (`resetCell`). -/
abbrev Memory := List (Nat × StepCell)

/-- The link record, its five bytes in wire order (R70). -/
structure LinkRecord where
  selected : Byte
  d1 : Byte
  d2 : Byte
  d3 : Byte
  d4 : Byte
deriving DecidableEq, Repr

/-- An output event (R71). -/
inductive Event where
  /-- `A(j, v)`: analog output `j` is set to `v`. -/
  | analog (j : Fin 4) (v : Code)
  /-- `DLEV(b)`: the four digital outputs change together to `b`. -/
  | dlev (b : BitVec 4)
  /-- `LINK(s, d1, d2, d3, d4)`: one link record. -/
  | link (r : LinkRecord)
  /-- `Q(n)`: a quantizer result. -/
  | note (n : Code)
deriving DecidableEq, Repr

/-- What the environment presents to CORE (R7): a command word on the command port, or the reset event. -/
inductive PortEvent where
  /-- One accepted transfer of `cmd_valid`, `cmd_word` (R72). -/
  | cmd (w : CmdWord)
  /-- A pulse on `rst` (R72, R164). -/
  | rst
deriving DecidableEq, Repr

/-- The state of CORE (R17), the configuration it was built with (R9), and what the environment has still to present. -/
structure State where
  /-- The configuration, fixed at construction (R9, R17); no step writes it. -/
  cfg : Config
  /-- `div[i]` (R19). -/
  div : Lanes Byte
  /-- `cnt[i]` (R20). -/
  cnt : Lanes Byte
  /-- `sel` (R23); its byte encoding, -1 for `None`, is `selByte`. -/
  sel : Option (Fin 4)
  /-- `prev_choice` (R22). -/
  prevChoice : Byte
  /-- `steps[r][p]` (R24), by linear address (R46). -/
  steps : Memory
  /-- `pos` (R26). -/
  pos : Byte
  /-- `active_row` (R27). -/
  activeRow : Byte
  /-- `mode` (R28). -/
  mode : Mode
  /-- `running` (R29). -/
  running : Bool
  /-- `last_pitch` with `last_pitch_v`: `none` is `last_pitch_v = 0` (R31, item V5 of 93). -/
  lastPitch : Option Code
  /-- `last_vel` with `last_vel_v`: `none` is `last_vel_v = 0` (R32, item V5 of 93). -/
  lastVel : Option Code
  /-- `iq`, oldest intent first (R36). -/
  iq : List Intent
  /-- `st_badcmd` (R37). -/
  stBadcmd : Bool
  /-- `st_badop` (R37). -/
  stBadop : Bool
  /-- `st_iqovf` (R37). -/
  stIqovf : Bool
  /-- `aout[j]` (R38). -/
  aout : Lanes Code
  /-- `dout`, bit `j` = `dout[j]` (R39). -/
  dout : BitVec 4
  /-- `out`, oldest event first (R40). -/
  out : List Event
  /-- The MODEL's own field: the input stream of R7 not yet presented, next event first. -/
  port : List PortEvent
deriving DecidableEq, Repr

/-- The three outcomes of a command. -/
abbrev Result := Host.Outcome State Fault Refusal

/-- The state after reset of a CORE built with `c` (R44). The input stream is the environment's and starts empty. -/
def State.resetOf (c : Config) : State where
  cfg := c
  div := c.divInit
  cnt := c.divInit
  sel := none
  prevChoice := 0
  steps := []
  pos := 0
  activeRow := 0
  mode := .edit
  running := false
  lastPitch := none
  lastVel := none
  iq := []
  stBadcmd := false
  stBadop := false
  stIqovf := false
  aout := ⟨0, 0, 0, 0⟩
  dout := 0
  out := []
  port := []

/-- The machine right after reset (R44), built with `Config.default` (log entries 2 and 3). -/
def State.reset : State := State.resetOf Config.default

end Sys2Proof.Machine
end

