-- ==== Sys2Proof/Machine/Ops.lean ====
section
/-!
DEFINITION. The primitives of R12 over the state: the lanes of the divider bank and of the analog jacks, the STEP space
(R45, R46), table memory (R47), and the output history with its ports (R40, R71). CORE takes no exception and returns from
none (R148, R155): what stands in their place, the arrival of an intent and the drain, is in Mux.lean.
-/
namespace Sys2Proof

/-- Lane `i`. -/
def Lanes.get {α : Type} (l : Lanes α) (i : Fin 4) : α :=
  match i with
  | 0 => l.l0
  | 1 => l.l1
  | 2 => l.l2
  | 3 => l.l3

/-- `l` with lane `i` set to `v`. -/
def Lanes.set {α : Type} (l : Lanes α) (i : Fin 4) (v : α) : Lanes α :=
  match i with
  | 0 => { l with l0 := v }
  | 1 => { l with l1 := v }
  | 2 => { l with l2 := v }
  | 3 => { l with l3 := v }

/-- The same operation on every lane of two banks (the lane-wise step of R94). -/
def Lanes.zip {α β γ : Type} (f : α → β → γ) (a : Lanes α) (b : Lanes β) : Lanes γ :=
  ⟨f a.l0 b.l0, f a.l1 b.l1, f a.l2 b.l2, f a.l3 b.l3⟩

/-- The 4-bit vector whose bit `i` says whether lane `i` meets `p` (the fire mask of R93). -/
def Lanes.mask {α : Type} (p : α → Bool) (l : Lanes α) : BitVec 4 :=
  BitVec.ofBool (p l.l3) ++ BitVec.ofBool (p l.l2) ++ BitVec.ofBool (p l.l1) ++ BitVec.ofBool (p l.l0)

namespace Machine

/-- Run `f` from the next state of `r`; a stop stays a stop. The order of two steps of one pseudocode (R12). -/
def andThen (r : Result) (f : State → Result) : Result :=
  match r with
  | .next s => f s
  | .fault e => .fault e
  | .refused e => .refused e

/-! The STEP space. -/

/-- The cell an unlisted STEP address reads as: the grid fill of R24 and R44. -/
def resetCell (c : Config) : StepCell := ⟨c.defaultPitch, c.defaultVel⟩

/-- The canonical form of the STEP space: addresses strictly rising, no entry equal to the grid fill. -/
abbrev Memory.wf (fill : StepCell) (m : Memory) : Prop :=
  m.Pairwise (fun a b => a.1 < b.1) ∧ ∀ e ∈ m, e.2 ≠ fill

/-- The cell at linear address `a`. -/
def Memory.read (fill : StepCell) : Memory → Nat → StepCell
  | [], _ => fill
  | (b, c) :: m, a => if b = a then c else Memory.read fill m a

/-- An entry for `v` at `a`, or none where `v` is the grid fill. -/
def Memory.entry (fill : StepCell) (a : Nat) (v : StepCell) : Memory :=
  if v = fill then [] else [(a, v)]

/-- The STEP space with `v` at linear address `a`, in canonical form. -/
def Memory.write (fill : StepCell) : Memory → Nat → StepCell → Memory
  | [], a, v => Memory.entry fill a v
  | (b, c) :: m, a, v =>
    if a < b then Memory.entry fill a v ++ (b, c) :: m
    else if a = b then Memory.entry fill a v ++ m
    else (b, c) :: Memory.write fill m a v

/-- Field `f` of a cell replaced by `v`, the other field as it was (R46). -/
def StepCell.setField (f : StepField) (v : Code) (c : StepCell) : StepCell :=
  match f with
  | .pitch => { c with pitch := v }
  | .vel => { c with vel := v }

/-- The linear address `r * SEQ_LEN + p` of row `r`, position `p` (R46). -/
def stepAddress (c : Config) (r p : Nat) : Nat := r * c.seqLen + p

/-- `0 <= r < R` and `0 <= p < SEQ_LEN` (R46). -/
def stepInRange (c : Config) (r p : Nat) : Bool := decide (r < c.rows) && decide (p < c.seqLen)

/-- The cell at a linear STEP address, whatever the address. -/
def State.cellAt (s : State) (a : Nat) : StepCell := Memory.read (resetCell s.cfg) s.steps a

/-- `StepRead(r, p)` (R46); `none` outside the grid. -/
def stepRead (r p : Nat) (s : State) : Option StepCell :=
  if stepInRange s.cfg r p then some (s.cellAt (stepAddress s.cfg r p)) else none

/-- The only write address a command can form, `(active_row, pos)` (R46, R141), as a linear address. -/
def State.editAddress (s : State) : Nat := stepAddress s.cfg s.activeRow.toNat s.pos.toNat

/-- The state with the cell at a linear STEP address replaced. -/
def State.setCell (s : State) (a : Nat) (c : StepCell) : State :=
  { s with steps := Memory.write (resetCell s.cfg) s.steps a c }

/-- `StepWrite(active_row, pos, f, v)` (R46). -/
def stepWrite (f : StepField) (v : Code) (s : State) : Result :=
  if stepInRange s.cfg s.activeRow.toNat s.pos.toNat then
    .next (s.setCell s.editAddress ((s.cellAt s.editAddress).setField f v))
  else .fault .stepAddress

/-! Table memory. -/

/-- `TabRead(a)` (R47); `none` at or above `TMEM_SIZE`. -/
def tabRead (c : Config) (a : Nat) : Option Code := c.tmem[a]?

/-! Outputs. -/

/-- `emit E` (R12): append `E` to the output history (R40) and set the outputs it names (R71). -/
def State.emit (s : State) : Event → State
  | .analog j v => { s with aout := s.aout.set j v, out := s.out ++ [.analog j v] }
  | .dlev b => { s with dout := b, out := s.out ++ [.dlev b] }
  | .link r => { s with out := s.out ++ [.link r] }
  | .note n => { s with out := s.out ++ [.note n] }

/-- A pulse on the set `m` of digital outputs: the event pair `DLEV(m)`, `DLEV(0)` (R71). -/
def State.pulse (s : State) (m : BitVec 4) : State := (s.emit (.dlev m)).emit (.dlev 0)

end Machine
end Sys2Proof
end

