-- ==== Sys2Proof/Machine/Flags.lean ====
section
/-!
DEFINITION. The status flags (R37, R150), the status port (R72), and the gate (R134). CORE has no arithmetic condition
codes (R42).
-/
namespace Sys2Proof.Machine

/-- `st_badcmd <- 1` (R66); nothing else changes. -/
def State.setBadcmd (s : State) : State := { s with stBadcmd := true }

/-- `st_badop <- 1` (R67); nothing else changes. -/
def State.setBadop (s : State) : State := { s with stBadop := true }

/-- `st_iqovf <- 1` (R138); nothing else changes. -/
def State.setIqovf (s : State) : State := { s with stIqovf := true }

/-- The status port, `{st_iqovf, st_badop, st_badcmd}` (R37, R72). -/
def State.status (s : State) : BitVec 3 :=
  BitVec.ofBool s.stIqovf ++ BitVec.ofBool s.stBadop ++ BitVec.ofBool s.stBadcmd

/-- `gated()`: the main flow is suspended in `wait()` (R134). -/
def State.gated (s : State) : Bool :=
  match s.cfg.behavior with
  | .div => true
  | .seq => decide (s.mode = .play) && s.running

/-- `last_pitch_v` (R31). -/
def State.lastPitchValid (s : State) : Bool := s.lastPitch.isSome

/-- `last_vel_v` (R32). -/
def State.lastVelValid (s : State) : Bool := s.lastVel.isSome

end Sys2Proof.Machine
end

