-- ==== Sys2Proof/Machine/Operands.lean ====
section
/-!
DEFINITION. The operands of commands: their legal ranges (R67), the quantizer (R126 to R128), and the two knob mappings of
Edit mode (R116, R117).
-/
namespace Sys2Proof.Machine

/-- `c` of `DADJ` is legal in 1..127 (R62, R67). -/
def countLegal (c : Byte) : Bool := !(decide (c.toNat = 0) || decide (128 ≤ c.toNat))

/-- `t` of `QNT` is legal in `0..NT-1` (R62, R67). -/
def tableLegal (c : Config) (t : Byte) : Bool := decide (t.toNat < c.nt)

/-- `clamp(x, lo, hi)` (R11). -/
def clamp (x lo hi : Int) : Int := if x < lo then lo else if x > hi then hi else x

/-- `quantize_index(k, N)` (R127) by the exact integer formula of R128, for `EPS = num / den`: the floor of
`((den * k - 65535 * num) * N) / (65535 * den)`, clamped to `0..N-1`. Integer division by a positive number is the floor. -/
def quantizeIndex (eps : Rat) (k : Code) (n : Nat) : Nat :=
  (clamp ((((eps.den : Int) * k.toNat - 65535 * eps.num) * n) / (65535 * eps.den)) 0 (n - 1)).toNat

/-- `quantize(k, t)` (R127); `none` where the table, or the word of it the index names, does not exist. -/
def quantize (c : Config) (k : Code) (t : Nat) : Option Code :=
  match c.tdesc[t]? with
  | none => none
  | some d => tabRead c (d.base.toNat + quantizeIndex c.eps k d.len.toNat)

/-- `pmap(k)`: the knob code quantized against the chromatic table (R116). -/
def pmap (c : Config) (k : Code) : Option Code := quantize c k c.chromaT

/-- `vmap(k)`: the top `VEL_KEEP_BITS` bits of the knob code, where they are (R117). -/
def vmap (c : Config) (k : Code) : Code := k &&& ~~~(BitVec.ofNat 16 (2 ^ (16 - c.velKeepBits) - 1))

end Sys2Proof.Machine
end

