-- ==== Sys2Proof/Machine/Quantizer.lean ====
section
/-!
DEFINITION. The quantizer's command (R129); its function is in Operands.lean (R127).
-/
namespace Sys2Proof.Machine

/-- `QNT t, k` (R129), in either behaviour and any mode. -/
def execQnt (t : Byte) (k : Code) (s : State) : Result :=
  if tableLegal s.cfg t then
    match quantize s.cfg k t.toNat with
    | some n => .next (s.emit (.note n))
    | none => .fault .tableAddress
  else .next s.setBadop

end Sys2Proof.Machine
end

