-- ==== Sys2Proof/Machine/Divider.lean ====
section
/-!
DEFINITION. The clock divider bank (R92 to R103): the divider half of `TICK`, the application of `DSEL`, `DADJ`, and the
notification.
-/
namespace Sys2Proof.Machine

/-- Whether a lane whose counter is `cnt` fires in this tick: the decremented counter is 0 (R93). -/
def laneFires (cnt : Byte) : Bool := decide (cnt - 1 = 0)

/-- A lane's counter after a tick: reloaded from the division where it reached 0, else decremented (R93). -/
def laneNext (cnt div : Byte) : Byte := if cnt - 1 = 0 then div else cnt - 1

/-- The fire mask `M` of the next divider step (R93, R94). -/
def State.fireMask (s : State) : BitVec 4 := s.cnt.mask laneFires

/-- `div_on_tick()` (R93); no event where nothing fires. -/
def divOnTick (s : State) : State :=
  let t := { s with cnt := Lanes.zip laneNext s.cnt s.div }
  if s.fireMask = 0 then t else t.pulse s.fireMask

/-- `sel` as a two's-complement byte: -1 for `None` (R23, R70). -/
def selByte : Option (Fin 4) → Byte
  | none => 0xFF
  | some i => BitVec.ofNat 8 i.val

/-- The link record of the present selection and divisions (R70, R98). -/
def State.linkRecord (s : State) : LinkRecord := ⟨selByte s.sel, s.div.l0, s.div.l1, s.div.l2, s.div.l3⟩

/-- `notify()` (R98). -/
def State.notify (s : State) : State := if s.cfg.notifyEn then s.emit (.link s.linkRecord) else s

/-- The selection after `sel`: `None`, 0, 1, 2, 3, cyclically (R95). -/
def nextSel : Option (Fin 4) → Option (Fin 4)
  | none => some 0
  | some i => if i = 3 then none else some (i + 1)

/-- `apply DSEL` (R95). -/
def applyDsel (s : State) : State := State.notify { s with sel := nextSel s.sel }

/-- The write branch of `DADJ` for the selected output `i` (R96, R97). -/
def writeDivision (i : Fin 4) (c : Byte) (s : State) : State :=
  State.notify { s with
    div := s.div.set i c
    cnt := if s.cfg.resetCounterOnChange then s.cnt.set i c else s.cnt }

/-- The guarded write of `DADJ`: an output is selected and `c` differs from the previous sample (R96). -/
def adjustSelected (c : Byte) (s : State) : State :=
  match s.sel with
  | none => s
  | some i => if c = s.prevChoice then s else writeDivision i c s

/-- `DADJ c` (R96). -/
def execDadj (c : Byte) (s : State) : Result :=
  if countLegal c then
    match s.cfg.behavior with
    | .div => .next { adjustSelected c s with prevChoice := c }
    | .seq => .next s
  else .next s.setBadop

end Sys2Proof.Machine
end

