-- ==== Sys2Proof/Machine/Sequencer.lean ====
section
/-!
DEFINITION. The step sequencer (R104 to R121): the sequencer half of `TICK`, the application of the four button commands,
and the two Edit-mode samples.
-/
namespace Sys2Proof.Machine

/-- `advance()`: move the step pointer; a wrap pulses the pattern-restart output `dout[1]` (R111). -/
def advance (s : State) : State :=
  if s.pos.toNat + 1 = s.cfg.seqLen then State.pulse { s with pos := 0 } 0b0010#4
  else { s with pos := s.pos + 1 }

/-- The analog outputs of row `r`: pitch on `2r`, velocity on `2r + 1` (R38); there are four jacks. -/
def rowJacks : Nat → Option (Fin 4 × Fin 4)
  | 0 => some (0, 1)
  | 1 => some (2, 3)
  | _ + 2 => none

/-- Row `r` of `play_step()`: its cell at `pos` to its two analog outputs, pitch first (R112). -/
def playRow (r : Nat) (s : State) : Result :=
  match stepRead r s.pos.toNat s, rowJacks r with
  | some c, some (jp, jv) => .next ((s.emit (.analog jp c.pitch)).emit (.analog jv c.vel))
  | none, _ => .fault .stepAddress
  | some _, none => .fault .noSuchJack

/-- The loop of `play_step()` over the rows, in the order given (R112). -/
def playRows : List Nat → State → Result
  | [], s => .next s
  | r :: rs, s => andThen (playRow r s) (playRows rs)

/-- `play_step()`: every row to its outputs, then the trigger pulse on `dout[0]` (R112). -/
def playStep (s : State) : Result :=
  andThen (playRows (List.range s.cfg.rows) s) fun t => .next (t.pulse 0b0001#4)

/-- `seq_play_tick()` (R113). -/
def seqPlayTick (s : State) : Result := andThen (playStep s) fun t => .next (advance t)

/-- Store a control's latest mapped value, if it has one, into field `f` of the addressed cell (R107, R118). -/
def writeLatest (f : StepField) (v : Option Code) (s : State) : Result :=
  match v with
  | none => .next s
  | some m => stepWrite f m s

/-- The writes of a preview under `WRITE_ON_PREVIEW`, pitch first (R107, R118). -/
def previewWrite (s : State) : Result :=
  if s.cfg.writeOnPreview then andThen (writeLatest .pitch s.lastPitch s) fun t => writeLatest .vel t.lastVel t
  else .next s

/-- `apply BAS` (R107): preview in Edit, pause or resume in Play. -/
def applyBas (s : State) : Result :=
  match s.mode with
  | .edit => andThen (previewWrite s) playStep
  | .play => .next { s with running := !s.running }

/-- `apply BAL` (R108): the next row in Edit, nothing in Play. -/
def applyBal (s : State) : State :=
  match s.mode with
  | .edit => { s with activeRow := BitVec.ofNat 8 ((s.activeRow.toNat + 1) % s.cfg.rows) }
  | .play => s

/-- `apply BBS` (R109): the next step in Edit, nothing in Play. -/
def applyBbs (s : State) : State :=
  match s.mode with
  | .edit => advance s
  | .play => s

/-- `apply BBL` (R110): into Play running with `pos` kept, or into Edit stopped at position 0. -/
def applyBbl (s : State) : State :=
  match s.mode with
  | .edit => { s with mode := .play, running := true }
  | .play => { s with mode := .edit, running := false, pos := 0 }

/-- Whether the Edit-mode samples act: `BEHAVIOR = SEQ` and `mode = Edit` (R114, R115). -/
def State.editing (s : State) : Bool := decide (s.cfg.behavior = .seq) && decide (s.mode = .edit)

/-- `EPIT k` (R114): written only if the mapped value differs from the last one this control wrote. -/
def execEpit (k : Code) (s : State) : Result :=
  if s.editing then
    match pmap s.cfg k with
    | none => .fault .tableAddress
    | some m =>
      if s.lastPitch = some m then .next s
      else andThen (stepWrite .pitch m s) fun t => .next { t with lastPitch := some m }
  else .next s

/-- `EVEL k` (R115): as `EPIT`, for the velocity control. -/
def execEvel (k : Code) (s : State) : Result :=
  if s.editing then
    if s.lastVel = some (vmap s.cfg k) then .next s
    else andThen (stepWrite .vel (vmap s.cfg k) s) fun t => .next { t with lastVel := some (vmap s.cfg k) }
  else .next s

end Sys2Proof.Machine
end

