-- ==== Sys2Proof/Machine/Mux.lean ====
section
/-!
DEFINITION. The asynchronous-edit multiplexer (R134 to R146): the arrival of a class-A command in the callback context, the
intent queue, and the drain at the main flow's safe point.
-/
namespace Sys2Proof.Machine

/-- `apply(c)` (R137), against the state at the time it is applied. -/
def applyIntent (c : Intent) (s : State) : Result :=
  match c with
  | .dsel => .next (applyDsel s)
  | .bas => applyBas s
  | .bal => .next (applyBal s)
  | .bbs => .next (applyBbs s)
  | .bbl => .next (applyBbl s)

/-- Whether an intent is applicable to a behaviour: `DSEL` needs `DIV`, the buttons need `SEQ` (R75, R135). -/
def applicable (b : Behavior) (c : Intent) : Bool :=
  match c with
  | .dsel => decide (b = .div)
  | .bas => decide (b = .seq)
  | .bal => decide (b = .seq)
  | .bbs => decide (b = .seq)
  | .bbl => decide (b = .seq)

/-- `enqueue(c)` (R135), the newest dropped with `st_iqovf` set where the queue is full (R138). -/
def enqueue (c : Intent) (s : State) : State :=
  if s.iq.length = s.cfg.iqDepth then s.setIqovf else { s with iq := s.iq ++ [c] }

/-- `arrive(c)` (R135): discarded, queued while gated, or applied at once. -/
def arrive (c : Intent) (s : State) : Result :=
  if applicable s.cfg.behavior c then
    if s.gated then .next (enqueue c s) else applyIntent c s
  else .next s

/-- The loop of `drain()` over the intents queued, oldest first; each leaves the queue before it is applied (R136). -/
def drainList : List Intent → State → Result
  | [], s => .next s
  | c :: rest, s => andThen (applyIntent c { s with iq := rest }) (drainList rest)

/-- `drain()` (R136): no intent's application adds to the queue, so the loop runs over the queue as it stands. -/
def drain (s : State) : Result := drainList s.iq s

/-- `DSEL` (R95): class A. -/
def execDsel (s : State) : Result := arrive .dsel s

/-- `BAS` (R107): class A. -/
def execBas (s : State) : Result := arrive .bas s

/-- `BAL` (R108): class A. -/
def execBal (s : State) : Result := arrive .bal s

/-- `BBS` (R109): class A. -/
def execBbs (s : State) : Result := arrive .bbs s

/-- `BBL` (R110): class A. -/
def execBbl (s : State) : Result := arrive .bbl s

end Sys2Proof.Machine
end

