-- ==== Sys2Proof/Machine/Tick.lean ====
section
/-!
DEFINITION. The tick command (R76 to R82): one step of the active behaviour, then the drain.
-/
namespace Sys2Proof.Machine

/-- `TICK` (R76, R77): consumed only by a main flow that waits for it. -/
def execTick (s : State) : Result :=
  match s.cfg.behavior with
  | .div => drain (divOnTick s)
  | .seq => if decide (s.mode = .play) && s.running then andThen (seqPlayTick s) drain else .next s

end Sys2Proof.Machine
end

