-- ==== Sys2Proof/Machine/Dispatch.lean ====
section
/-! DEFINITION. `exec`: the meaning of each command (R63), one arm per constructor. -/
namespace Sys2Proof.Machine

def exec (i : Instr) (s : State) : Host.Outcome State Fault Refusal :=
  match i with
  | .tick => Sys2Proof.Machine.execTick s
  | .dadj c => Sys2Proof.Machine.execDadj c s
  | .epit k => Sys2Proof.Machine.execEpit k s
  | .evel k => Sys2Proof.Machine.execEvel k s
  | .qnt t k => Sys2Proof.Machine.execQnt t k s
  | .dsel => Sys2Proof.Machine.execDsel s
  | .bas => Sys2Proof.Machine.execBas s
  | .bal => Sys2Proof.Machine.execBal s
  | .bbs => Sys2Proof.Machine.execBbs s
  | .bbl => Sys2Proof.Machine.execBbl s

end Sys2Proof.Machine
end

