-- ==== Sys2Proof/WellFormed.lean ====
section
/-!
DEFINITION. Which commands carry legal operands (R62, R67). An ill-formed command still decodes and
still has a meaning: it is dropped with `st_badop` set (R67).
-/
namespace Sys2Proof

/-- The operand ranges of R62 and R67: `c` of `DADJ` in 1..127, `t` of `QNT` below the number of
tables `nt`; every `k` is legal. -/
def Instr.wellFormed (nt : Nat) : Instr → Bool
  | .tick => true
  | .dadj c => decide (1 ≤ c.toNat) && decide (c.toNat ≤ 127)
  | .epit _ => true
  | .evel _ => true
  | .qnt t _ => decide (t.toNat < nt)
  | .dsel => true
  | .bas => true
  | .bal => true
  | .bbs => true
  | .bbl => true

end Sys2Proof
end

