-- ==== Sys2Proof/Decode.lean ====
section
/-!
DEFINITION. Decoding and encoding of command words (R60 to R68), and the opcode map (R63).
Decoding is total on any 32-bit word (R65); a word that is no command is refused by name (R66).
-/
namespace Sys2Proof

/-- Why a word is no command (R66). -/
inductive DecodeError where
  /-- `cw[31:24]` is not one of the ten opcodes. -/
  | undefinedOpcode
  /-- The reserved field of the command's format is not all zero. -/
  | reservedBits
deriving DecidableEq, Repr

/-- `cw[31:24]` (R60). -/
def opcodeOf (w : CmdWord) : Byte := w.extractLsb' 24 8

/-- The count operand `c = cw[7:0]` of format C (R62). -/
def countOf (w : CmdWord) : Byte := w.extractLsb' 0 8

/-- The knob code `k = cw[15:0]` of formats K and T (R62). -/
def knobOf (w : CmdWord) : Code := w.extractLsb' 0 16

/-- The table number `t = cw[23:16]` of format T (R62). -/
def tableOf (w : CmdWord) : Byte := w.extractLsb' 16 8

/-- `cw[28]`, 1 for exactly the class-A commands (R64). -/
def classBit (w : CmdWord) : Bool := w.getLsbD 28

/-- Formats N, C and K: the command if its reserved field is all zero (R65 step 2). -/
def checkReserved {n : Nat} (reserved : BitVec n) (i : Instr) : Except DecodeError Instr :=
  if reserved = 0 then .ok i else .error .reservedBits

/-- Steps 1 and 2 of R65: look the opcode up (R63), then check the format's reserved field (R61). -/
def decode (w : CmdWord) : Except DecodeError Instr :=
  match (opcodeOf w).toNat with
  | 0x01 => checkReserved (w.extractLsb' 0 24) .tick
  | 0x02 => checkReserved (w.extractLsb' 8 16) (.dadj (countOf w))
  | 0x03 => checkReserved (w.extractLsb' 16 8) (.epit (knobOf w))
  | 0x04 => checkReserved (w.extractLsb' 16 8) (.evel (knobOf w))
  | 0x05 => .ok (.qnt (tableOf w) (knobOf w))
  | 0x10 => checkReserved (w.extractLsb' 0 24) .dsel
  | 0x11 => checkReserved (w.extractLsb' 0 24) .bas
  | 0x12 => checkReserved (w.extractLsb' 0 24) .bal
  | 0x13 => checkReserved (w.extractLsb' 0 24) .bbs
  | 0x14 => checkReserved (w.extractLsb' 0 24) .bbl
  | _ => .error .undefinedOpcode

/-- The word of a command (R61, R73): the opcode, the reserved zeros of its format, the operands. -/
def encode : Instr → CmdWord
  | .tick => 0x01#8 ++ 0#24
  | .dadj c => 0x02#8 ++ (0#16 ++ c)
  | .epit k => 0x03#8 ++ (0#8 ++ k)
  | .evel k => 0x04#8 ++ (0#8 ++ k)
  | .qnt t k => 0x05#8 ++ (t ++ k)
  | .dsel => 0x10#8 ++ 0#24
  | .bas => 0x11#8 ++ 0#24
  | .bal => 0x12#8 ++ 0#24
  | .bbs => 0x13#8 ++ 0#24
  | .bbl => 0x14#8 ++ 0#24

/-- The instruction the decoder reads from the bits `w` of a table row of `nbits` bits: every command is
one 32-bit word (R60, R68), so the bits above `nbits` are zero and the word is given whole. -/
def decodeTableWord (nbits w : Nat) : Option Instr :=
  match decode (BitVec.ofNat 32 (w % 2 ^ nbits)) with
  | .ok i => some i
  | .error _ => none

/-- The match and mask columns of a command's row of R63. -/
def matchMask : Instr → CmdWord × CmdWord
  | .tick => (0x01000000#32, 0xFFFFFFFF#32)
  | .dadj _ => (0x02000000#32, 0xFFFFFF00#32)
  | .epit _ => (0x03000000#32, 0xFFFF0000#32)
  | .evel _ => (0x04000000#32, 0xFFFF0000#32)
  | .qnt _ _ => (0x05000000#32, 0xFF000000#32)
  | .dsel => (0x10000000#32, 0xFFFFFFFF#32)
  | .bas => (0x11000000#32, 0xFFFFFFFF#32)
  | .bal => (0x12000000#32, 0xFFFFFFFF#32)
  | .bbs => (0x13000000#32, 0xFFFFFFFF#32)
  | .bbl => (0x14000000#32, 0xFFFFFFFF#32)

/-- Class A: the button edges, which the multiplexer applies or queues; the others are class S
(R63, R144). -/
def Instr.isClassA : Instr → Bool
  | .tick => false
  | .dadj _ => false
  | .epit _ => false
  | .evel _ => false
  | .qnt _ _ => false
  | .dsel => true
  | .bas => true
  | .bal => true
  | .bbs => true
  | .bbl => true

end Sys2Proof
end

