-- ==== Sys2Proof/Machine/Port.lean ====
section
/-!
DEFINITION. The input side of CORE (R7, R72): how the next word or reset is taken, the reset event (R164), the drop of an
undefined word (R66). CORE fetches no program (R41, R59): this is what stands where a processor fetches.
-/
namespace Sys2Proof.Machine

/-- The next thing the environment presents, and the state with it taken; `none` where nothing is presented. -/
def takeEvent (s : State) : Option (PortEvent × State) :=
  match s.port with
  | [] => none
  | e :: rest => some (e, { s with port := rest })

/-- The state with `e` presented after everything already waiting at the port. -/
def State.present (s : State) (e : PortEvent) : State := { s with port := s.port ++ [e] }

/-- The state with the word `w` presented next, before everything already waiting. -/
def presentNext (w : CmdWord) (s : State) : State := { s with port := .cmd w :: s.port }

/-- The reset event (R164): every field of CORE at its reset value; the configuration and the environment's stream stay. -/
def rstPulse (s : State) : State := { State.resetOf s.cfg with port := s.port }

/-- An undefined word is dropped: `st_badcmd` is set and nothing else changes (R66). -/
def dropUndefined (s : State) : State := s.setBadcmd

end Sys2Proof.Machine
end

