-- ==== Sys2Proof/Machine/Step.lean ====
section
/-!
DEFINITION. One step of CORE: it takes one thing from the environment and is one atomic transition (R7, R142, R180).
-/
namespace Sys2Proof.Machine

/-- One step. With nothing presented the state stays as it is: CORE never halts and has no step of its own (R163, R179, R180).
A command word is decoded (R65) and executed, or dropped (R66); the reset event resets (R164). -/
def step (s : State) : Host.Outcome State Fault Refusal :=
  match takeEvent s with
  | none => .next s
  | some (.rst, t) => .next (rstPulse t)
  | some (.cmd w, t) =>
    match decode w with
    | .ok i => exec i t
    | .error _ => .next (dropUndefined t)

/-- `s` with the command word of the bits `w` of a table row of `nbits` bits presented next on the command port. -/
def State.withFetchWord (s : State) (nbits w : Nat) : State :=
  presentNext (BitVec.ofNat 32 (w % 2 ^ nbits)) s

end Sys2Proof.Machine
end

