-- ==== Sys2Proof/Machine/Arpeggiator.lean ====
section
/-!
DEFINITION. The adjacent Arpeggiator / Pattern Walker (R122 to R125): not part of CORE (R4, R17), transcribed beside it.
-/
namespace Sys2Proof.Machine

/-- The Arpeggiator's state (R122): the rotation of collections, the active one first, `step`, `bi_forward`, the range
multiplier and the four outputs (R123), and the MODEL's count of restarts. -/
structure ArpState where
  rotation : List (List Code)
  step : Nat
  biForward : Bool
  range : Nat
  /-- What was last written to each of the four independent outputs. -/
  outputs : Lanes Code
  restarts : Nat
deriving DecidableEq, Repr

/-- The four simultaneous readings of a tick (R123). -/
structure ArpReadings where
  ascending : Code
  descending : Code
  bidirectional : Code
  random : Code
deriving DecidableEq, Repr

/-- The active collection (R122). -/
def ArpState.notes (a : ArpState) : List Code := a.rotation.headD []

/-- The effective length (R123): a free value, kept to 1..the collection's length ("may be less than the full collection
length"). -/
def ArpState.effectiveLength (a : ArpState) : Nat :=
  max 1 (min a.notes.length (Config.arpEffectiveLength a.range a.notes.length))

/-- The `len` of `notes[len-1-step]`: the full or the effective length, a free value (R123). -/
def ArpState.descendingLength (a : ArpState) : Nat :=
  if Config.arpDescendsFromFullLength then a.notes.length else a.effectiveLength

/-- The note an index names; where it names none, below 0 or past the end, a free value (log entry 18, DESIGN CHOICE: no rule says
what such a reading is). -/
def noteAt (notes : List Code) (index : Int) : Code :=
  if index < 0 then Config.arpNoteOutside notes index
  else notes[index.toNat]?.getD (Config.arpNoteOutside notes index)

/-- The readings of a tick whose random draw is the note `r` (R123). The index `len-1-step` is an integer: it is negative where the
start put `step` at or past `len`, and the descending reading is then a free value (log entry 18). -/
def ArpState.readings (r : Code) (a : ArpState) : ArpReadings where
  ascending := noteAt a.notes a.step
  descending := noteAt a.notes (a.descendingLength - 1 - a.step)
  bidirectional := if a.biForward then noteAt a.notes a.step else noteAt a.notes (a.descendingLength - 1 - a.step)
  random := r

/-- Reading 0, 1, 2 or 3, in the order in which R123 names them. -/
def ArpReadings.get (x : ArpReadings) (i : Fin 4) : Code :=
  match i with
  | 0 => x.ascending
  | 1 => x.descending
  | 2 => x.bidirectional
  | 3 => x.random

/-- All four readings written to the four outputs (R123), whether or not a value changes ("re-triggering outputs each tick", R122).
Which output carries which reading is a free value (log entry 18). -/
def ArpState.write (x : ArpReadings) (a : ArpState) : ArpState :=
  { a with outputs := ⟨x.get (Config.arpReadingOf 0), x.get (Config.arpReadingOf 1), x.get (Config.arpReadingOf 2),
      x.get (Config.arpReadingOf 3)⟩ }

/-- `step` advanced: on reaching the effective length it wraps to 0 and `bi_forward` flips (R123). A start with `step` already past
the effective length counts as having reached it (log entry 18, DESIGN CHOICE). -/
def ArpState.advance (a : ArpState) : ArpState :=
  if a.step + 1 < a.effectiveLength then { a with step := a.step + 1 }
  else { a with step := 0, biForward := !a.biForward }

/-- One tick (R123): the four readings, and the state after they are written and `step` is advanced; `draw` is the random index,
under no law but its range. `none` where the draw is out of that range, as every draw is from an empty collection. -/
def arpTick (draw : Nat) (a : ArpState) : Option (ArpReadings × ArpState) :=
  match a.notes[draw]? with
  | some r => some (a.readings r, (a.write (a.readings r)).advance)
  | none => none

/-- A restart: `step` to 0 (R124); the direction after it is a free value of the restart and of the direction before it (log entry
18). -/
def ArpState.restart (a : ArpState) : ArpState :=
  { a with
    step := 0
    biForward := Config.arpDirectionAfterRestart (a.restarts + 1) a.biForward
    restarts := a.restarts + 1 }

/-- The discrete user action: the next collection of the fixed rotation, and a restart (R124). -/
def ArpState.nextCollection (a : ArpState) : ArpState :=
  ArpState.restart { a with rotation := a.rotation.tail ++ a.rotation.take 1 }

/-- The range multiplier set between ticks: a change forces a restart (R124). -/
def ArpState.setRange (r : Nat) (a : ArpState) : ArpState :=
  if r = a.range then a else ArpState.restart { a with range := r }

/-- The bidirectional readings of successive ticks, one for each draw (R125). -/
def arpBidirectional : List Nat → ArpState → Option (List Code)
  | [], _ => some []
  | d :: ds, a =>
    match arpTick d a with
    | none => none
    | some (x, b) => (arpBidirectional ds b).map (x.bidirectional :: ·)

end Sys2Proof.Machine
end

