-- ==== Sys2Proof/Machine/Assembler.lean ====
section
/-!
DEFINITION. The assembler's reading of a line, after its text is split into a mnemonic and operands (R73), and the eight
pseudo-instructions (R74).
-/
namespace Sys2Proof.Machine

/-- The mnemonic of a command (R63). -/
def mnemonic : Instr → String
  | .tick => "TICK"
  | .dadj _ => "DADJ"
  | .epit _ => "EPIT"
  | .evel _ => "EVEL"
  | .qnt _ _ => "QNT"
  | .dsel => "DSEL"
  | .bas => "BAS"
  | .bal => "BAL"
  | .bbs => "BBS"
  | .bbl => "BBL"

/-- The operands of a command, in the order of R63. -/
def operands : Instr → List Nat
  | .tick => []
  | .dadj c => [c.toNat]
  | .epit k => [k.toNat]
  | .evel k => [k.toNat]
  | .qnt t k => [t.toNat, k.toNat]
  | .dsel => []
  | .bas => []
  | .bal => []
  | .bbs => []
  | .bbl => []

/-- The command of a line (R73); `none` where the mnemonic is unknown, the operands are too few or too many, or one does
not fit its field. -/
def assemble (m : String) (ops : List Nat) : Option Instr :=
  match ops with
  | [] =>
    if m = "TICK" then some .tick
    else if m = "DSEL" then some .dsel
    else if m = "BAS" then some .bas
    else if m = "BAL" then some .bal
    else if m = "BBS" then some .bbs
    else if m = "BBL" then some .bbl
    else none
  | [a] =>
    if m = "DADJ" then (if a < 2 ^ 8 then some (.dadj (BitVec.ofNat 8 a)) else none)
    else if m = "EPIT" then (if a < 2 ^ 16 then some (.epit (BitVec.ofNat 16 a)) else none)
    else if m = "EVEL" then (if a < 2 ^ 16 then some (.evel (BitVec.ofNat 16 a)) else none)
    else none
  | [t, k] =>
    if m = "QNT" then
      (if t < 2 ^ 8 then (if k < 2 ^ 16 then some (.qnt (BitVec.ofNat 8 t) (BitVec.ofNat 16 k)) else none) else none)
    else none
  | _ => none

/-- The pseudo-instructions (R74). -/
inductive Pseudo where
  | next
  | preview
  | pause
  | row
  | mode
  | edit (kp kv : Code)
  | ticks (n : Nat)
  | dtick (c : Byte)
deriving DecidableEq, Repr

/-- The commands a pseudo-instruction expands to (R74). -/
def expand : Pseudo → List Instr
  | .next => [.bbs]
  | .preview => [.bas]
  | .pause => [.bas]
  | .row => [.bal]
  | .mode => [.bbl]
  | .edit kp kv => [.epit kp, .evel kv]
  | .ticks n => List.replicate n .tick
  | .dtick c => [.dadj c, .tick]

end Sys2Proof.Machine
end

