-- ==== Sys2Proof/Machine/ClockSource.lean ====
section
/-!
DEFINITION. The adjacent Clock Source (R83 to R91): not part of CORE (R4, R17), an agent of its environment whose released
ticks are `TICK` commands on the port (R79). Its numbers are exact rationals (R91).
-/
namespace Sys2Proof.Machine

/-- `source` of ClockState (R83). -/
inductive ClockMode where
  | internal
  | external
deriving DecidableEq, Repr

/-- ClockState (R83), with the last-seen level of the external pulse (R86), and the MODEL's count of source switches. -/
structure ClockState where
  tempoBpm : Rat
  source : ClockMode
  /-- `smoothing_window`, oldest sample first. -/
  window : List Rat
  /-- The last-seen level of the external pulse input (R86). It is kept from one wait to the next, over internal ticks and over source
  switches, and only a look changes it (log entry 23, DESIGN CHOICE: no rule gives its lifetime). -/
  lastLevel : Bool
  /-- The transition to active has been seen, and not yet the matching one to inactive; as long-lived as
  `lastLevel` (log entry 23). -/
  risen : Bool
  switches : Nat
deriving DecidableEq, Repr

/-- The arithmetic mean of a window (R83). -/
def windowMean (w : List Rat) : Rat := w.sum / w.length

/-- `read_internal_tempo()`: a normalized reading mapped linearly to `[min_bpm, max_bpm]` (R84). -/
def readInternalTempo (c : TempoConfig) (r : Rat) : Rat := c.minBpm + r * (c.maxBpm - c.minBpm)

/-- The tempo sample of a normalized reading. A reading outside `[0, 1]` gives none: the caller must clamp it (R88, item U11 of
93), so every sample is within `[min_bpm, max_bpm]`. -/
def tempoSample (c : TempoConfig) (r : Rat) : Option Rat :=
  if 0 ≤ r ∧ r ≤ 1 then some (readInternalTempo c r) else none

/-- The Clock Source with its window filled with `K` copies of one sample (R83). -/
def clockFilled (c : TempoConfig) (source : ClockMode) (first : Rat) (level : Bool) : ClockState where
  tempoBpm := windowMean (List.replicate c.capacity first)
  source := source
  window := List.replicate c.capacity first
  lastLevel := level
  risen := false
  switches := 0

/-- The Clock Source at startup, filled with `K` copies of the sample of the first reading `r` (R83); a reading outside `[0, 1]` is
refused, as on every tick (R88). -/
def clockStart (c : TempoConfig) (source : ClockMode) (r : Rat) (level : Bool) : Option ClockState :=
  (tempoSample c r).map fun x => clockFilled c source x level

/-- A sample pushed into the window: the oldest evicted, the newest appended, the tempo recomputed (R83, R85). -/
def pushSample (x : Rat) (cs : ClockState) : ClockState :=
  { cs with window := cs.window.tail ++ [x], tempoBpm := windowMean (cs.window.tail ++ [x]) }

/-- The computed interval `60 / tempo_bpm / 4`, in seconds (R85). -/
def tickInterval (tempoBpm : Rat) : Rat := 60 / tempoBpm / 4

/-- `tick_internal()` at the normalized reading `r`: the state after the sample, and the interval the flow is suspended
for (R85). A reading outside `[0, 1]` is refused (R88). -/
def tickInternal (c : TempoConfig) (r : Rat) (cs : ClockState) : Option (ClockState × Rat) :=
  (tempoSample c r).map fun x => (pushSample x cs, tickInterval (pushSample x cs).tempoBpm)

/-- One look at the external pulse input, whose active level is `active` (R86): the state, and whether this transition to
inactive completes a tick. -/
def observeLevel (active level : Bool) (cs : ClockState) : ClockState × Bool :=
  if level = active then
    ({ cs with lastLevel := level, risen := cs.risen || decide (cs.lastLevel ≠ active) }, false)
  else ({ cs with lastLevel := level, risen := false }, cs.risen)

/-- `tick_external()` over the levels to come (R86): the state and the levels left at the tick, or `none` where the levels
run out first: a stalled source blocks (R163). -/
def tickExternal (active : Bool) : List Bool → ClockState → Option (ClockState × List Bool)
  | [], _ => none
  | l :: ls, cs =>
    match observeLevel active l cs with
    | (t, true) => some (t, ls)
    | (t, false) => tickExternal active ls t

/-- `wait()`: the one of the two that the current mode names (R87), at the reading `r` and the levels to come; the Clock
Source's state when it returns. -/
def clockWait (c : TempoConfig) (active : Bool) (r : Rat) (levels : List Bool) (cs : ClockState) : Option ClockState :=
  match cs.source with
  | .internal => (tickInternal c r cs).map Prod.fst
  | .external => (tickExternal active levels cs).map Prod.fst

/-- Sample `n` of the window after source switch `switches` of a window `before`: a free value (R83) within `[min_bpm, max_bpm]`, where every tempo sample
lies (R84, R88; log entry 17, DEDUCED). -/
def sampleAfterSwitch (c : TempoConfig) (switches : Nat) (before : List Rat) (n : Nat) : Rat :=
  max c.minBpm (min c.maxBpm (Config.clockWindowAfterSwitch switches before n))

/-- The window after source switch `switches` of a window `before`, full, as R83 has it (log entry 17, DEDUCED). -/
def windowAfterSwitch (c : TempoConfig) (switches : Nat) (before : List Rat) : List Rat :=
  (List.range c.capacity).map (sampleAfterSwitch c switches before)

/-- The source toggle, between ticks (R87). What it resets the window to is not said (R83): the tempo samples are free values, and
the tempo is their mean. The last-seen level and `risen` stay as they are (log entry 23, DESIGN CHOICE). -/
def toggleSource (c : TempoConfig) (cs : ClockState) : ClockState :=
  { cs with
    source := match cs.source with
      | .internal => .external
      | .external => .internal
    window := windowAfterSwitch c (cs.switches + 1) cs.window
    tempoBpm := windowMean (windowAfterSwitch c (cs.switches + 1) cs.window)
    switches := cs.switches + 1 }

/-- R83, R84: the window is full, each of its samples is a tempo within the bounds, and the tempo is their mean. -/
abbrev ClockState.Inv (c : TempoConfig) (cs : ClockState) : Prop :=
  cs.window.length = c.capacity ∧ (∀ x ∈ cs.window, c.minBpm ≤ x ∧ x ≤ c.maxBpm) ∧ cs.tempoBpm = windowMean cs.window

/-- A released tick reaches CORE as the command `TICK`, one event for one tick (R78 to R81). -/
def releaseTick (s : State) : State := s.present (.cmd (encode .tick))

end Sys2Proof.Machine
end

