-- ==== Sys2Proof/Machine/Link.lean ====
section
/-!
DEFINITION. The ports as the outside sees them (R72), the inter-module link in bytes (R70), and the remote display that
receives it (R162, R173).
-/
namespace Sys2Proof.Machine

/-- The five bytes of a link record, first byte first (R49, R70). -/
def LinkRecord.bytes (r : LinkRecord) : List Byte := [r.selected, r.d1, r.d2, r.d3, r.d4]

/-- A division byte the link can carry: 1..127 (R70). -/
def divisionByte (b : Byte) : Bool := decide (1 ≤ b.toNat) && decide (b.toNat ≤ 127)

/-- A record whose values are among those of R70: the selection -1..3, every division 1..127. -/
def LinkRecord.legal (r : LinkRecord) : Bool :=
  (decide (r.selected = 0xFF#8) || decide (r.selected.toNat ≤ 3)) &&
    divisionByte r.d1 && divisionByte r.d2 && divisionByte r.d3 && divisionByte r.d4

/-- What a receiver makes of a read: a record, or nothing where the read is malformed or partial (R70, R162). -/
def parseRecord : List Byte → Option LinkRecord
  | [s, d1, d2, d3, d4] =>
    if LinkRecord.legal ⟨s, d1, d2, d3, d4⟩ then some ⟨s, d1, d2, d3, d4⟩ else none
  | _ => none

/-- The copy a remote display shows after a read: a malformed one is dropped and the older copy stays (R162, R173). -/
def displayAfter (shown : Option LinkRecord) (read : List Byte) : Option LinkRecord :=
  match parseRecord read with
  | some r => some r
  | none => shown

/-- The bytes of `link_byte` that an event sends (R72). -/
def Event.linkBytes : Event → List Byte
  | .link r => LinkRecord.bytes r
  | .analog _ _ => []
  | .dlev _ => []
  | .note _ => []

/-- The notes of `q_note` that an event sends (R72). -/
def Event.notes : Event → List Code
  | .note n => [n]
  | .analog _ _ => []
  | .dlev _ => []
  | .link _ => []

/-- The output ports between two commands (R72). -/
structure Ports where
  cmdReady : Bool
  aout : Lanes Code
  dout : BitVec 4
  status : BitVec 3
  /-- Every byte sent on `link_byte` since reset. -/
  linkBytes : List Byte
  /-- Every note sent on `q_note` since reset. -/
  notes : List Code
deriving DecidableEq, Repr

/-- The output ports of a state (R72); no pulse is being held between commands, so CORE can accept one (R170). -/
def State.ports (s : State) : Ports where
  cmdReady := true
  aout := s.aout
  dout := s.dout
  status := s.status
  linkBytes := s.out.flatMap Event.linkBytes
  notes := s.out.flatMap Event.notes

end Sys2Proof.Machine
end

