-- ==== Sys2Proof/Machine/Construct.lean ====
section
/-!
DEFINITION. Construction (R10, R147, R167): the check of a configuration record, and the CORE built from one that passes.
-/
namespace Sys2Proof.Machine

/-- The cause code of R147; `uncoded` has none. -/
def causeCode : ConfigError → Option Nat
  | .seqLen => some 1
  | .rows => some 2
  | .divInit => some 3
  | .table => some 4
  | .eps => some 5
  | .iq => some 6
  | .velBits => some 7
  | .behavior => some 8
  | .tempo => some 9
  | .uncoded => none

/-- Not a 16-bit value: outside 0..65535 (R9, R34). -/
def outside16 (x : Int) : Bool := decide (x < 0) || decide (65535 < x)

/-- The condition of a cause, on the record as presented: R147's, and for `uncoded` the constraints of R9 and the widths of R34 that
R147 leaves (R10). The `chromaT < 0` of cause 4 can hold only because the record's numbers are integers (log entry 10). -/
def violates (r : ConfigRecord) : ConfigError → Bool
  | .seqLen => decide (r.seqLen < 1) || decide (256 < r.seqLen)
  | .rows => decide (r.rows < 1) || decide (4 < 2 * r.rows)
  | .divInit => decide (r.d ≠ 4) || decide (r.divInit.length ≠ 4) || r.divInit.any fun d => decide (d < 1) || decide (127 < d)
  | .table =>
    decide (r.tdesc.length < 1) || decide (256 < r.tdesc.length) ||
      (r.tdesc.any fun d => decide (d.len < 1) || decide ((r.tmem.length : Int) < d.base + d.len)) ||
      decide (65536 < r.tmem.length) || decide (r.chromaT < 0) || decide ((r.tdesc.length : Int) ≤ r.chromaT)
  | .eps => decide (r.eps ≤ 0) || decide (1 ≤ r.eps)
  | .iq => decide (r.iqDepth < 1)
  | .velBits => decide (r.velKeepBits < 1) || decide (16 < r.velKeepBits)
  | .behavior => decide (r.behavior = none)
  | .tempo => decide (r.minBpm ≤ 0) || decide (r.maxBpm < r.minBpm) || decide (r.capacity < 1)
  | .uncoded =>
    (r.divChoices.any fun d => decide (d < 1) || decide (127 < d)) || decide (r.timing.pulseWidth ≤ 0) ||
      decide (r.timing.patternPulseWidth ≤ r.timing.pulseWidth) || decide (r.divMax ≠ 127) || outside16 r.defaultPitch ||
      outside16 r.defaultVel || r.tmem.any outside16 || r.tdesc.any fun d => outside16 d.base || outside16 d.len

/-- The causes, in the order of their codes (R147), the one without a code last. -/
def allCauses : List ConfigError :=
  [.seqLen, .rows, .divInit, .table, .eps, .iq, .velBits, .behavior, .tempo, .uncoded]

/-- The cause reported: the one of lowest code (R147), one without a code where no coded cause holds (log entry
10, DESIGN CHOICE). -/
def firstError (r : ConfigRecord) : Option ConfigError := allCauses.find? (violates r)

/-- Division `i` of the record, at the width of the register (R19). -/
def initialDivision (r : ConfigRecord) (i : Nat) : Byte := BitVec.ofInt 8 (r.divInit[i]?.getD 1)

/-- The configuration kept from a record that has passed the check. -/
def configOf (r : ConfigRecord) (b : Behavior) : Config where
  behavior := b
  divInit := ⟨initialDivision r 0, initialDivision r 1, initialDivision r 2, initialDivision r 3⟩
  resetCounterOnChange := r.resetCounterOnChange
  notifyEn := r.notifyEn
  rows := r.rows.toNat
  seqLen := r.seqLen.toNat
  defaultPitch := BitVec.ofInt 16 r.defaultPitch
  defaultVel := BitVec.ofInt 16 r.defaultVel
  velKeepBits := r.velKeepBits.toNat
  writeOnPreview := r.writeOnPreview
  tdesc := r.tdesc.map fun d => ⟨BitVec.ofInt 16 d.base, BitVec.ofInt 16 d.len⟩
  tmem := r.tmem.map (BitVec.ofInt 16)
  chromaT := r.chromaT.toNat
  eps := r.eps
  iqDepth := r.iqDepth.toNat
  divChoices := r.divChoices.map (BitVec.ofInt 8)
  timing := r.timing
  tempo := ⟨r.capacity.toNat, r.minBpm, r.maxBpm⟩

/-- Construction and reset: the CORE of a record that meets every constraint, right after reset, or the configuration error
(R10, R147, R167). -/
def construct (r : ConfigRecord) : Except ConfigError State :=
  match firstError r, r.behavior with
  | some e, _ => .error e
  | none, some b => .ok (State.resetOf (configOf r b))
  | none, none => .error .behavior

end Sys2Proof.Machine

namespace Sys2Proof

/-- Every lane in 1..127 (R19, R20). -/
abbrev lanesLegal (l : Lanes Byte) : Prop :=
  (1 ≤ l.l0.toNat ∧ l.l0.toNat ≤ 127) ∧ (1 ≤ l.l1.toNat ∧ l.l1.toNat ≤ 127) ∧
    (1 ≤ l.l2.toNat ∧ l.l2.toNat ≤ 127) ∧ (1 ≤ l.l3.toNat ∧ l.l3.toNat ≤ 127)

/-- The constraints of R9 on the Clock Source's parameters; `min_bpm > 0` keeps the period computation from dividing by zero (R88). -/
abbrev TempoConfig.Valid (c : TempoConfig) : Prop := 0 < c.minBpm ∧ c.minBpm ≤ c.maxBpm ∧ 1 ≤ c.capacity

/-- The constraints of R9 that a built CORE's configuration meets. -/
abbrev Config.Valid (c : Config) : Prop :=
  (1 ≤ c.seqLen ∧ c.seqLen ≤ 256) ∧ (1 ≤ c.rows ∧ 2 * c.rows ≤ 4) ∧ lanesLegal c.divInit ∧
    (1 ≤ c.nt ∧ c.nt ≤ 256) ∧
    (∀ d ∈ c.tdesc, 1 ≤ d.len.toNat ∧ d.base.toNat + d.len.toNat ≤ c.tmem.length) ∧
    c.tmem.length ≤ 65536 ∧ c.chromaT < c.nt ∧ (0 < c.eps ∧ c.eps < 1) ∧ 1 ≤ c.iqDepth ∧
    (1 ≤ c.velKeepBits ∧ c.velKeepBits ≤ 16) ∧
    c.tempo.Valid ∧
    (∀ d ∈ c.divChoices, 1 ≤ d.toNat ∧ d.toNat ≤ 127) ∧
    (0 < c.timing.pulseWidth ∧ c.timing.pulseWidth < c.timing.patternPulseWidth)

end Sys2Proof
end

