-- ==== Sys2Proof/Safety.lean ====
section
/-!
DEFINITION. What holds between commands: the invariants of the bank (R21), of the sequencer (R30), of the queue (R143), of
the outputs (R39), of the idle unit (R92, R104), and the frames (which part of the state two states share).
-/
namespace Sys2Proof.Machine

/-- R21, R22: the registers of the bank stay in range. -/
abbrev BankInv (s : State) : Prop := lanesLegal s.div ∧ lanesLegal s.cnt ∧ s.prevChoice.toNat ≤ 127

/-- R30 (a), (b), (c). -/
abbrev SequencerInv (s : State) : Prop :=
  s.pos.toNat < s.cfg.seqLen ∧ s.activeRow.toNat < s.cfg.rows ∧ (s.running = true → s.mode = .play)

/-- The STEP space is in canonical form and inside the grid (R46). -/
abbrev GridInv (s : State) : Prop :=
  Memory.wf (resetCell s.cfg) s.steps ∧ ∀ e ∈ s.steps, e.1 < s.cfg.rows * s.cfg.seqLen

/-- R143 (a), (b), (c). -/
abbrev QueueInv (s : State) : Prop :=
  (s.gated = false → s.iq = []) ∧ s.iq.length ≤ s.cfg.iqDepth ∧ ∀ c ∈ s.iq, applicable s.cfg.behavior c = true

/-- The unit `BEHAVIOR` does not name keeps its reset state (R92, decision D3), and its outputs with it (item V14 of 93). -/
abbrev IdleInv (s : State) : Prop :=
  (s.cfg.behavior = .seq → s.div = s.cfg.divInit ∧ s.cnt = s.cfg.divInit ∧ s.sel = none ∧ s.prevChoice = 0) ∧
    (s.cfg.behavior = .div →
      s.steps = [] ∧ s.pos = 0 ∧ s.activeRow = 0 ∧ s.mode = .edit ∧ s.running = false ∧ s.lastPitch = none ∧
        s.lastVel = none ∧ s.aout = ⟨0, 0, 0, 0⟩)

/-- Every invariant the spec states between commands, for a validly constructed CORE; every digital output is low (R39). -/
abbrev Inv (s : State) : Prop :=
  s.cfg.Valid ∧ BankInv s ∧ SequencerInv s ∧ GridInv s ∧ QueueInv s ∧ IdleInv s ∧ s.dout = 0

/-- No status flag is set: the premise of a run about which claims are made (R66, R138, R150). -/
abbrev FlagsClear (s : State) : Prop := s.stBadcmd = false ∧ s.stBadop = false ∧ s.stIqovf = false

/-! Frames. -/

/-- The divider bank's state (R19, R20, R22, R23) is the same. -/
abbrev SameBank (s t : State) : Prop :=
  t.div = s.div ∧ t.cnt = s.cnt ∧ t.sel = s.sel ∧ t.prevChoice = s.prevChoice

/-- Every cell of the grid reads the same (R24). -/
abbrev SameGrid (s t : State) : Prop := ∀ a, t.cellAt a = s.cellAt a

/-- Every cell but the one at linear address `a` reads the same. -/
abbrev SameGridExcept (a : Nat) (s t : State) : Prop := ∀ b, b ≠ a → t.cellAt b = s.cellAt b

/-- The sequencer's control state (R26 to R29) is the same. -/
abbrev SameControl (s t : State) : Prop :=
  t.pos = s.pos ∧ t.activeRow = s.activeRow ∧ t.mode = s.mode ∧ t.running = s.running

/-- The last-written values (R31, R32) are the same. -/
abbrev SameLast (s t : State) : Prop := t.lastPitch = s.lastPitch ∧ t.lastVel = s.lastVel

/-- The sequencer's whole state is the same. -/
abbrev SameSequencer (s t : State) : Prop := SameGrid s t ∧ SameControl s t ∧ SameLast s t

/-- The status flags (R37) are the same. -/
abbrev SameFlags (s t : State) : Prop :=
  t.stBadcmd = s.stBadcmd ∧ t.stBadop = s.stBadop ∧ t.stIqovf = s.stIqovf

/-- The outputs and the history (R38 to R40) are the same. -/
abbrev SameOutputs (s t : State) : Prop := t.aout = s.aout ∧ t.dout = s.dout ∧ t.out = s.out

/-- The configuration and the environment's stream are the same. -/
abbrev SameEnvironment (s t : State) : Prop := t.cfg = s.cfg ∧ t.port = s.port

/-! Observations. -/

/-- The cell that `play_step` reads for row `r` (R112). -/
def State.rowCell (s : State) (r : Nat) : StepCell := s.cellAt (stepAddress s.cfg r s.pos.toNat)

/-- The events of `play_step` (R112): pitch and velocity of every row in index order, then the trigger pulse. -/
def State.playEvents (s : State) : List Event :=
  (List.range s.cfg.rows).flatMap (fun r =>
    [.analog (Fin.ofNat 4 (2 * r)) (s.rowCell r).pitch, .analog (Fin.ofNat 4 (2 * r + 1)) (s.rowCell r).vel]) ++
  [.dlev 0b0001#4, .dlev 0b0000#4]

/-- The analog outputs after `play_step` (R112): those of the rows carry the played cells, the others stay. -/
def PlayedOutputs (s t : State) : Prop :=
  (∀ r, r < s.cfg.rows → t.aout.get (Fin.ofNat 4 (2 * r)) = (s.rowCell r).pitch ∧
    t.aout.get (Fin.ofNat 4 (2 * r + 1)) = (s.rowCell r).vel) ∧
  ∀ j : Fin 4, 2 * s.cfg.rows ≤ j.val → t.aout.get j = s.aout.get j

/-- Whether `advance()` wraps: `pos` is the last position (R111). -/
def State.atLastStep (s : State) : Bool := decide (s.pos.toNat = s.cfg.seqLen - 1)

/-- The events of `advance()` (R111): the pattern-restart pulse on a wrap, nothing else. -/
def State.advanceEvents (s : State) : List Event :=
  if s.atLastStep then [.dlev 0b0010#4, .dlev 0b0000#4] else []

/-- The position after `advance()` (R111), as a number. -/
def State.advancePos (s : State) : Nat := if s.atLastStep then 0 else s.pos.toNat + 1

/-- The state after a list of commands, each executed when presented (R54 (1)). -/
def runCommands : List Instr → State → Result
  | [], s => .next s
  | i :: is, s => andThen (exec i s) (runCommands is)

/-- Output `i` fires in the `TICK` taken at `s`: the first event that `TICK` appends raises a set of outputs that holds `i`
(R93). -/
def FiresOnTick (s : State) (i : Fin 4) : Prop :=
  ∃ t m rest, exec .tick s = .next t ∧ t.out = s.out ++ .dlev m :: rest ∧ m.getLsbD i.val = true

/-- The outputs as the history alone gives them: the levels the last events set (R71). -/
def replay : List Event → Lanes Code × BitVec 4 → Lanes Code × BitVec 4
  | [], p => p
  | .analog j v :: es, p => replay es (p.1.set j v, p.2)
  | .dlev b :: es, p => replay es (p.1, b)
  | .link _ :: es, p => replay es p
  | .note _ :: es, p => replay es p

/-- The words that are no command (R63, R66), in numbers: an opcode outside the map, or a reserved field of the opcode's
format (R61) that is not zero. -/
abbrev UndefinedWord (w : Nat) : Prop :=
  w / 2 ^ 24 ∉ [0x01, 0x02, 0x03, 0x04, 0x05, 0x10, 0x11, 0x12, 0x13, 0x14] ∨
    (w / 2 ^ 24 ∈ [0x01, 0x10, 0x11, 0x12, 0x13, 0x14] ∧ w % 2 ^ 24 ≠ 0) ∨
    (w / 2 ^ 24 = 0x02 ∧ w / 2 ^ 8 % 2 ^ 16 ≠ 0) ∨
    (w / 2 ^ 24 ∈ [0x03, 0x04] ∧ w / 2 ^ 16 % 2 ^ 8 ≠ 0)

/-- `qidx(v, N)` of R127 for a rational reading `v`: the exact floor, clamped to `0..N-1`. -/
def qidx (eps v : Rat) (n : Nat) : Int := max 0 (min ((n : Int) - 1) ⌊(v - eps) * n⌋)

/-- Every counter is at most its division: the part of the document's invariant that R21 weakens. -/
abbrev CountersWithinDivisions (s : State) : Prop := ∀ i, (s.cnt.get i).toNat ≤ (s.div.get i).toNat

end Sys2Proof.Machine
end

