-- ==== Sys2Proof/Certificates/Slice0/Obligations.lean ====
section
/-!
DEFINITION. The statements for the provers, from the numbered rules of the spec. Each docstring names the rule it formalises.
-/

open Sys2Proof Sys2Proof.Machine

/-! Encoding. -/

/-- R60 to R65: a word decodes to a command exactly when it is that command's encoding, so no bit of a word is dropped. -/
def Obligations.DecodeAcceptsExactlyTheEncodings : Prop :=
  ∀ (w : CmdWord) (i : Instr), decode w = .ok i ↔ encode i = w

/-- R63: a word is a command of a row of the opcode map exactly when it matches under the row's mask. -/
def Obligations.WordIsCommandIffItMatchesUnderMask : Prop :=
  ∀ (w : CmdWord) (i : Instr),
    (∃ j, decode w = .ok j ∧ matchMask j = matchMask i) ↔ w &&& (matchMask i).2 = (matchMask i).1

/-- R64: the class bit is `cw[28]`, 1 for exactly the class-A commands. -/
def Obligations.ClassBitSeparatesTheClasses : Prop :=
  (∀ (w : CmdWord) (i : Instr), decode w = .ok i → classBit w = i.isClassA) ∧
    ∀ i : Instr, i.isClassA = true ↔ i ∈ [Instr.dsel, .bas, .bal, .bbs, .bbl]

/-- R63, R66, R73: the words the spec writes out decode to the commands it names. -/
def Obligations.SpecWordsDecode : Prop :=
  decode 0x01000000#32 = .ok .tick ∧ decode 0x02000003#32 = .ok (.dadj 3) ∧ decode 0x03008000#32 = .ok (.epit 0x8000) ∧
    decode 0x0400FFFF#32 = .ok (.evel 65535) ∧ decode 0x0501570A#32 = .ok (.qnt 1 22282) ∧
    decode 0x14000000#32 = .ok .bbl ∧ decode 0x00000000#32 = .error .undefinedOpcode ∧
    decode 0x01000001#32 = .error .reservedBits

/-- R73: a line assembles to exactly one command, and its word is the opcode and the operands at their places. -/
def Obligations.LineAssemblesToItsWord : Prop :=
  (∀ i : Instr, assemble (mnemonic i) (operands i) = some i) ∧
    (∀ i ∈ [(Instr.tick, 0x01), (.dsel, 0x10), (.bas, 0x11), (.bal, 0x12), (.bbs, 0x13), (.bbl, 0x14)],
      (encode i.1).toNat = i.2 * 2 ^ 24) ∧
    (∀ c, (encode (.dadj c)).toNat = 0x02 * 2 ^ 24 + c.toNat) ∧
    (∀ k, (encode (.epit k)).toNat = 0x03 * 2 ^ 24 + k.toNat) ∧
    (∀ k, (encode (.evel k)).toNat = 0x04 * 2 ^ 24 + k.toNat) ∧
    ∀ t k, (encode (.qnt t k)).toNat = 0x05 * 2 ^ 24 + t.toNat * 2 ^ 16 + k.toNat

/-! The step. -/

/-- R7, R54, R65: a step takes the word at the port and, where it decodes to a command, is that command's meaning. -/
def Obligations.StepRunsTheDecodedCommand : Prop :=
  ∀ (s : State) (w : CmdWord) (rest : List PortEvent) (i : Instr), s.port = .cmd w :: rest → decode w = .ok i →
    step s = exec i { s with port := rest }

/-- R66: an undefined word sets `st_badcmd` and changes nothing else. -/
def Obligations.UndefinedWordSetsOnlyItsFlag : Prop :=
  (∀ (s : State) (w : CmdWord) (rest : List PortEvent), s.port = .cmd w :: rest → UndefinedWord w.toNat →
    step s = .next { s with port := rest, stBadcmd := true }) ∧
  (∀ w : CmdWord, UndefinedWord w.toNat ↔ ¬ ∃ i, decode w = .ok i) ∧
  UndefinedWord 0x00000000 ∧ UndefinedWord 0xFFFFFFFF

/-- R164, R166: the reset event gives every field its reset value and keeps the configuration; R180: with nothing presented
nothing changes (the second clause is the model's choice, log entry 1). -/
def Obligations.ResetEventRestoresTheResetState : Prop :=
  (∀ (s : State) (rest : List PortEvent), s.port = .rst :: rest →
    step s = .next { State.resetOf s.cfg with port := rest }) ∧
  ∀ s : State, s.port = [] → step s = .next s

/-- The fetch interface: a command's word presented next is run next (log entry 1). -/
def Obligations.WordPresentedNextRunsNext : Prop :=
  ∀ (s : State) (i : Instr), step (s.withFetchWord 32 (encode i).toNat) = exec i s

/-! Reset and construction. -/

/-- R44: the state after reset, for every configuration (row by row), and the defaults its rows name. -/
def Obligations.ResetStateIsTheTable : Prop :=
  (∀ c : Config,
    (State.resetOf c).div = c.divInit ∧ (State.resetOf c).cnt = c.divInit ∧ (State.resetOf c).sel = none ∧
    (State.resetOf c).prevChoice = 0 ∧
    (∀ r p, r < c.rows → p < c.seqLen →
      stepRead r p (State.resetOf c) = some ⟨c.defaultPitch, c.defaultVel⟩) ∧
    (State.resetOf c).pos = 0 ∧ (State.resetOf c).activeRow = 0 ∧ (State.resetOf c).mode = .edit ∧
    (State.resetOf c).running = false ∧ (State.resetOf c).lastPitchValid = false ∧
    (State.resetOf c).lastVelValid = false ∧ (State.resetOf c).iq = [] ∧ FlagsClear (State.resetOf c) ∧
    (∀ j, (State.resetOf c).aout.get j = 0) ∧ (State.resetOf c).dout = 0 ∧ (State.resetOf c).out = [] ∧
    (State.resetOf c).cfg = c) ∧
  Config.default.divInit = ⟨1, 2, 4, 8⟩ ∧
  Config.default.defaultPitch = 0 ∧ Config.default.defaultVel = 65535

/-- The model's reset state is that of its own default configuration (log entries 2 and 3) and meets every invariant. -/
def Obligations.ResetMeetsEveryInvariant : Prop := State.reset = State.resetOf Config.default ∧ Inv State.reset

/-- R10, R21, R30, R143: the reset state of every valid configuration meets every invariant. -/
def Obligations.EveryValidConfigurationResetsInsideTheInvariant : Prop := ∀ c : Config, c.Valid → Inv (State.resetOf c)

/-- R10, R147: the code and the condition of each cause; a record is rejected with a cause exactly when that cause's condition holds
and no condition of a cause reported before it does: the lowest code first. The model's choices (log entry 10, DESIGN CHOICE): cause
4's `chromaT < 0`, which only a record of integers can present; the cause `uncoded` for the constraints of R9 that R147 gives no code
(`DIV_MAX`, `DIV_CHOICES`, the two pulse widths, the range 0..65535) and for a descriptor's field wider than R34 has it, reported where
no coded cause holds. -/
def Obligations.ConstructionReportsTheLowestCause : Prop :=
  [ConfigError.seqLen, .rows, .divInit, .table, .eps, .iq, .velBits, .behavior, .tempo].map causeCode =
    [1, 2, 3, 4, 5, 6, 7, 8, 9].map some ∧ causeCode .uncoded = none ∧
  (∀ (r : ConfigRecord) (e : ConfigError), construct r = .error e ↔
    violates r e = true ∧ ∀ e', (match causeCode e', causeCode e with
      | some m, some n => m < n
      | some _, none => True
      | none, _ => False) → violates r e' = false) ∧
  ∀ r : ConfigRecord,
    (violates r .seqLen = true ↔ r.seqLen < 1 ∨ r.seqLen > 256) ∧
    (violates r .rows = true ↔ r.rows < 1 ∨ 2 * r.rows > 4) ∧
    (r.d = r.divInit.length →
      (violates r .divInit = true ↔ (∃ d ∈ r.divInit, d < 1 ∨ 127 < d) ∨ r.d ≠ 4)) ∧
    (violates r .table = true ↔ r.tdesc.length < 1 ∨ r.tdesc.length > 256 ∨
      (∃ d ∈ r.tdesc, d.len < 1 ∨ d.base + d.len > r.tmem.length) ∨ r.tmem.length > 65536 ∨
      r.chromaT < 0 ∨ r.chromaT ≥ r.tdesc.length) ∧
    (violates r .eps = true ↔ r.eps ≤ 0 ∨ r.eps ≥ 1) ∧
    (violates r .iq = true ↔ r.iqDepth < 1) ∧
    (violates r .velBits = true ↔ r.velKeepBits < 1 ∨ r.velKeepBits > 16) ∧
    (violates r .behavior = true ↔ r.behavior ≠ some .div ∧ r.behavior ≠ some .seq) ∧
    (violates r .tempo = true ↔ r.minBpm ≤ 0 ∨ r.maxBpm < r.minBpm ∨ r.capacity < 1) ∧
    (violates r .uncoded = true ↔ (∃ d ∈ r.divChoices, d < 1 ∨ 127 < d) ∨ r.timing.pulseWidth ≤ 0 ∨
      r.timing.patternPulseWidth ≤ r.timing.pulseWidth ∨ r.divMax ≠ 127 ∨
      (∃ x ∈ [r.defaultPitch, r.defaultVel] ++ r.tmem, x < 0 ∨ 65535 < x) ∨
      ∃ d ∈ r.tdesc, d.base < 0 ∨ 65535 < d.base ∨ d.len < 0 ∨ 65535 < d.len)

/-- R10, R167: a record that passes gives a CORE right after reset, with a valid configuration that holds its parameters. -/
def Obligations.ConstructionKeepsTheParameters : Prop :=
  ∀ (r : ConfigRecord) (s : State), construct r = .ok s →
    s = State.resetOf s.cfg ∧ s.cfg.Valid ∧ some s.cfg.behavior = r.behavior ∧
    (∀ i : Fin 4, r.divInit[i.val]? = some ((s.cfg.divInit.get i).toNat : Int)) ∧
    (s.cfg.rows : Int) = r.rows ∧ (s.cfg.seqLen : Int) = r.seqLen ∧ (s.cfg.velKeepBits : Int) = r.velKeepBits ∧
    (s.cfg.chromaT : Int) = r.chromaT ∧ (s.cfg.iqDepth : Int) = r.iqDepth ∧ s.cfg.eps = r.eps ∧
    s.cfg.tdesc.map (fun d => (⟨(d.base.toNat : Int), (d.len.toNat : Int)⟩ : TableDescRecord)) = r.tdesc ∧
    s.cfg.tmem.map (fun x => (x.toNat : Int)) = r.tmem ∧ (s.cfg.defaultPitch.toNat : Int) = r.defaultPitch ∧
    (s.cfg.defaultVel.toNat : Int) = r.defaultVel ∧ r.divMax = 127 ∧ s.cfg.resetCounterOnChange = r.resetCounterOnChange ∧
    s.cfg.notifyEn = r.notifyEn ∧ s.cfg.writeOnPreview = r.writeOnPreview ∧
    s.cfg.divChoices.map (fun d => (d.toNat : Int)) = r.divChoices ∧ s.cfg.timing = r.timing ∧
    (s.cfg.tempo.capacity : Int) = r.capacity ∧ s.cfg.tempo.minBpm = r.minBpm ∧ s.cfg.tempo.maxBpm = r.maxBpm

/-! Invariants that every step keeps, from every state that meets them. -/

/-- R21, R22, R30, R39, R46, R92, R143, together, for every step. -/
def Obligations.StepKeepsEveryInvariant : Prop := ∀ s t : State, Inv s → step s = .next t → Inv t

/-- R148: nothing raises after construction; every step from a state that meets the invariants has a next state. -/
def Obligations.NoStepStopsInsideTheInvariant : Prop := ∀ s : State, Inv s → ∃ t, step s = .next t

/-- Every step keeps the grid inside the addresses of R46 and in canonical form, with no other premise. The canonical form is the
model's choice of representation (log entry 5, DESIGN CHOICE), not the spec's. -/
def Obligations.StepKeepsTheGridCanonical : Prop := ∀ s t : State, GridInv s → step s = .next t → GridInv t

/-- R143 (a) to (d): the queue's invariants hold at reset, every step keeps them, and a consumed `TICK` empties the queue. -/
def Obligations.QueueInvariantsHoldBetweenCommands : Prop :=
  (∀ c : Config, QueueInv (State.resetOf c)) ∧ (∀ s t : State, QueueInv s → step s = .next t → QueueInv t) ∧
    ∀ s t : State, s.gated = true → exec .tick s = .next t → t.iq = []

/-- R30 (a) to (c): kept by every step of a validly configured CORE. -/
def Obligations.SequencerInvariantsKept : Prop :=
  ∀ s t : State, s.cfg.Valid → SequencerInv s → step s = .next t → SequencerInv t

/-- R21: the bank's registers stay in 1..127; `cnt[i] <= div[i]` holds at reset, is kept as the rule says, and is restored
when output `i` fires. -/
def Obligations.BankInvariantsAndTheirRestoration : Prop :=
  (∀ s t : State, s.cfg.Valid → BankInv s → step s = .next t → BankInv t) ∧
  (∀ c : Config, c.Valid → BankInv (State.resetOf c)) ∧ (∀ c : Config, CountersWithinDivisions (State.resetOf c)) ∧
  (∀ s t : State, BankInv s → CountersWithinDivisions s → (exec .tick s = .next t ∨ exec .dsel s = .next t) →
    CountersWithinDivisions t) ∧
  (∀ (s t : State) (c : Byte), CountersWithinDivisions s →
    (s.cfg.resetCounterOnChange = true ∨ ∀ i, s.sel = some i → (s.cnt.get i).toNat ≤ c.toNat) →
    exec (.dadj c) s = .next t → CountersWithinDivisions t) ∧
  ∀ (s t : State) (i : Fin 4), s.cfg.behavior = .div → s.cnt.get i = 1 → exec .tick s = .next t →
    (t.cnt.get i).toNat ≤ (t.div.get i).toNat

/-- R71: the outputs are always the levels that the history's events have set. -/
def Obligations.OutputsFollowTheHistory : Prop :=
  ∀ s t : State, replay s.out (⟨0, 0, 0, 0⟩, 0) = (s.aout, s.dout) → step s = .next t →
    replay t.out (⟨0, 0, 0, 0⟩, 0) = (t.aout, t.dout)

/-- R40: no step but a reset takes anything from the history. -/
def Obligations.HistoryIsAppendOnly : Prop :=
  ∀ s t : State, s.port.head? ≠ some .rst → step s = .next t → ∃ es, t.out = s.out ++ es

/-- R37, R150: a status flag is cleared by reset alone, and each is set by its own cause alone; the status port shows them. -/
def Obligations.StatusFlagsAreStickyWithOneCauseEach : Prop :=
  (∀ s t : State, s.port.head? ≠ some .rst → step s = .next t →
    (s.stBadcmd = true → t.stBadcmd = true) ∧ (s.stBadop = true → t.stBadop = true) ∧
    (s.stIqovf = true → t.stIqovf = true)) ∧
  (∀ (i : Instr) (s t : State), exec i s = .next t →
    t.stBadcmd = s.stBadcmd ∧
    (t.stBadop ≠ s.stBadop → i.wellFormed s.cfg.nt = false) ∧
    (t.stIqovf ≠ s.stIqovf → i.isClassA = true ∧ s.gated = true ∧ s.iq.length = s.cfg.iqDepth)) ∧
  ∀ s : State, s.status.getLsbD 0 = s.stBadcmd ∧ s.status.getLsbD 1 = s.stBadop ∧ s.status.getLsbD 2 = s.stIqovf

/-- R17, R164: no step writes the configuration. The second clause, that a step leaves the input stream without its head (empty where
it was empty), is about the model's own field `port` and is the model's choice (log entry 1, DESIGN CHOICE), as holding the
configuration in a field of State is (log entry 4). -/
def Obligations.ConfigurationIsNeverWritten : Prop :=
  ∀ s t : State, step s = .next t → t.cfg = s.cfg ∧ t.port = s.port.tail

/-! Who writes what. -/

/-- R67: an illegal operand is dropped with `st_badop` set; every knob code is legal. -/
def Obligations.IllegalOperandSetsOnlyItsFlag : Prop :=
  (∀ (c : Byte) (s : State), c.toNat = 0 ∨ 128 ≤ c.toNat →
    exec (.dadj c) s = .next { s with stBadop := true }) ∧
  (∀ (t : Byte) (k : Code) (s : State), s.cfg.nt ≤ t.toNat →
    exec (.qnt t k) s = .next { s with stBadop := true }) ∧
  ∀ (k : Code) (s u : State), (exec (.epit k) s = .next u ∨ exec (.evel k) s = .next u ∨
    ∃ t : Byte, t.toNat < s.cfg.nt ∧ exec (.qnt t k) s = .next u) → u.stBadop = s.stBadop

/-- R75: the cells of the applicability matrix marked no-op, for a command that is executed when presented. -/
def Obligations.InapplicableCommandsDoNothing : Prop :=
  (∀ s : State, s.cfg.behavior = .seq → exec .dsel s = .next s ∧
    ∀ c : Byte, 1 ≤ c.toNat → c.toNat ≤ 127 → exec (.dadj c) s = .next s) ∧
  (∀ s : State, s.cfg.behavior = .div → ∀ k : Code,
    ∀ i ∈ [Instr.epit k, .evel k, .bas, .bal, .bbs, .bbl], exec i s = .next s) ∧
  (∀ s : State, s.cfg.behavior = .seq → s.mode = .edit → exec .tick s = .next s) ∧
  (∀ s : State, s.cfg.behavior = .seq → s.mode = .play → ∀ k : Code,
    ∀ i ∈ [Instr.epit k, .evel k], exec i s = .next s) ∧
  ∀ s : State, s.cfg.behavior = .seq → s.mode = .play → s.running = false →
    ∀ i ∈ [Instr.tick, .bal, .bbs], exec i s = .next s

/-- R102: which command can change which register of the bank. -/
def Obligations.OnlyItsCommandsWriteTheBank : Prop :=
  ∀ (i : Instr) (s t : State), exec i s = .next t →
    (t.div ≠ s.div → ∃ c, i = .dadj c) ∧ (t.cnt ≠ s.cnt → i = .tick ∨ ∃ c, i = .dadj c) ∧
    (t.prevChoice ≠ s.prevChoice → ∃ c, i = .dadj c) ∧ (t.sel ≠ s.sel → i = .tick ∧ Intent.dsel ∈ s.iq)

/-- R120, R30 (d): which command can change a cell, and which cell it can change. -/
def Obligations.OnlyEditsWriteTheGrid : Prop :=
  (∀ (i : Instr) (s t : State) (a : Nat), GridInv s → s.cfg.writeOnPreview = false → exec i s = .next t →
    t.cellAt a ≠ s.cellAt a →
    s.cfg.behavior = .seq ∧ s.mode = .edit ∧ a = s.editAddress ∧
      ((∃ k, i = .epit k) ∧ (t.cellAt a).vel = (s.cellAt a).vel ∨
        (∃ k, i = .evel k) ∧ (t.cellAt a).pitch = (s.cellAt a).pitch)) ∧
  ∀ (c : Intent) (s t : State) (a : Nat), applyIntent c s = .next t → t.cellAt a ≠ s.cellAt a →
    c = .bas ∧ s.cfg.writeOnPreview = true ∧ s.mode = .edit ∧ a = s.editAddress

/-- R26 to R29, R119, and conflict C1: which application, and which command, can change which field of the sequencer's control state. -/
def Obligations.EachControlFieldHasItsOwnWriters : Prop :=
  (∀ (c : Intent) (s t : State), applyIntent c s = .next t →
    (t.mode ≠ s.mode → c = .bbl) ∧ (t.running ≠ s.running → c = .bbl ∨ c = .bas ∧ s.mode = .play) ∧
    (t.activeRow ≠ s.activeRow → c = .bal ∧ s.mode = .edit) ∧
    (t.pos ≠ s.pos → c = .bbs ∧ s.mode = .edit ∨ c = .bbl ∧ s.mode = .play)) ∧
  ∀ (i : Instr) (s t : State), s.iq = [] → exec i s = .next t →
    (t.mode ≠ s.mode → i = .bbl) ∧ (t.running ≠ s.running → i = .bbl ∨ i = .bas ∧ s.mode = .play) ∧
    (t.activeRow ≠ s.activeRow → i = .bal ∧ s.mode = .edit) ∧
    (t.pos ≠ s.pos → i = .tick ∧ s.mode = .play ∨ i = .bbs ∧ s.mode = .edit ∨ i = .bbl ∧ s.mode = .play)

/-! The divider bank. -/

/-- R93: the divider half of `TICK`, with its frame. -/
def Obligations.DividerTickCountsFiresAndReloads : Prop :=
  decode 0x01000000#32 = .ok .tick ∧
  ∀ s : State, s.cfg.behavior = .div → s.iq = [] → ∃ (t : State) (m : BitVec 4), exec .tick s = .next t ∧
    (∀ i : Fin 4, m.getLsbD i.val = decide (s.cnt.get i = 1)) ∧
    (∀ i : Fin 4, t.cnt.get i = if s.cnt.get i = 1 then s.div.get i else s.cnt.get i - 1) ∧
    t.out = s.out ++ (if m = 0 then [] else [.dlev m, .dlev 0]) ∧ (t.dout = if m = 0 then s.dout else 0) ∧
    t.div = s.div ∧ t.sel = s.sel ∧ t.prevChoice = s.prevChoice ∧ t.aout = s.aout ∧ SameSequencer s t ∧ t.iq = [] ∧
    SameFlags s t ∧ SameEnvironment s t

/-- R99, R100: from any state inside the invariant, while no division is edited, output `i` fires on the ticks numbered
`cnt[i]`, `cnt[i] + div[i]`, `cnt[i] + 2 * div[i]`, …, counted from 1. -/
def Obligations.OutputsFireEveryDivisionTicks : Prop :=
  ∀ s : State, Inv s → s.cfg.behavior = .div → ∀ n : Nat, ∃ t, runCommands (List.replicate n .tick) s = .next t ∧
    ∀ i : Fin 4, FiresOnTick t i ↔
      (s.cnt.get i).toNat ≤ n + 1 ∧ (s.div.get i).toNat ∣ n + 1 - (s.cnt.get i).toNat

/-- R99: in any window of `n * div[i]` ticks with no division edited, output `i` fires exactly `n` times. -/
def Obligations.OutputFiresOncePerDivisionInEveryWindow : Prop :=
  ∀ (s : State) (i : Fin 4) (n : Nat), Inv s → s.cfg.behavior = .div →
    (s.cnt.get i).toNat ≤ (s.div.get i).toNat →
    {j : Nat | j < n * (s.div.get i).toNat ∧
      ∃ t, runCommands (List.replicate j .tick) s = .next t ∧ FiresOnTick t i}.ncard = n

/-- R97, R100: after a division edit the output next fires when its old count runs out, or `c` ticks later under
`RESET_COUNTER_ON_CHANGE`, and from then on every `c` ticks. -/
def Obligations.DivisionEditTakesEffectAtTheNextFiring : Prop :=
  ∀ (s : State) (i : Fin 4) (c : Byte), Inv s → s.cfg.behavior = .div → s.sel = some i → 1 ≤ c.toNat →
    c.toNat ≤ 127 → c ≠ s.prevChoice → ∃ t, exec (.dadj c) s = .next t ∧
      ∀ n : Nat, ∃ u, runCommands (List.replicate n .tick) t = .next u ∧
        (FiresOnTick u i ↔
          (if s.cfg.resetCounterOnChange then c.toNat else (s.cnt.get i).toNat) ≤ n + 1 ∧
            c.toNat ∣ n + 1 - (if s.cfg.resetCounterOnChange then c.toNat else (s.cnt.get i).toNat))

/-- R96, R97, R98: `DADJ` in behaviour `DIV`: the write, its record, its frame; or the sample alone; in `SEQ` nothing; with an
illegal operand the flag. -/
def Obligations.DadjWritesTheSelectedDivision : Prop :=
  (∀ c : Byte, decode (0x02000000#32 ||| c.setWidth 32) = .ok (.dadj c)) ∧
  (∀ (s : State) (c : Byte), c.toNat = 0 ∨ 128 ≤ c.toNat → exec (.dadj c) s = .next { s with stBadop := true }) ∧
  (∀ (s : State) (c : Byte), s.cfg.behavior = .seq → 1 ≤ c.toNat → c.toNat ≤ 127 → exec (.dadj c) s = .next s) ∧
  ∀ (s : State) (c : Byte), s.cfg.behavior = .div → 1 ≤ c.toNat → c.toNat ≤ 127 →
    (∀ i : Fin 4, s.sel = some i → c ≠ s.prevChoice → ∃ t, exec (.dadj c) s = .next t ∧ t.prevChoice = c ∧
      t.div.get i = c ∧ (∀ j, j ≠ i → t.div.get j = s.div.get j) ∧
      (t.cnt.get i = if s.cfg.resetCounterOnChange then c else s.cnt.get i) ∧
      (∀ j, j ≠ i → t.cnt.get j = s.cnt.get j) ∧ t.sel = s.sel ∧
      t.out = s.out ++ (if s.cfg.notifyEn then
        [.link ⟨BitVec.ofNat 8 i.val, t.div.get 0, t.div.get 1, t.div.get 2, t.div.get 3⟩] else []) ∧
      t.aout = s.aout ∧ t.dout = s.dout ∧ SameSequencer s t ∧ t.iq = s.iq ∧ SameFlags s t ∧ SameEnvironment s t) ∧
    (s.sel = none ∨ c = s.prevChoice → exec (.dadj c) s = .next { s with prevChoice := c })

/-- R95, R98, R135: `DSEL` is queued, or dropped with `st_iqovf` where the queue is full; at the end of the next `TICK` it moves
the selection through 0, 1, 2, 3, `None` and notifies; that `TICK`'s own step is as without it. -/
def Obligations.DselMovesTheSelectionAtTheNextTick : Prop :=
  decode 0x10000000#32 = .ok .dsel ∧
  (∀ s : State, s.cfg.behavior = .div → s.iq.length < s.cfg.iqDepth →
    exec .dsel s = .next { s with iq := s.iq ++ [.dsel] }) ∧
  (∀ s : State, s.cfg.behavior = .div → s.iq.length = s.cfg.iqDepth → exec .dsel s = .next { s with stIqovf := true }) ∧
  ∀ (s : State) (sel : Option (Fin 4)), s.cfg.behavior = .div → s.iq = [] → 1 ≤ s.cfg.iqDepth →
    (s.sel, sel) ∈ [(none, some 0), (some 0, some 1), (some 1, some 2), (some 2, some 3), (some 3, none)] →
    ∃ t u v, exec .dsel s = .next t ∧ exec .tick t = .next u ∧ exec .tick s = .next v ∧
      u = { v with
        sel := sel
        out := v.out ++ (if s.cfg.notifyEn then
          [.link ⟨(match sel with | none => 0xFF | some i => BitVec.ofNat 8 i.val), s.div.l0, s.div.l1, s.div.l2, s.div.l3⟩]
          else []) }

/-- R95 corner case: five applications return the selection to where it was, each notifies, and the registers of the bank
are untouched. -/
def Obligations.FiveSelectionsReturnTheSelection : Prop :=
  ∀ s : State, s.iq = List.replicate 5 .dsel → ∃ t, drain s = .next t ∧ t.sel = s.sel ∧ t.div = s.div ∧ t.cnt = s.cnt ∧
    t.prevChoice = s.prevChoice ∧ SameSequencer s t ∧ SameFlags s t ∧
    (s.cfg.notifyEn = true → ∃ es : List LinkRecord, es.length = 5 ∧ t.out = s.out ++ es.map .link ∧
      (∀ r ∈ es, (r.d1, r.d2, r.d3, r.d4) = (s.div.l0, s.div.l1, s.div.l2, s.div.l3)) ∧
      (es.map LinkRecord.selected).Perm [0x00, 0x01, 0x02, 0x03, 0xFF]) ∧
    (s.cfg.notifyEn = false → t.out = s.out)

/-! The sequencer. -/

/-- R111, R112, R113: the sequencer half of `TICK`, with its frame; in Edit and in paused Play `TICK` does nothing. -/
def Obligations.PlayTickPlaysThenAdvances : Prop :=
  decode 0x01000000#32 = .ok .tick ∧
  (∀ s : State, s.cfg.behavior = .seq → s.mode = .edit ∨ s.running = false → exec .tick s = .next s) ∧
  ∀ s : State, s.cfg.Valid → s.cfg.behavior = .seq → s.mode = .play → s.running = true → s.iq = [] →
    s.pos.toNat < s.cfg.seqLen → ∃ t, exec .tick s = .next t ∧
      t.out = s.out ++ s.playEvents ++ s.advanceEvents ∧ PlayedOutputs s t ∧ t.dout = 0 ∧
      t.pos.toNat = s.advancePos ∧ t.activeRow = s.activeRow ∧ t.mode = .play ∧ t.running = true ∧ SameGrid s t ∧
      SameLast s t ∧ SameBank s t ∧ t.iq = [] ∧ SameFlags s t ∧ SameEnvironment s t

/-- R107: `BAS` in Edit without write-on-preview plays the current step of every row and moves nothing. -/
def Obligations.BasInEditPreviewsWithoutMoving : Prop :=
  ∀ s : State, s.cfg.Valid → s.cfg.behavior = .seq → s.mode = .edit → s.cfg.writeOnPreview = false →
    s.pos.toNat < s.cfg.seqLen → ∃ t, exec .bas s = .next t ∧ t.out = s.out ++ s.playEvents ∧ PlayedOutputs s t ∧
      t.dout = 0 ∧ SameGrid s t ∧ SameControl s t ∧ SameLast s t ∧ SameBank s t ∧ t.iq = s.iq ∧ SameFlags s t ∧
      SameEnvironment s t

/-- R107 (c), (d), (e), R135, R172: `BAS` in Play resumes at once when paused; while running it is queued and pauses after the
next tick's step. -/
def Obligations.BasInPlayPausesAndResumes : Prop :=
  (∀ s : State, s.cfg.behavior = .seq → s.mode = .play → s.running = false →
    exec .bas s = .next { s with running := true }) ∧
  ∀ s : State, Inv s → s.cfg.behavior = .seq → s.mode = .play → s.running = true → s.iq = [] →
    ∃ t u v, exec .bas s = .next t ∧ exec .tick t = .next u ∧ exec .tick s = .next v ∧ u = { v with running := false }

/-- R107, R118: under `WRITE_ON_PREVIEW` the addressed cell takes each control's latest mapped value, where it has one, and is
then played. -/
def Obligations.BasWritesOnPreviewWhereConfigured : Prop :=
  ∀ s : State, Inv s → s.cfg.behavior = .seq → s.mode = .edit → s.cfg.writeOnPreview = true →
    ∃ t, exec .bas s = .next t ∧
      (t.cellAt s.editAddress).pitch = s.lastPitch.getD (s.cellAt s.editAddress).pitch ∧
      (t.cellAt s.editAddress).vel = s.lastVel.getD (s.cellAt s.editAddress).vel ∧
      SameGridExcept s.editAddress s t ∧ t.out = s.out ++ t.playEvents ∧
      (∀ r, r < s.cfg.rows → t.aout.get (Fin.ofNat 4 (2 * r)) = (t.rowCell r).pitch ∧
        t.aout.get (Fin.ofNat 4 (2 * r + 1)) = (t.rowCell r).vel) ∧
      (∀ j : Fin 4, 2 * s.cfg.rows ≤ j.val → t.aout.get j = s.aout.get j) ∧ t.dout = 0 ∧
      SameControl s t ∧ SameLast s t ∧ SameBank s t ∧ t.iq = s.iq ∧ SameFlags s t ∧ SameEnvironment s t

/-- R108: `BAL` in Edit moves to the next row, cyclically, and changes nothing else; in paused Play it does nothing. -/
def Obligations.BalCyclesTheActiveRow : Prop :=
  (∀ s : State, s.cfg.Valid → s.cfg.behavior = .seq → s.mode = .edit → ∃ row : Byte,
    row.toNat = (s.activeRow.toNat + 1) % s.cfg.rows ∧ exec .bal s = .next { s with activeRow := row }) ∧
  (∀ s : State, s.mode = .play → applyIntent .bal s = .next s) ∧ decode 0x12000000#32 = .ok .bal

/-- R109, R111: `BBS` in Edit advances the step pointer, with the pattern-restart pulse on the wrap alone; in Play it does
nothing. -/
def Obligations.BbsAdvancesTheStepPointer : Prop :=
  (∀ s : State, s.cfg.Valid → s.cfg.behavior = .seq → s.mode = .edit → s.pos.toNat < s.cfg.seqLen → ∃ p : Byte,
    p.toNat = s.advancePos ∧ exec .bbs s = .next { s with
      pos := p
      dout := if s.atLastStep then 0 else s.dout
      out := s.out ++ s.advanceEvents }) ∧
  (∀ s : State, s.mode = .play → applyIntent .bbs s = .next s) ∧ decode 0x13000000#32 = .ok .bbs

/-- R109's example for every length and every start: `SEQ_LEN` next-steps return to the same position with exactly one
pattern-restart pulse, and change nothing else. -/
def Obligations.NextStepsRoundTheRowRestartOnce : Prop :=
  ∀ s : State, Inv s → s.cfg.behavior = .seq → s.mode = .edit →
    runCommands (List.replicate s.cfg.seqLen .bbs) s =
      .next { s with out := s.out ++ [.dlev 0b0010#4, .dlev 0b0000#4] }

/-- R110: `BBL` toggles the mode; into Play it starts running and keeps `pos`, into Edit it stops and goes to position 0; while
running it takes effect after the next tick's step. -/
def Obligations.BblTogglesTheMode : Prop :=
  (∀ s : State, s.cfg.behavior = .seq → s.mode = .edit →
    exec .bbl s = .next { s with mode := .play, running := true }) ∧
  (∀ s : State, s.cfg.behavior = .seq → s.mode = .play → s.running = false →
    exec .bbl s = .next { s with mode := .edit, running := false, pos := 0 }) ∧
  (∀ s : State, Inv s → s.cfg.behavior = .seq → s.mode = .play → s.running = true → s.iq = [] →
    ∃ t u v, exec .bbl s = .next t ∧ exec .tick t = .next u ∧ exec .tick s = .next v ∧
      u = { v with mode := .edit, running := false, pos := 0 }) ∧
  decode 0x14000000#32 = .ok .bbl

/-- R135, R138: while gated an applicable class-A command is queued, or dropped with `st_iqovf` where the queue is full. -/
def Obligations.GatedIntentsAreQueuedOrDropped : Prop :=
  ∀ (s : State) (p : Instr × Intent), s.gated = true →
    (s.cfg.behavior = .div ∧ p = (.dsel, .dsel) ∨
      s.cfg.behavior = .seq ∧ p ∈ [(Instr.bas, Intent.bas), (.bal, .bal), (.bbs, .bbs), (.bbl, .bbl)]) →
    (s.iq.length ≠ s.cfg.iqDepth → exec p.1 s = .next { s with iq := s.iq ++ [p.2] }) ∧
    (s.iq.length = s.cfg.iqDepth → exec p.1 s = .next { s with stIqovf := true })

/-- R136: the drain takes the oldest intent from the queue, applies it to the state its predecessors left, and goes on with the
queue as it then is, until it is empty; it is the last action of every consumed `TICK`. -/
def Obligations.DrainAppliesTheOldestIntentFirst : Prop :=
  (∀ s : State, s.cfg.behavior = .div → exec .tick s = drain (divOnTick s)) ∧
  (∀ s : State, s.cfg.behavior = .seq → s.mode = .play → s.running = true →
    exec .tick s = andThen (seqPlayTick s) drain) ∧
  (∀ s : State, s.iq = [] → drain s = .next s) ∧
  ∀ (s : State) (c : Intent) (rest : List Intent), s.iq = c :: rest →
    drain s = andThen (applyIntent c { s with iq := rest }) drain

/-- R136's two examples, from every running state: `[BAS, BAS]` pauses and resumes in one drain; `[BBL, BBS]` enters Edit and
then steps to position 1. -/
def Obligations.DrainedIntentsSeeTheirPredecessors : Prop :=
  ∀ s : State, Inv s → s.cfg.behavior = .seq → s.mode = .play → s.running = true →
    (s.iq = [.bas, .bas] → ∃ t v, exec .tick s = .next t ∧ exec .tick { s with iq := [] } = .next v ∧ t = v) ∧
    (s.iq = [.bbl, .bbs] → 2 ≤ s.cfg.seqLen → ∃ t v, exec .tick s = .next t ∧
      exec .tick { s with iq := [] } = .next v ∧ t = { v with mode := .edit, running := false, pos := 1 })

/-- R114, R116: `EPIT` in Edit writes the quantized pitch where it differs from the last one written, and nothing else;
elsewhere it does nothing. -/
def Obligations.EpitWritesAChangedPitch : Prop :=
  (∀ k : Code, decode (0x03000000#32 ||| k.setWidth 32) = .ok (.epit k)) ∧
  (∀ (s : State) (k : Code), s.cfg.behavior ≠ .seq ∨ s.mode ≠ .edit → exec (.epit k) s = .next s) ∧
  ∀ (s : State) (k m : Code) (d : TableDesc), GridInv s → SequencerInv s → s.cfg.behavior = .seq → s.mode = .edit →
    s.cfg.tdesc[s.cfg.chromaT]? = some d →
    s.cfg.tmem[d.base.toNat + quantizeIndex s.cfg.eps k d.len.toNat]? = some m →
    (s.lastPitch = some m → exec (.epit k) s = .next s) ∧
    (s.lastPitch ≠ some m → ∃ t, exec (.epit k) s = .next t ∧
      t.cellAt s.editAddress = ⟨m, (s.cellAt s.editAddress).vel⟩ ∧ SameGridExcept s.editAddress s t ∧
      t.lastPitch = some m ∧ t.lastVel = s.lastVel ∧ SameControl s t ∧ SameOutputs s t ∧ SameBank s t ∧ t.iq = s.iq ∧
      SameFlags s t ∧ SameEnvironment s t)

/-- R115, R117: `EVEL` in Edit writes the kept bits of the velocity code where they differ from the last ones written, and
nothing else; elsewhere it does nothing. -/
def Obligations.EvelWritesAChangedVelocity : Prop :=
  (∀ k : Code, decode (0x04000000#32 ||| k.setWidth 32) = .ok (.evel k)) ∧
  (∀ (s : State) (k : Code), s.cfg.behavior ≠ .seq ∨ s.mode ≠ .edit → exec (.evel k) s = .next s) ∧
  ∀ (s : State) (k m : Code), GridInv s → SequencerInv s → s.cfg.Valid → s.cfg.behavior = .seq → s.mode = .edit →
    m.toNat = k.toNat / 2 ^ (16 - s.cfg.velKeepBits) * 2 ^ (16 - s.cfg.velKeepBits) →
    (s.lastVel = some m → exec (.evel k) s = .next s) ∧
    (s.lastVel ≠ some m → ∃ t, exec (.evel k) s = .next t ∧
      t.cellAt s.editAddress = ⟨(s.cellAt s.editAddress).pitch, m⟩ ∧ SameGridExcept s.editAddress s t ∧
      t.lastVel = some m ∧ t.lastPitch = s.lastPitch ∧ SameControl s t ∧ SameOutputs s t ∧ SameBank s t ∧ t.iq = s.iq ∧
      SameFlags s t ∧ SameEnvironment s t)

/-- R117: the velocity mapping keeps the top bits where they are; with 7 bits no code maps to 65535. -/
def Obligations.VelocityMappingKeepsTheTopBits : Prop :=
  (∀ (c : Config) (k : Code), 1 ≤ c.velKeepBits → c.velKeepBits ≤ 16 →
    (vmap c k).toNat = k.toNat / 2 ^ (16 - c.velKeepBits) * 2 ^ (16 - c.velKeepBits)) ∧
  ∀ c : Config, c.velKeepBits = 7 →
    (∀ k, vmap c k = k &&& 0xFE00#16) ∧ vmap c 65535#16 = 65024#16 ∧ vmap c 511#16 = 0#16 ∧ vmap c 512#16 = 512#16 ∧
      ∀ k, vmap c k ≠ 65535#16

/-! The quantizer. -/

/-- R127, R128: the index is the exact floor formula on the reading `k / 65535`, also in its integer form for
`EPS = 1/10000`, and the note is the table's word there. -/
def Obligations.QuantizerIsTheExactFloorFormula : Prop :=
  (∀ (eps : Rat) (k : Code) (n : Nat), 0 < eps → eps < 1 → 1 ≤ n →
    (quantizeIndex eps k n : Int) = qidx eps ((k.toNat : Rat) / 65535) n) ∧
  (∀ (k : Code) (n : Nat), 1 ≤ n → (quantizeIndex (1 / 10000) k n : Int) =
    clamp (((10000 * (k.toNat : Int) - 65535) * n) / 655350000) 0 (n - 1)) ∧
  ∀ (c : Config) (k : Code) (t : Nat) (d : TableDesc), c.tdesc[t]? = some d →
    quantize c k t = c.tmem[d.base.toNat + quantizeIndex c.eps k d.len.toNat]?

/-- R133: the bounds of the index, for `EPS = 1/10000`. -/
def Obligations.QuantizerIndexBounds : Prop :=
  (∀ (k : Code) (n : Nat), 1 ≤ n → quantizeIndex (1 / 10000) k n ≤ n - 1) ∧
  (∀ (k : Code) (n : Nat), 1 ≤ n → ((10000 * (k.toNat : Int) - 65535) * n) / 655350000 < n) ∧
  (∀ (k : Code) (n : Nat), 1 ≤ n → (((10000 * (k.toNat : Int) - 65535) * n) / 655350000 < 0 ↔ k.toNat ≤ 6)) ∧
  (∀ (k l : Code) (n : Nat), 1 ≤ n → k.toNat ≤ l.toNat →
    quantizeIndex (1 / 10000) k n ≤ quantizeIndex (1 / 10000) l n) ∧
  (∀ n : Nat, 1 ≤ n → n ≤ 10000 → quantizeIndex (1 / 10000) 65535#16 n = n - 1) ∧
  ∀ n : Nat, 10000 < n → ∀ k : Code, quantizeIndex (1 / 10000) k n ≠ n - 1

/-- R131: the document's examples; the two readings of "normalized position" under which the quantizer is idempotent, and the
one under which it is not. -/
def Obligations.QuantizerIdempotenceReadings : Prop :=
  (qidx (1 / 10000) 0 3 = 0 ∧ qidx (1 / 10000) (33 / 100) 3 = 0 ∧ qidx (1 / 10000) (34 / 100) 3 = 1 ∧
    qidx (1 / 10000) (99999 / 100000) 3 = 2) ∧
  (∀ n i : Nat, 2 ≤ n → n * (n - 1) ≤ 10000 → i < n → qidx (1 / 10000) ((i : Rat) / ((n : Rat) - 1)) n = i) ∧
  (∀ n i : Nat, 1 ≤ n → n ≤ 5000 → i < n → qidx (1 / 10000) (((i : Rat) + 1 / 2) / n) n = i) ∧
  ∀ n i : Nat, n ≤ 10000 → 1 ≤ i → i < n → qidx (1 / 10000) ((i : Rat) / n) n = (i : Int) - 1

/-- R129, R130, R133: in every state of a validly configured CORE, `QNT` with a legal table emits that table's note and changes
nothing else; with an illegal one it sets the flag. -/
def Obligations.QntEmitsTheNoteAndChangesNothingElse : Prop :=
  (∀ (t : Byte) (k : Code),
    decode (0x05000000#32 ||| t.setWidth 32 <<< 16 ||| k.setWidth 32) = .ok (.qnt t k)) ∧
  (∀ (s : State) (t : Byte) (k : Code), s.cfg.nt ≤ t.toNat → exec (.qnt t k) s = .next { s with stBadop := true }) ∧
  ∀ (s : State) (t : Byte) (k : Code), s.cfg.Valid → t.toNat < s.cfg.nt → ∃ (d : TableDesc) (n : Code),
    s.cfg.tdesc[t.toNat]? = some d ∧ quantizeIndex s.cfg.eps k d.len.toNat < d.len.toNat ∧
    s.cfg.tmem[d.base.toNat + quantizeIndex s.cfg.eps k d.len.toNat]? = some n ∧
    exec (.qnt t k) s = .next { s with out := s.out ++ [.note n] }

/-! The link and the adjacent units. -/

/-- R70, R162, R173: a record sent from a state inside the invariant is read back whole; a malformed read leaves the display's older
copy; `None` is sent as 0xFF. What a receiver calls malformed, here a read that is not five bytes, is the model's choice (log entry
13, DESIGN CHOICE). -/
def Obligations.LinkRecordIsReadBackOrIgnored : Prop :=
  (∀ (s : State) (shown : Option LinkRecord), Inv s →
    displayAfter shown (LinkRecord.bytes s.linkRecord) = some s.linkRecord) ∧
  (∀ (shown : Option LinkRecord) (bs : List Byte), bs.length ≠ 5 → displayAfter shown bs = shown) ∧
  ∀ s : State, LinkRecord.bytes s.linkRecord =
    [match s.sel with | none => 0xFF#8 | some i => BitVec.ofNat 8 i.val, s.div.get 0, s.div.get 1, s.div.get 2, s.div.get 3]

/-- R83, R90: after any internal samples the window holds the most recent `K`, the copies of the first reading counted, and the
tempo is their mean: for any samples pushed, and for the samples of the readings of any ticks from startup. -/
def Obligations.TempoIsTheMeanOfTheLatestSamples : Prop :=
  (∀ (c : TempoConfig) (m : ClockMode) (first : Rat) (level : Bool) (xs : List Rat), 1 ≤ c.capacity →
    (xs.foldl (fun cs x => pushSample x cs) (clockFilled c m first level)).window =
      (List.replicate c.capacity first ++ xs).drop xs.length ∧
    (xs.foldl (fun cs x => pushSample x cs) (clockFilled c m first level)).tempoBpm =
      ((List.replicate c.capacity first ++ xs).drop xs.length).sum / c.capacity) ∧
  ∀ (c : TempoConfig) (m : ClockMode) (first : Rat) (level : Bool) (rs : List Rat), 1 ≤ c.capacity →
    (∀ r ∈ first :: rs, 0 ≤ r ∧ r ≤ 1) → ∃ s t : ClockState, clockStart c m first level = some s ∧
      rs.foldlM (fun cs r => (tickInternal c r cs).map Prod.fst) s = some t ∧
      t.window = (List.replicate c.capacity (readInternalTempo c first) ++ rs.map (readInternalTempo c)).drop rs.length ∧
      t.tempoBpm = t.window.sum / c.capacity

/-- R88, with R83 to R85 and R87: a built CORE's tempo bounds are positive and ordered; from startup on and over every tick and
source switch the window is full of tempos within the bounds, so the tempo is within them, is never zero, and the interval
`60 / tempo_bpm / 4` is within the bounds' own intervals; a reading outside `[0, 1]` is refused. That after a switch the window is full and
within the bounds is deduced (log entry 17). -/
def Obligations.TempoStaysWithinItsBounds : Prop :=
  (∀ (r : ConfigRecord) (s : State), construct r = .ok s → s.cfg.tempo.Valid) ∧
  ∀ c : TempoConfig, c.Valid →
    (∀ (m : ClockMode) (r : Rat) (level : Bool), 0 ≤ r → r ≤ 1 → ∃ s, clockStart c m r level = some s ∧ s.Inv c) ∧
    (∀ s : ClockState, s.Inv c → c.minBpm ≤ s.tempoBpm ∧ s.tempoBpm ≤ c.maxBpm ∧ s.tempoBpm ≠ 0 ∧
      (toggleSource c s).Inv c ∧
      (∀ (active : Bool) (r : Rat) (levels : List Bool) (t : ClockState),
        clockWait c active r levels s = some t → t.Inv c) ∧
      ∀ r : Rat, 0 ≤ r → r ≤ 1 → ∃ (t : ClockState) (interval : Rat), tickInternal c r s = some (t, interval) ∧ t.Inv c ∧
        interval = 60 / t.tempoBpm / 4 ∧ 60 / c.maxBpm / 4 ≤ interval ∧ interval ≤ 60 / c.minBpm / 4) ∧
    ∀ r : Rat, r < 0 ∨ 1 < r → (∀ m level, clockStart c m r level = none) ∧ ∀ s, tickInternal c r s = none

/-- R86, R163: a pulse (inactive, active, inactive) is one tick, taken at its end; a source that never pulses blocks. -/
def Obligations.ExternalTickIsOneWholePulse : Prop :=
  (∀ (active : Bool) (cs : ClockState) (a b : Nat) (rest : List Bool), cs.lastLevel = !active → cs.risen = false →
    ∃ t, tickExternal active (List.replicate a (!active) ++ List.replicate (b + 1) active ++ (!active) :: rest) cs =
      some (t, rest) ∧ t.lastLevel = !active ∧ t.risen = false) ∧
  ∀ (active : Bool) (cs : ClockState) (a b : Nat), cs.lastLevel = !active → cs.risen = false →
    tickExternal active (List.replicate a (!active) ++ List.replicate b active) cs = none

/-- R123, R125: over two passes the bidirectional reading walks the collection forward and then back. -/
def Obligations.ArpeggiatorWalksForwardThenBack : Prop :=
  ∀ (a : ArpState) (draws : List Nat), a.step = 0 → a.biForward = true → a.notes ≠ [] →
    a.effectiveLength = a.notes.length → draws.length = 2 * a.notes.length → (∀ d ∈ draws, d < a.notes.length) →
    arpBidirectional draws a = some (a.notes ++ a.notes.reverse)

/-- R123: each tick answers for a draw in range, with the four readings, all four written to four different outputs, and `step`
advanced. That some fixed assignment of readings to outputs exists is R123's "four independent outputs"; which one, the effective
length and the `len` of the descending reading are free values (log entry 18). -/
def Obligations.ArpeggiatorTickWritesFourOutputs : Prop :=
  ∃ jUp jDown jBoth jDraw : Fin 4, [jUp, jDown, jBoth, jDraw].Nodup ∧
    ∀ (a : ArpState) (draw : Nat) (r : Code), a.step < a.effectiveLength → a.notes[draw]? = some r →
      ∃ (up down : Code) (x : ArpReadings) (t : ArpState), arpTick draw a = some (x, t) ∧ a.notes[a.step]? = some up ∧
        (∃ len ∈ [a.notes.length, a.effectiveLength], a.notes[len - 1 - a.step]? = some down) ∧
        t.outputs.get jUp = up ∧ t.outputs.get jDown = down ∧ t.outputs.get jBoth = (if a.biForward then up else down) ∧
        t.outputs.get jDraw = r ∧ x = ⟨up, down, if a.biForward then up else down, r⟩ ∧
        t.step = (if a.step + 1 = a.effectiveLength then 0 else a.step + 1) ∧
        (t.biForward = if a.step + 1 = a.effectiveLength then !a.biForward else a.biForward) ∧
        t.rotation = a.rotation ∧ t.range = a.range
end

