-- ==== Sys2Proof/Laws/Arpeggiator.lean ====
section
/-!
SUPPORT. The Arpeggiator: what writing the outputs and advancing `step` leave, and what a note index reads.
-/
namespace Sys2Proof.Machine

/-! Writing the outputs leaves every other field. -/

@[simp] theorem arpWrite_rotation (x : ArpReadings) (a : ArpState) : (a.write x).rotation = a.rotation := rfl
@[simp] theorem arpWrite_notes (x : ArpReadings) (a : ArpState) : (a.write x).notes = a.notes := rfl
@[simp] theorem arpWrite_step (x : ArpReadings) (a : ArpState) : (a.write x).step = a.step := rfl
@[simp] theorem arpWrite_biForward (x : ArpReadings) (a : ArpState) : (a.write x).biForward = a.biForward := rfl
@[simp] theorem arpWrite_range (x : ArpReadings) (a : ArpState) : (a.write x).range = a.range := rfl
@[simp] theorem arpWrite_restarts (x : ArpReadings) (a : ArpState) : (a.write x).restarts = a.restarts := rfl
@[simp] theorem arpWrite_effectiveLength (x : ArpReadings) (a : ArpState) :
    (a.write x).effectiveLength = a.effectiveLength := rfl

/-- Output `j` holds the reading assigned to it. -/
@[simp] theorem arpWrite_output (x : ArpReadings) (a : ArpState) (j : Fin 4) :
    (a.write x).outputs.get j = x.get (Config.arpReadingOf j) := by
  match j with
  | 0 => rfl
  | 1 => rfl
  | 2 => rfl
  | 3 => rfl

/-! Advancing leaves the outputs, the rotation and the range. -/

@[simp] theorem arpAdvance_outputs (a : ArpState) : a.advance.outputs = a.outputs := by
  unfold ArpState.advance; split <;> rfl
@[simp] theorem arpAdvance_rotation (a : ArpState) : a.advance.rotation = a.rotation := by
  unfold ArpState.advance; split <;> rfl
@[simp] theorem arpAdvance_range (a : ArpState) : a.advance.range = a.range := by
  unfold ArpState.advance; split <;> rfl

/-! A restart. -/

@[simp] theorem arpRestart_step (a : ArpState) : a.restart.step = 0 := rfl
@[simp] theorem arpRestart_rotation (a : ArpState) : a.restart.rotation = a.rotation := rfl
@[simp] theorem arpRestart_range (a : ArpState) : a.restart.range = a.range := rfl
@[simp] theorem arpRestart_outputs (a : ArpState) : a.restart.outputs = a.outputs := rfl

/-- An index inside the collection reads its note. -/
theorem noteAt_eq_getElem (notes : List Code) (i : Nat) (h : i < notes.length) : noteAt notes i = notes[i] := by
  unfold noteAt
  rw [if_neg (by omega)]
  simp [h]

end Sys2Proof.Machine
end

