-- ==== Sys2Proof/Laws/ClockSource.lean ====
section
/-!
SUPPORT. The Clock Source: its updates field by field, the bounds of a tempo sample, the length of a window.
-/
namespace Sys2Proof.Machine

/-! Fields after an update. -/

@[simp] theorem pushSample_window (x : Rat) (cs : ClockState) : (pushSample x cs).window = cs.window.tail ++ [x] := rfl
@[simp] theorem pushSample_tempoBpm (x : Rat) (cs : ClockState) :
    (pushSample x cs).tempoBpm = windowMean (pushSample x cs).window := rfl
@[simp] theorem pushSample_source (x : Rat) (cs : ClockState) : (pushSample x cs).source = cs.source := rfl
@[simp] theorem clockFilled_window (c : TempoConfig) (m : ClockMode) (x : Rat) (level : Bool) :
    (clockFilled c m x level).window = List.replicate c.capacity x := rfl
@[simp] theorem toggleSource_window (c : TempoConfig) (cs : ClockState) :
    (toggleSource c cs).window = windowAfterSwitch c (cs.switches + 1) cs.window := rfl
@[simp] theorem toggleSource_tempoBpm (c : TempoConfig) (cs : ClockState) :
    (toggleSource c cs).tempoBpm = windowMean (toggleSource c cs).window := rfl
@[simp] theorem toggleSource_lastLevel (c : TempoConfig) (cs : ClockState) : (toggleSource c cs).lastLevel = cs.lastLevel := rfl
@[simp] theorem toggleSource_risen (c : TempoConfig) (cs : ClockState) : (toggleSource c cs).risen = cs.risen := rfl
@[simp] theorem pushSample_lastLevel (x : Rat) (cs : ClockState) : (pushSample x cs).lastLevel = cs.lastLevel := rfl
@[simp] theorem pushSample_risen (x : Rat) (cs : ClockState) : (pushSample x cs).risen = cs.risen := rfl
@[simp] theorem windowAfterSwitch_length (c : TempoConfig) (k : Nat) (w : List Rat) :
    (windowAfterSwitch c k w).length = c.capacity := by
  simp [windowAfterSwitch]

/-! Looking at the external input moves neither the window nor the tempo. -/

@[simp] theorem observeLevel_window (active level : Bool) (cs : ClockState) :
    (observeLevel active level cs).1.window = cs.window := by
  unfold observeLevel; split <;> rfl
@[simp] theorem observeLevel_tempoBpm (active level : Bool) (cs : ClockState) :
    (observeLevel active level cs).1.tempoBpm = cs.tempoBpm := by
  unfold observeLevel; split <;> rfl

/-- A sample exists exactly for a reading within `[0, 1]`, and is the linear map's value. -/
theorem tempoSample_eq_some (c : TempoConfig) (r x : Rat) :
    tempoSample c r = some x ↔ (0 ≤ r ∧ r ≤ 1) ∧ readInternalTempo c r = x := by
  unfold tempoSample; split <;> simp_all

/-- A sample is within the tempo bounds. -/
theorem tempoSample_bounds (c : TempoConfig) (r x : Rat) (hc : c.minBpm ≤ c.maxBpm) (h : tempoSample c r = some x) :
    c.minBpm ≤ x ∧ x ≤ c.maxBpm := by
  obtain ⟨⟨h0, h1⟩, rfl⟩ := (tempoSample_eq_some c r x).1 h
  unfold readInternalTempo
  constructor <;> nlinarith

/-- So is each sample after a switch. -/
theorem sampleAfterSwitch_bounds (c : TempoConfig) (k : Nat) (w : List Rat) (n : Nat) (hc : c.minBpm ≤ c.maxBpm) :
    c.minBpm ≤ sampleAfterSwitch c k w n ∧ sampleAfterSwitch c k w n ≤ c.maxBpm :=
  ⟨le_max_left _ _, max_le hc (min_le_left _ _)⟩

end Sys2Proof.Machine
end

