-- ==== Sys2Proof/Laws/State.lean ====
section
/-!
SUPPORT. One lemma for each field under each named update of the state, so that no later proof unfolds a record update; and
the small laws of lanes.
-/
namespace Sys2Proof.Machine

/-! `emit` (R12, R40). -/

@[simp] theorem emit_cfg (s : State) (e : Event) : (s.emit e).cfg = s.cfg := by cases e <;> rfl
@[simp] theorem emit_div (s : State) (e : Event) : (s.emit e).div = s.div := by cases e <;> rfl
@[simp] theorem emit_cnt (s : State) (e : Event) : (s.emit e).cnt = s.cnt := by cases e <;> rfl
@[simp] theorem emit_sel (s : State) (e : Event) : (s.emit e).sel = s.sel := by cases e <;> rfl
@[simp] theorem emit_prevChoice (s : State) (e : Event) : (s.emit e).prevChoice = s.prevChoice := by cases e <;> rfl
@[simp] theorem emit_steps (s : State) (e : Event) : (s.emit e).steps = s.steps := by cases e <;> rfl
@[simp] theorem emit_pos (s : State) (e : Event) : (s.emit e).pos = s.pos := by cases e <;> rfl
@[simp] theorem emit_activeRow (s : State) (e : Event) : (s.emit e).activeRow = s.activeRow := by cases e <;> rfl
@[simp] theorem emit_mode (s : State) (e : Event) : (s.emit e).mode = s.mode := by cases e <;> rfl
@[simp] theorem emit_running (s : State) (e : Event) : (s.emit e).running = s.running := by cases e <;> rfl
@[simp] theorem emit_lastPitch (s : State) (e : Event) : (s.emit e).lastPitch = s.lastPitch := by cases e <;> rfl
@[simp] theorem emit_lastVel (s : State) (e : Event) : (s.emit e).lastVel = s.lastVel := by cases e <;> rfl
@[simp] theorem emit_iq (s : State) (e : Event) : (s.emit e).iq = s.iq := by cases e <;> rfl
@[simp] theorem emit_stBadcmd (s : State) (e : Event) : (s.emit e).stBadcmd = s.stBadcmd := by cases e <;> rfl
@[simp] theorem emit_stBadop (s : State) (e : Event) : (s.emit e).stBadop = s.stBadop := by cases e <;> rfl
@[simp] theorem emit_stIqovf (s : State) (e : Event) : (s.emit e).stIqovf = s.stIqovf := by cases e <;> rfl
@[simp] theorem emit_out (s : State) (e : Event) : (s.emit e).out = s.out ++ [e] := by cases e <;> rfl
@[simp] theorem emit_port (s : State) (e : Event) : (s.emit e).port = s.port := by cases e <;> rfl
@[simp] theorem emit_analog_aout (s : State) (j : Fin 4) (v : Code) :
    (s.emit (.analog j v)).aout = s.aout.set j v := rfl
@[simp] theorem emit_analog_dout (s : State) (j : Fin 4) (v : Code) : (s.emit (.analog j v)).dout = s.dout := rfl
@[simp] theorem emit_dlev_aout (s : State) (b : BitVec 4) : (s.emit (.dlev b)).aout = s.aout := rfl
@[simp] theorem emit_dlev_dout (s : State) (b : BitVec 4) : (s.emit (.dlev b)).dout = b := rfl
@[simp] theorem emit_link_aout (s : State) (r : LinkRecord) : (s.emit (.link r)).aout = s.aout := rfl
@[simp] theorem emit_link_dout (s : State) (r : LinkRecord) : (s.emit (.link r)).dout = s.dout := rfl
@[simp] theorem emit_note_aout (s : State) (n : Code) : (s.emit (.note n)).aout = s.aout := rfl
@[simp] theorem emit_note_dout (s : State) (n : Code) : (s.emit (.note n)).dout = s.dout := rfl

/-! `pulse` (R71). -/

@[simp] theorem pulse_cfg (s : State) (m : BitVec 4) : (s.pulse m).cfg = s.cfg := rfl
@[simp] theorem pulse_div (s : State) (m : BitVec 4) : (s.pulse m).div = s.div := rfl
@[simp] theorem pulse_cnt (s : State) (m : BitVec 4) : (s.pulse m).cnt = s.cnt := rfl
@[simp] theorem pulse_sel (s : State) (m : BitVec 4) : (s.pulse m).sel = s.sel := rfl
@[simp] theorem pulse_prevChoice (s : State) (m : BitVec 4) : (s.pulse m).prevChoice = s.prevChoice := rfl
@[simp] theorem pulse_steps (s : State) (m : BitVec 4) : (s.pulse m).steps = s.steps := rfl
@[simp] theorem pulse_pos (s : State) (m : BitVec 4) : (s.pulse m).pos = s.pos := rfl
@[simp] theorem pulse_activeRow (s : State) (m : BitVec 4) : (s.pulse m).activeRow = s.activeRow := rfl
@[simp] theorem pulse_mode (s : State) (m : BitVec 4) : (s.pulse m).mode = s.mode := rfl
@[simp] theorem pulse_running (s : State) (m : BitVec 4) : (s.pulse m).running = s.running := rfl
@[simp] theorem pulse_lastPitch (s : State) (m : BitVec 4) : (s.pulse m).lastPitch = s.lastPitch := rfl
@[simp] theorem pulse_lastVel (s : State) (m : BitVec 4) : (s.pulse m).lastVel = s.lastVel := rfl
@[simp] theorem pulse_iq (s : State) (m : BitVec 4) : (s.pulse m).iq = s.iq := rfl
@[simp] theorem pulse_stBadcmd (s : State) (m : BitVec 4) : (s.pulse m).stBadcmd = s.stBadcmd := rfl
@[simp] theorem pulse_stBadop (s : State) (m : BitVec 4) : (s.pulse m).stBadop = s.stBadop := rfl
@[simp] theorem pulse_stIqovf (s : State) (m : BitVec 4) : (s.pulse m).stIqovf = s.stIqovf := rfl
@[simp] theorem pulse_aout (s : State) (m : BitVec 4) : (s.pulse m).aout = s.aout := rfl
@[simp] theorem pulse_dout (s : State) (m : BitVec 4) : (s.pulse m).dout = 0 := rfl
@[simp] theorem pulse_out (s : State) (m : BitVec 4) : (s.pulse m).out = s.out ++ [.dlev m, .dlev 0] := by simp [State.pulse]
@[simp] theorem pulse_port (s : State) (m : BitVec 4) : (s.pulse m).port = s.port := rfl
/-! The status flags (R37). -/

@[simp] theorem setBadcmd_cfg (s : State) : (s.setBadcmd).cfg = s.cfg := rfl
@[simp] theorem setBadcmd_div (s : State) : (s.setBadcmd).div = s.div := rfl
@[simp] theorem setBadcmd_cnt (s : State) : (s.setBadcmd).cnt = s.cnt := rfl
@[simp] theorem setBadcmd_sel (s : State) : (s.setBadcmd).sel = s.sel := rfl
@[simp] theorem setBadcmd_prevChoice (s : State) : (s.setBadcmd).prevChoice = s.prevChoice := rfl
@[simp] theorem setBadcmd_steps (s : State) : (s.setBadcmd).steps = s.steps := rfl
@[simp] theorem setBadcmd_pos (s : State) : (s.setBadcmd).pos = s.pos := rfl
@[simp] theorem setBadcmd_activeRow (s : State) : (s.setBadcmd).activeRow = s.activeRow := rfl
@[simp] theorem setBadcmd_mode (s : State) : (s.setBadcmd).mode = s.mode := rfl
@[simp] theorem setBadcmd_running (s : State) : (s.setBadcmd).running = s.running := rfl
@[simp] theorem setBadcmd_lastPitch (s : State) : (s.setBadcmd).lastPitch = s.lastPitch := rfl
@[simp] theorem setBadcmd_lastVel (s : State) : (s.setBadcmd).lastVel = s.lastVel := rfl
@[simp] theorem setBadcmd_iq (s : State) : (s.setBadcmd).iq = s.iq := rfl
@[simp] theorem setBadcmd_stBadcmd (s : State) : (s.setBadcmd).stBadcmd = true := rfl
@[simp] theorem setBadcmd_stBadop (s : State) : (s.setBadcmd).stBadop = s.stBadop := rfl
@[simp] theorem setBadcmd_stIqovf (s : State) : (s.setBadcmd).stIqovf = s.stIqovf := rfl
@[simp] theorem setBadcmd_aout (s : State) : (s.setBadcmd).aout = s.aout := rfl
@[simp] theorem setBadcmd_dout (s : State) : (s.setBadcmd).dout = s.dout := rfl
@[simp] theorem setBadcmd_out (s : State) : (s.setBadcmd).out = s.out := rfl
@[simp] theorem setBadcmd_port (s : State) : (s.setBadcmd).port = s.port := rfl
@[simp] theorem setBadop_cfg (s : State) : (s.setBadop).cfg = s.cfg := rfl
@[simp] theorem setBadop_div (s : State) : (s.setBadop).div = s.div := rfl
@[simp] theorem setBadop_cnt (s : State) : (s.setBadop).cnt = s.cnt := rfl
@[simp] theorem setBadop_sel (s : State) : (s.setBadop).sel = s.sel := rfl
@[simp] theorem setBadop_prevChoice (s : State) : (s.setBadop).prevChoice = s.prevChoice := rfl
@[simp] theorem setBadop_steps (s : State) : (s.setBadop).steps = s.steps := rfl
@[simp] theorem setBadop_pos (s : State) : (s.setBadop).pos = s.pos := rfl
@[simp] theorem setBadop_activeRow (s : State) : (s.setBadop).activeRow = s.activeRow := rfl
@[simp] theorem setBadop_mode (s : State) : (s.setBadop).mode = s.mode := rfl
@[simp] theorem setBadop_running (s : State) : (s.setBadop).running = s.running := rfl
@[simp] theorem setBadop_lastPitch (s : State) : (s.setBadop).lastPitch = s.lastPitch := rfl
@[simp] theorem setBadop_lastVel (s : State) : (s.setBadop).lastVel = s.lastVel := rfl
@[simp] theorem setBadop_iq (s : State) : (s.setBadop).iq = s.iq := rfl
@[simp] theorem setBadop_stBadcmd (s : State) : (s.setBadop).stBadcmd = s.stBadcmd := rfl
@[simp] theorem setBadop_stBadop (s : State) : (s.setBadop).stBadop = true := rfl
@[simp] theorem setBadop_stIqovf (s : State) : (s.setBadop).stIqovf = s.stIqovf := rfl
@[simp] theorem setBadop_aout (s : State) : (s.setBadop).aout = s.aout := rfl
@[simp] theorem setBadop_dout (s : State) : (s.setBadop).dout = s.dout := rfl
@[simp] theorem setBadop_out (s : State) : (s.setBadop).out = s.out := rfl
@[simp] theorem setBadop_port (s : State) : (s.setBadop).port = s.port := rfl
@[simp] theorem setIqovf_cfg (s : State) : (s.setIqovf).cfg = s.cfg := rfl
@[simp] theorem setIqovf_div (s : State) : (s.setIqovf).div = s.div := rfl
@[simp] theorem setIqovf_cnt (s : State) : (s.setIqovf).cnt = s.cnt := rfl
@[simp] theorem setIqovf_sel (s : State) : (s.setIqovf).sel = s.sel := rfl
@[simp] theorem setIqovf_prevChoice (s : State) : (s.setIqovf).prevChoice = s.prevChoice := rfl
@[simp] theorem setIqovf_steps (s : State) : (s.setIqovf).steps = s.steps := rfl
@[simp] theorem setIqovf_pos (s : State) : (s.setIqovf).pos = s.pos := rfl
@[simp] theorem setIqovf_activeRow (s : State) : (s.setIqovf).activeRow = s.activeRow := rfl
@[simp] theorem setIqovf_mode (s : State) : (s.setIqovf).mode = s.mode := rfl
@[simp] theorem setIqovf_running (s : State) : (s.setIqovf).running = s.running := rfl
@[simp] theorem setIqovf_lastPitch (s : State) : (s.setIqovf).lastPitch = s.lastPitch := rfl
@[simp] theorem setIqovf_lastVel (s : State) : (s.setIqovf).lastVel = s.lastVel := rfl
@[simp] theorem setIqovf_iq (s : State) : (s.setIqovf).iq = s.iq := rfl
@[simp] theorem setIqovf_stBadcmd (s : State) : (s.setIqovf).stBadcmd = s.stBadcmd := rfl
@[simp] theorem setIqovf_stBadop (s : State) : (s.setIqovf).stBadop = s.stBadop := rfl
@[simp] theorem setIqovf_stIqovf (s : State) : (s.setIqovf).stIqovf = true := rfl
@[simp] theorem setIqovf_aout (s : State) : (s.setIqovf).aout = s.aout := rfl
@[simp] theorem setIqovf_dout (s : State) : (s.setIqovf).dout = s.dout := rfl
@[simp] theorem setIqovf_out (s : State) : (s.setIqovf).out = s.out := rfl
@[simp] theorem setIqovf_port (s : State) : (s.setIqovf).port = s.port := rfl
/-! The STEP space's write (R46). -/

@[simp] theorem setCell_cfg (s : State) (a : Nat) (c : StepCell) : (s.setCell a c).cfg = s.cfg := rfl
@[simp] theorem setCell_div (s : State) (a : Nat) (c : StepCell) : (s.setCell a c).div = s.div := rfl
@[simp] theorem setCell_cnt (s : State) (a : Nat) (c : StepCell) : (s.setCell a c).cnt = s.cnt := rfl
@[simp] theorem setCell_sel (s : State) (a : Nat) (c : StepCell) : (s.setCell a c).sel = s.sel := rfl
@[simp] theorem setCell_prevChoice (s : State) (a : Nat) (c : StepCell) : (s.setCell a c).prevChoice = s.prevChoice := rfl
@[simp] theorem setCell_steps (s : State) (a : Nat) (c : StepCell) : (s.setCell a c).steps = Memory.write (resetCell s.cfg) s.steps a c := rfl
@[simp] theorem setCell_pos (s : State) (a : Nat) (c : StepCell) : (s.setCell a c).pos = s.pos := rfl
@[simp] theorem setCell_activeRow (s : State) (a : Nat) (c : StepCell) : (s.setCell a c).activeRow = s.activeRow := rfl
@[simp] theorem setCell_mode (s : State) (a : Nat) (c : StepCell) : (s.setCell a c).mode = s.mode := rfl
@[simp] theorem setCell_running (s : State) (a : Nat) (c : StepCell) : (s.setCell a c).running = s.running := rfl
@[simp] theorem setCell_lastPitch (s : State) (a : Nat) (c : StepCell) : (s.setCell a c).lastPitch = s.lastPitch := rfl
@[simp] theorem setCell_lastVel (s : State) (a : Nat) (c : StepCell) : (s.setCell a c).lastVel = s.lastVel := rfl
@[simp] theorem setCell_iq (s : State) (a : Nat) (c : StepCell) : (s.setCell a c).iq = s.iq := rfl
@[simp] theorem setCell_stBadcmd (s : State) (a : Nat) (c : StepCell) : (s.setCell a c).stBadcmd = s.stBadcmd := rfl
@[simp] theorem setCell_stBadop (s : State) (a : Nat) (c : StepCell) : (s.setCell a c).stBadop = s.stBadop := rfl
@[simp] theorem setCell_stIqovf (s : State) (a : Nat) (c : StepCell) : (s.setCell a c).stIqovf = s.stIqovf := rfl
@[simp] theorem setCell_aout (s : State) (a : Nat) (c : StepCell) : (s.setCell a c).aout = s.aout := rfl
@[simp] theorem setCell_dout (s : State) (a : Nat) (c : StepCell) : (s.setCell a c).dout = s.dout := rfl
@[simp] theorem setCell_out (s : State) (a : Nat) (c : StepCell) : (s.setCell a c).out = s.out := rfl
@[simp] theorem setCell_port (s : State) (a : Nat) (c : StepCell) : (s.setCell a c).port = s.port := rfl
/-! The environment's stream (R7). -/

@[simp] theorem present_cfg (s : State) (e : PortEvent) : (s.present e).cfg = s.cfg := rfl
@[simp] theorem present_div (s : State) (e : PortEvent) : (s.present e).div = s.div := rfl
@[simp] theorem present_cnt (s : State) (e : PortEvent) : (s.present e).cnt = s.cnt := rfl
@[simp] theorem present_sel (s : State) (e : PortEvent) : (s.present e).sel = s.sel := rfl
@[simp] theorem present_prevChoice (s : State) (e : PortEvent) : (s.present e).prevChoice = s.prevChoice := rfl
@[simp] theorem present_steps (s : State) (e : PortEvent) : (s.present e).steps = s.steps := rfl
@[simp] theorem present_pos (s : State) (e : PortEvent) : (s.present e).pos = s.pos := rfl
@[simp] theorem present_activeRow (s : State) (e : PortEvent) : (s.present e).activeRow = s.activeRow := rfl
@[simp] theorem present_mode (s : State) (e : PortEvent) : (s.present e).mode = s.mode := rfl
@[simp] theorem present_running (s : State) (e : PortEvent) : (s.present e).running = s.running := rfl
@[simp] theorem present_lastPitch (s : State) (e : PortEvent) : (s.present e).lastPitch = s.lastPitch := rfl
@[simp] theorem present_lastVel (s : State) (e : PortEvent) : (s.present e).lastVel = s.lastVel := rfl
@[simp] theorem present_iq (s : State) (e : PortEvent) : (s.present e).iq = s.iq := rfl
@[simp] theorem present_stBadcmd (s : State) (e : PortEvent) : (s.present e).stBadcmd = s.stBadcmd := rfl
@[simp] theorem present_stBadop (s : State) (e : PortEvent) : (s.present e).stBadop = s.stBadop := rfl
@[simp] theorem present_stIqovf (s : State) (e : PortEvent) : (s.present e).stIqovf = s.stIqovf := rfl
@[simp] theorem present_aout (s : State) (e : PortEvent) : (s.present e).aout = s.aout := rfl
@[simp] theorem present_dout (s : State) (e : PortEvent) : (s.present e).dout = s.dout := rfl
@[simp] theorem present_out (s : State) (e : PortEvent) : (s.present e).out = s.out := rfl
@[simp] theorem present_port (s : State) (e : PortEvent) : (s.present e).port = s.port ++ [e] := rfl
@[simp] theorem presentNext_cfg (w : CmdWord) (s : State) : (presentNext w s).cfg = s.cfg := rfl
@[simp] theorem presentNext_div (w : CmdWord) (s : State) : (presentNext w s).div = s.div := rfl
@[simp] theorem presentNext_cnt (w : CmdWord) (s : State) : (presentNext w s).cnt = s.cnt := rfl
@[simp] theorem presentNext_sel (w : CmdWord) (s : State) : (presentNext w s).sel = s.sel := rfl
@[simp] theorem presentNext_prevChoice (w : CmdWord) (s : State) : (presentNext w s).prevChoice = s.prevChoice := rfl
@[simp] theorem presentNext_steps (w : CmdWord) (s : State) : (presentNext w s).steps = s.steps := rfl
@[simp] theorem presentNext_pos (w : CmdWord) (s : State) : (presentNext w s).pos = s.pos := rfl
@[simp] theorem presentNext_activeRow (w : CmdWord) (s : State) : (presentNext w s).activeRow = s.activeRow := rfl
@[simp] theorem presentNext_mode (w : CmdWord) (s : State) : (presentNext w s).mode = s.mode := rfl
@[simp] theorem presentNext_running (w : CmdWord) (s : State) : (presentNext w s).running = s.running := rfl
@[simp] theorem presentNext_lastPitch (w : CmdWord) (s : State) : (presentNext w s).lastPitch = s.lastPitch := rfl
@[simp] theorem presentNext_lastVel (w : CmdWord) (s : State) : (presentNext w s).lastVel = s.lastVel := rfl
@[simp] theorem presentNext_iq (w : CmdWord) (s : State) : (presentNext w s).iq = s.iq := rfl
@[simp] theorem presentNext_stBadcmd (w : CmdWord) (s : State) : (presentNext w s).stBadcmd = s.stBadcmd := rfl
@[simp] theorem presentNext_stBadop (w : CmdWord) (s : State) : (presentNext w s).stBadop = s.stBadop := rfl
@[simp] theorem presentNext_stIqovf (w : CmdWord) (s : State) : (presentNext w s).stIqovf = s.stIqovf := rfl
@[simp] theorem presentNext_aout (w : CmdWord) (s : State) : (presentNext w s).aout = s.aout := rfl
@[simp] theorem presentNext_dout (w : CmdWord) (s : State) : (presentNext w s).dout = s.dout := rfl
@[simp] theorem presentNext_out (w : CmdWord) (s : State) : (presentNext w s).out = s.out := rfl
@[simp] theorem presentNext_port (w : CmdWord) (s : State) : (presentNext w s).port = .cmd w :: s.port := rfl
/-! `notify` (R98). -/

@[simp] theorem notify_cfg (s : State) : (s.notify).cfg = s.cfg := by unfold State.notify; split <;> simp
@[simp] theorem notify_div (s : State) : (s.notify).div = s.div := by unfold State.notify; split <;> simp
@[simp] theorem notify_cnt (s : State) : (s.notify).cnt = s.cnt := by unfold State.notify; split <;> simp
@[simp] theorem notify_sel (s : State) : (s.notify).sel = s.sel := by unfold State.notify; split <;> simp
@[simp] theorem notify_prevChoice (s : State) : (s.notify).prevChoice = s.prevChoice := by unfold State.notify; split <;> simp
@[simp] theorem notify_steps (s : State) : (s.notify).steps = s.steps := by unfold State.notify; split <;> simp
@[simp] theorem notify_pos (s : State) : (s.notify).pos = s.pos := by unfold State.notify; split <;> simp
@[simp] theorem notify_activeRow (s : State) : (s.notify).activeRow = s.activeRow := by unfold State.notify; split <;> simp
@[simp] theorem notify_mode (s : State) : (s.notify).mode = s.mode := by unfold State.notify; split <;> simp
@[simp] theorem notify_running (s : State) : (s.notify).running = s.running := by unfold State.notify; split <;> simp
@[simp] theorem notify_lastPitch (s : State) : (s.notify).lastPitch = s.lastPitch := by unfold State.notify; split <;> simp
@[simp] theorem notify_lastVel (s : State) : (s.notify).lastVel = s.lastVel := by unfold State.notify; split <;> simp
@[simp] theorem notify_iq (s : State) : (s.notify).iq = s.iq := by unfold State.notify; split <;> simp
@[simp] theorem notify_stBadcmd (s : State) : (s.notify).stBadcmd = s.stBadcmd := by unfold State.notify; split <;> simp
@[simp] theorem notify_stBadop (s : State) : (s.notify).stBadop = s.stBadop := by unfold State.notify; split <;> simp
@[simp] theorem notify_stIqovf (s : State) : (s.notify).stIqovf = s.stIqovf := by unfold State.notify; split <;> simp
@[simp] theorem notify_aout (s : State) : (s.notify).aout = s.aout := by unfold State.notify; split <;> simp
@[simp] theorem notify_dout (s : State) : (s.notify).dout = s.dout := by unfold State.notify; split <;> simp
@[simp] theorem notify_out (s : State) : (s.notify).out = s.out ++ (if s.cfg.notifyEn then [.link s.linkRecord] else []) := by
  unfold State.notify; split <;> simp

@[simp] theorem notify_port (s : State) : (s.notify).port = s.port := by unfold State.notify; split <;> simp
/-! The reset event (R164). -/

@[simp] theorem rstPulse_cfg (s : State) : (rstPulse s).cfg = s.cfg := rfl
@[simp] theorem rstPulse_div (s : State) : (rstPulse s).div = s.cfg.divInit := rfl
@[simp] theorem rstPulse_cnt (s : State) : (rstPulse s).cnt = s.cfg.divInit := rfl
@[simp] theorem rstPulse_sel (s : State) : (rstPulse s).sel = none := rfl
@[simp] theorem rstPulse_prevChoice (s : State) : (rstPulse s).prevChoice = 0 := rfl
@[simp] theorem rstPulse_steps (s : State) : (rstPulse s).steps = [] := rfl
@[simp] theorem rstPulse_pos (s : State) : (rstPulse s).pos = 0 := rfl
@[simp] theorem rstPulse_activeRow (s : State) : (rstPulse s).activeRow = 0 := rfl
@[simp] theorem rstPulse_mode (s : State) : (rstPulse s).mode = .edit := rfl
@[simp] theorem rstPulse_running (s : State) : (rstPulse s).running = false := rfl
@[simp] theorem rstPulse_lastPitch (s : State) : (rstPulse s).lastPitch = none := rfl
@[simp] theorem rstPulse_lastVel (s : State) : (rstPulse s).lastVel = none := rfl
@[simp] theorem rstPulse_iq (s : State) : (rstPulse s).iq = [] := rfl
@[simp] theorem rstPulse_stBadcmd (s : State) : (rstPulse s).stBadcmd = false := rfl
@[simp] theorem rstPulse_stBadop (s : State) : (rstPulse s).stBadop = false := rfl
@[simp] theorem rstPulse_stIqovf (s : State) : (rstPulse s).stIqovf = false := rfl
@[simp] theorem rstPulse_aout (s : State) : (rstPulse s).aout = ⟨0, 0, 0, 0⟩ := rfl
@[simp] theorem rstPulse_dout (s : State) : (rstPulse s).dout = 0 := rfl
@[simp] theorem rstPulse_out (s : State) : (rstPulse s).out = [] := rfl
@[simp] theorem rstPulse_port (s : State) : (rstPulse s).port = s.port := rfl
/-! Lanes. -/

@[simp] theorem lanes_get_set_same {α : Type} (l : Lanes α) (i : Fin 4) (v : α) : (l.set i v).get i = v := by
  match i with
  | 0 => rfl
  | 1 => rfl
  | 2 => rfl
  | 3 => rfl

theorem lanes_get_set_other {α : Type} (l : Lanes α) (i j : Fin 4) (v : α) (h : j ≠ i) :
    (l.set i v).get j = l.get j := by
  match i, j with
  | 0, 0 | 1, 1 | 2, 2 | 3, 3 => exact absurd rfl h
  | 0, 1 | 0, 2 | 0, 3 | 1, 0 | 1, 2 | 1, 3 | 2, 0 | 2, 1 | 2, 3 | 3, 0 | 3, 1 | 3, 2 => rfl

@[simp] theorem lanes_get_zip {α β γ : Type} (f : α → β → γ) (a : Lanes α) (b : Lanes β) (i : Fin 4) :
    (Lanes.zip f a b).get i = f (a.get i) (b.get i) := by
  match i with
  | 0 => rfl
  | 1 => rfl
  | 2 => rfl
  | 3 => rfl

/-- Bit `i` of a mask is lane `i`'s test (R93, R94). -/
theorem lanes_mask_bit {α : Type} (p : α → Bool) (l : Lanes α) (i : Fin 4) :
    (l.mask p).getLsbD i.val = p (l.get i) := by
  have bits : ∀ a b c d : Bool,
      ((BitVec.ofBool d ++ BitVec.ofBool c ++ BitVec.ofBool b ++ BitVec.ofBool a : BitVec 4).getLsbD 0 = a) ∧
      ((BitVec.ofBool d ++ BitVec.ofBool c ++ BitVec.ofBool b ++ BitVec.ofBool a : BitVec 4).getLsbD 1 = b) ∧
      ((BitVec.ofBool d ++ BitVec.ofBool c ++ BitVec.ofBool b ++ BitVec.ofBool a : BitVec 4).getLsbD 2 = c) ∧
      ((BitVec.ofBool d ++ BitVec.ofBool c ++ BitVec.ofBool b ++ BitVec.ofBool a : BitVec 4).getLsbD 3 = d) := by decide
  have := bits (p l.l0) (p l.l1) (p l.l2) (p l.l3)
  match i with
  | 0 => exact this.1
  | 1 => exact this.2.1
  | 2 => exact this.2.2.1
  | 3 => exact this.2.2.2

/-- Two banks that agree on every lane are equal. -/
theorem lanes_ext {α : Type} (a b : Lanes α) (h : ∀ i, a.get i = b.get i) : a = b := by
  cases a; cases b
  simp only [Lanes.mk.injEq]
  exact ⟨h 0, h 1, h 2, h 3⟩

/-- The bounds of every lane, lane by lane. -/
theorem lanesLegal_iff (l : Lanes Byte) : lanesLegal l ↔ ∀ i, 1 ≤ (l.get i).toNat ∧ (l.get i).toNat ≤ 127 := by
  constructor
  · intro h i
    match i with
    | 0 => exact h.1
    | 1 => exact h.2.1
    | 2 => exact h.2.2.1
    | 3 => exact h.2.2.2
  · intro h
    exact ⟨h 0, h 1, h 2, h 3⟩

end Sys2Proof.Machine
end

