-- ==== Sys2Proof/Laws/Memory.lean ====
section
/-!
SUPPORT. The laws of the STEP space: a read after a write, and the canonical form that every memory operation keeps.
-/
namespace Sys2Proof.Machine

theorem entry_read (fill : StepCell) (a b : Nat) (v : StepCell) (m : Memory) :
    Memory.read fill (Memory.entry fill a v ++ m) b =
      if a = b then (if v = fill then Memory.read fill m b else v) else Memory.read fill m b := by
  unfold Memory.entry
  split
  · simp
  · simp only [List.singleton_append, Memory.read]

/-- Below every listed address the grid reads as its fill. -/
theorem read_below (fill : StepCell) (m : Memory) (a : Nat) (h : ∀ e ∈ m, a < e.1) : Memory.read fill m a = fill := by
  induction m with
  | nil => rfl
  | cons e m ih =>
    obtain ⟨b, c⟩ := e
    have hb : a < b := h (b, c) (by simp)
    simp only [Memory.read]
    rw [if_neg (by omega)]
    exact ih fun e he => h e (by simp [he])

/-- Reading where a write was made gives the value written. -/
theorem read_write_same (fill : StepCell) (m : Memory) (a : Nat) (v : StepCell) (h : Memory.wf fill m) :
    Memory.read fill (Memory.write fill m a v) a = v := by
  induction m with
  | nil =>
    simp only [Memory.write]
    have := entry_read fill a a v []
    simp only [List.append_nil] at this
    rw [this]
    simp only [Memory.read, if_true]
    split <;> simp_all
  | cons e m ih =>
    obtain ⟨b, c⟩ := e
    obtain ⟨hp, hn⟩ := h
    rw [List.pairwise_cons] at hp
    have hm : Memory.wf fill m := ⟨hp.2, fun e he => hn e (by simp [he])⟩
    simp only [Memory.write]
    split
    · next hlt =>
      rw [entry_read, if_pos rfl]
      split
      · next hv =>
        rw [hv]
        apply read_below
        intro e he
        rcases List.mem_cons.mp he with rfl | he
        · exact hlt
        · exact lt_trans hlt (hp.1 e he)
      · rfl
    · split
      · next hab =>
        subst hab
        rw [entry_read, if_pos rfl]
        split
        · next hv =>
          rw [hv]
          exact read_below fill m a fun e he => hp.1 e he
        · rfl
      · next hab =>
        simp only [Memory.read]
        rw [if_neg (fun h => hab h.symm)]
        exact ih hm

/-- A write leaves every other address as it was. -/
theorem read_write_other (fill : StepCell) (m : Memory) (a b : Nat) (v : StepCell) (h : b ≠ a) :
    Memory.read fill (Memory.write fill m a v) b = Memory.read fill m b := by
  induction m with
  | nil =>
    have := entry_read fill a b v []
    simp only [List.append_nil] at this
    simp only [Memory.write]
    rw [this, if_neg (fun x => h x.symm)]
  | cons e m ih =>
    obtain ⟨c, d⟩ := e
    simp only [Memory.write]
    split
    · rw [entry_read, if_neg (fun x => h x.symm)]
    · split
      · next hac =>
        rw [entry_read, if_neg (fun x => h x.symm)]
        simp only [Memory.read]
        rw [if_neg (fun x => h (by omega))]
      · simp only [Memory.read]
        rw [ih]

/-- Every entry after a write is one of before, or the one written. -/
theorem mem_write (fill : StepCell) (m : Memory) (a : Nat) (v : StepCell) (e : Nat × StepCell)
    (he : e ∈ Memory.write fill m a v) : e ∈ m ∨ (e = (a, v) ∧ v ≠ fill) := by
  have entry : ∀ e ∈ Memory.entry fill a v, e = (a, v) ∧ v ≠ fill := by
    intro e he
    unfold Memory.entry at he
    split at he
    · simp at he
    · next hv => exact ⟨by simpa using he, hv⟩
  induction m with
  | nil => exact Or.inr (entry e (by simpa [Memory.write] using he))
  | cons x m ih =>
    obtain ⟨b, c⟩ := x
    simp only [Memory.write] at he
    split at he
    · rcases List.mem_append.mp he with he | he
      · exact Or.inr (entry e he)
      · exact Or.inl he
    · split at he
      · rcases List.mem_append.mp he with he | he
        · exact Or.inr (entry e he)
        · exact Or.inl (by simp [he])
      · rcases List.mem_cons.mp he with rfl | he
        · exact Or.inl (by simp)
        · rcases ih he with h | h
          · exact Or.inl (by simp [h])
          · exact Or.inr h

/-- A write keeps the canonical form. -/
theorem write_wf (fill : StepCell) (m : Memory) (a : Nat) (v : StepCell) (h : Memory.wf fill m) :
    Memory.wf fill (Memory.write fill m a v) := by
  refine ⟨?_, fun e he => ?_⟩
  · induction m with
    | nil =>
      simp only [Memory.write, Memory.entry]
      split <;> simp
    | cons x m ih =>
      obtain ⟨b, c⟩ := x
      obtain ⟨hp, hn⟩ := h
      have hp' := List.pairwise_cons.mp hp
      have hm : Memory.wf fill m := ⟨hp'.2, fun e he => hn e (by simp [he])⟩
      simp only [Memory.write]
      split
      · next hlt =>
        unfold Memory.entry
        split
        · exact hp
        · refine List.pairwise_cons.mpr ⟨fun e he => ?_, hp⟩
          rcases List.mem_cons.mp he with rfl | he
          · exact hlt
          · exact lt_trans hlt (hp'.1 e he)
      · next hge =>
        split
        · next hab =>
          subst hab
          unfold Memory.entry
          split
          · exact hp'.2
          · exact List.pairwise_cons.mpr ⟨fun e he => hp'.1 e he, hp'.2⟩
        · next hne =>
          refine List.pairwise_cons.mpr ⟨fun e he => ?_, ih hm⟩
          rcases mem_write fill m a v e he with he | ⟨rfl, _⟩
          · exact hp'.1 e he
          · simp only
            omega
  · rcases mem_write fill m a v e he with he | ⟨rfl, hv⟩
    · exact h.2 e he
    · exact hv

/-- Two canonical forms that read the same everywhere are the same list: equal memories are equal data. -/
theorem wf_ext (fill : StepCell) (m n : Memory) (hm : Memory.wf fill m) (hn : Memory.wf fill n)
    (h : ∀ a, Memory.read fill m a = Memory.read fill n a) : m = n := by
  induction m generalizing n with
  | nil =>
    cases n with
    | nil => rfl
    | cons e n =>
      have := h e.1
      simp only [Memory.read, if_true] at this
      exact absurd this.symm (hn.2 e (by simp))
  | cons e m ih =>
    obtain ⟨a, c⟩ := e
    have hpm := List.pairwise_cons.mp hm.1
    cases n with
    | nil =>
      have := h a
      simp only [Memory.read, if_true] at this
      exact absurd this (hm.2 (a, c) (by simp))
    | cons x n =>
      obtain ⟨b, d⟩ := x
      have hpn := List.pairwise_cons.mp hn.1
      have hab : a = b := by
        rcases Nat.lt_trichotomy a b with hlt | heq | hgt
        · have h1 := h a
          rw [read_below fill ((b, d) :: n) a] at h1
          · simp only [Memory.read, if_true] at h1
            exact absurd h1 (hm.2 (a, c) (by simp))
          · intro e he
            rcases List.mem_cons.mp he with rfl | he
            · exact hlt
            · exact lt_trans hlt (hpn.1 e he)
        · exact heq
        · have h1 := h b
          rw [read_below fill ((a, c) :: m) b] at h1
          · simp only [Memory.read, if_true] at h1
            exact absurd h1.symm (hn.2 (b, d) (by simp))
          · intro e he
            rcases List.mem_cons.mp he with rfl | he
            · exact hgt
            · exact lt_trans hgt (hpm.1 e he)
      subst hab
      have hcd : c = d := by simpa [Memory.read] using h a
      subst hcd
      have : m = n := by
        refine ih n ⟨hpm.2, fun e he => hm.2 e (by simp [he])⟩ ⟨hpn.2, fun e he => hn.2 e (by simp [he])⟩ fun b => ?_
        by_cases hb : a = b
        · subst hb
          rw [read_below fill m a fun e he => hpm.1 e he, read_below fill n a fun e he => hpn.1 e he]
        · have := h b
          simpa [Memory.read, hb] using this
      rw [this]

/-! The same laws for the state's grid. -/

/-- The cell written reads as written. -/
theorem setCell_cellAt_same (s : State) (a : Nat) (c : StepCell) (h : Memory.wf (resetCell s.cfg) s.steps) :
    (s.setCell a c).cellAt a = c :=
  read_write_same _ _ _ _ h

/-- Every other cell reads as before. -/
theorem setCell_cellAt_other (s : State) (a b : Nat) (c : StepCell) (h : b ≠ a) :
    (s.setCell a c).cellAt b = s.cellAt b :=
  read_write_other _ _ _ _ _ h

/-- A cell's reading depends on the configuration and the grid alone. -/
theorem cellAt_congr (s t : State) (hc : t.cfg = s.cfg) (hs : t.steps = s.steps) : SameGrid s t := by
  intro a
  simp only [State.cellAt, hc, hs]

/-- What a `StepWrite` can do: replace the field of the addressed cell, inside the grid (R46). -/
theorem stepWrite_spec (f : StepField) (v : Code) (s t : State) (h : stepWrite f v s = .next t) :
    stepInRange s.cfg s.activeRow.toNat s.pos.toNat = true ∧
      t = s.setCell s.editAddress ((s.cellAt s.editAddress).setField f v) := by
  unfold stepWrite at h
  split at h
  · next hr => exact ⟨hr, by cases h; rfl⟩
  · cases h

/-- A `StepWrite` at an address of the grid answers (R46). -/
theorem stepWrite_next (f : StepField) (v : Code) (s : State) (h : SequencerInv s) :
    stepWrite f v s = .next (s.setCell s.editAddress ((s.cellAt s.editAddress).setField f v)) := by
  have : stepInRange s.cfg s.activeRow.toNat s.pos.toNat = true := by
    simp only [stepInRange, Bool.and_eq_true, decide_eq_true_eq]
    exact ⟨h.2.1, h.1⟩
  simp [stepWrite, this]

/-- An address of the grid lies below `R * SEQ_LEN` (R46). -/
theorem stepAddress_lt (c : Config) (r p : Nat) (h : stepInRange c r p = true) :
    stepAddress c r p < c.rows * c.seqLen := by
  simp only [stepInRange, Bool.and_eq_true, decide_eq_true_eq] at h
  have h1 : (r + 1) * c.seqLen ≤ c.rows * c.seqLen := Nat.mul_le_mul_right _ h.1
  unfold stepAddress
  nlinarith [h.2]

/-- Every `StepWrite` keeps the grid in canonical form and inside its bounds. -/
theorem stepWrite_gridInv (f : StepField) (v : Code) (s t : State) (h : stepWrite f v s = .next t) (hg : GridInv s) :
    GridInv t := by
  obtain ⟨hr, rfl⟩ := stepWrite_spec f v s t h
  refine ⟨write_wf _ _ _ _ hg.1, fun e he => ?_⟩
  rcases mem_write _ _ _ _ e he with he | ⟨rfl, _⟩
  · exact hg.2 e he
  · exact stepAddress_lt _ _ _ hr

/-- The grid of `State.reset` is in canonical form. -/
theorem reset_gridInv (c : Config) : GridInv (State.resetOf c) :=
  ⟨⟨List.Pairwise.nil, fun _ h => by simp [State.resetOf] at h⟩, fun _ h => by simp [State.resetOf] at h⟩

end Sys2Proof.Machine
end

