-- ==== Sys2Proof/Laws/Ops.lean ====
section
/-!
SUPPORT. For each shared operation, what it can do when it answers a next state; callers cite these instead of unfolding it.
-/
namespace Sys2Proof.Machine

/-! Sequencing. -/

@[simp] theorem andThen_next (s : State) (f : State → Result) : andThen (.next s) f = f s := rfl

/-- A sequence answers only through an intermediate next state. -/
theorem andThen_spec (r : Result) (f : State → Result) (t : State) (h : andThen r f = .next t) :
    ∃ u, r = .next u ∧ f u = .next t := by
  cases r with
  | next u => exact ⟨u, rfl, h⟩
  | fault e => cases h
  | refused e => cases h

/-! The divider bank. -/

/-- A lane fires exactly when its counter is 1 (R93). -/
theorem laneFires_iff (c : Byte) : laneFires c = true ↔ c = 1 := by
  unfold laneFires
  rw [decide_eq_true_eq]
  constructor
  · intro h
    bv_omega
  · rintro rfl
    rfl

/-- A lane's next counter, in numbers (R93). -/
theorem laneNext_eq (c d : Byte) : laneNext c d = if c = 1 then d else c - 1 := by
  unfold laneNext
  have : c - 1 = 0 ↔ c = 1 := by
    constructor
    · intro h
      bv_omega
    · rintro rfl
      rfl
  simp only [this]

/-- Bit `i` of the fire mask (R93). -/
theorem fireMask_bit (s : State) (i : Fin 4) : s.fireMask.getLsbD i.val = decide (s.cnt.get i = 1) := by
  rw [State.fireMask, lanes_mask_bit, Bool.eq_iff_iff, laneFires_iff, decide_eq_true_eq]

/-- The divider step as one record update (R93). -/
theorem divOnTick_eq (s : State) :
    divOnTick s = { s with
      cnt := Lanes.zip laneNext s.cnt s.div
      dout := if s.fireMask = 0 then s.dout else 0
      out := s.out ++ if s.fireMask = 0 then [] else [.dlev s.fireMask, .dlev 0] } := by
  simp only [divOnTick]
  split
  · simp
  · simp [State.pulse, State.emit]

/-- The counter of lane `i` after the divider step (R93). -/
theorem divOnTick_cnt (s : State) (i : Fin 4) :
    (divOnTick s).cnt.get i = if s.cnt.get i = 1 then s.div.get i else s.cnt.get i - 1 := by
  rw [divOnTick_eq]
  simp only [lanes_get_zip, laneNext_eq]

/-- `notify` as one record update (R98). -/
theorem notify_eq (s : State) :
    s.notify = { s with out := s.out ++ if s.cfg.notifyEn then [.link s.linkRecord] else [] } := by
  unfold State.notify
  split
  · rfl
  · simp

/-- What the write branch of `DADJ` can do (R96): nothing, or the division of the selected output. -/
theorem adjustSelected_spec (c : Byte) (s : State) :
    adjustSelected c s = s ∨ ∃ i, s.sel = some i ∧ c ≠ s.prevChoice ∧ adjustSelected c s = writeDivision i c s := by
  unfold adjustSelected
  split
  · exact Or.inl rfl
  · next i hi =>
    split
    · exact Or.inl rfl
    · next hc => exact Or.inr ⟨i, hi, hc, rfl⟩

/-! The sequencer. -/

/-- `advance` as one record update (R111). -/
theorem advance_eq (s : State) :
    advance s = if s.pos.toNat + 1 = s.cfg.seqLen then
      { s with pos := 0, dout := 0, out := s.out ++ [.dlev 0b0010#4, .dlev 0] }
    else { s with pos := s.pos + 1 } := by
  unfold advance
  split <;> simp [State.pulse, State.emit]

/-- Two states that differ in the output registers and the history alone (R38 to R40). -/
def OutputsOnly (s t : State) : Prop := t = { s with aout := t.aout, dout := t.dout, out := t.out }

theorem OutputsOnly.refl (s : State) : OutputsOnly s s := rfl

theorem OutputsOnly.trans {s t u : State} (h : OutputsOnly s t) (k : OutputsOnly t u) : OutputsOnly s u := by
  unfold OutputsOnly at *
  rw [k, h]

theorem emit_outputsOnly (s : State) (e : Event) : OutputsOnly s (s.emit e) := by
  cases e <;> rfl

theorem pulse_outputsOnly (s : State) (m : BitVec 4) : OutputsOnly s (s.pulse m) :=
  (emit_outputsOnly _ _).trans (emit_outputsOnly _ _)

/-- What a row of `play_step` can do (R112): its cell, read inside the grid, to its two jacks. -/
theorem playRow_spec (r : Nat) (s t : State) (h : playRow r s = .next t) :
    stepInRange s.cfg r s.pos.toNat = true ∧ ∃ jp jv, rowJacks r = some (jp, jv) ∧
      t = (s.emit (.analog jp (s.rowCell r).pitch)).emit (.analog jv (s.rowCell r).vel) := by
  unfold playRow stepRead at h
  by_cases hr : stepInRange s.cfg r s.pos.toNat = true
  · rw [if_pos hr] at h
    refine ⟨hr, ?_⟩
    cases hj : rowJacks r with
    | none => simp [hj] at h
    | some p =>
      obtain ⟨jp, jv⟩ := p
      simp only [hj] at h
      exact ⟨jp, jv, rfl, by cases h; rfl⟩
  · rw [if_neg hr] at h
    cases h

theorem playRow_outputsOnly (r : Nat) (s t : State) (h : playRow r s = .next t) : OutputsOnly s t := by
  obtain ⟨_, jp, jv, _, rfl⟩ := playRow_spec r s t h
  exact (emit_outputsOnly _ _).trans (emit_outputsOnly _ _)

theorem playRows_outputsOnly (rs : List Nat) (s t : State) (h : playRows rs s = .next t) : OutputsOnly s t := by
  induction rs generalizing s with
  | nil => cases h; exact .refl _
  | cons r rs ih =>
    obtain ⟨u, hu, ht⟩ := andThen_spec _ _ _ h
    exact (playRow_outputsOnly r s u hu).trans (ih u ht)

/-- `play_step` writes the outputs and the history alone (R112). -/
theorem playStep_outputsOnly (s t : State) (h : playStep s = .next t) : OutputsOnly s t := by
  obtain ⟨u, hu, ht⟩ := andThen_spec _ _ _ h
  cases ht
  exact (playRows_outputsOnly _ s u hu).trans (pulse_outputsOnly _ _)

/-- `play_step` answers for a state inside the grid, with the events of R112. -/
theorem playStep_next (s : State) (hr : 1 ≤ s.cfg.rows ∧ 2 * s.cfg.rows ≤ 4) (hp : s.pos.toNat < s.cfg.seqLen) :
    ∃ t, playStep s = .next t ∧ t.out = s.out ++ s.playEvents ∧ t.dout = 0 ∧ PlayedOutputs s t := by
  have row : ∀ r, r < s.cfg.rows → ∀ u : State, u.cfg = s.cfg → u.pos = s.pos → u.steps = s.steps →
      ∀ jp jv, rowJacks r = some (jp, jv) →
      playRow r u = .next ((u.emit (.analog jp (s.rowCell r).pitch)).emit (.analog jv (s.rowCell r).vel)) := by
    intro r hlt u hc hpos hs jp jv hj
    have : stepRead r u.pos.toNat u = some (s.rowCell r) := by
      simp only [stepRead, stepInRange, hc, hpos, hlt, hp, decide_true, Bool.and_self, if_true, State.cellAt, hs,
        State.rowCell]
    simp only [playRow, this, hj]
  have two : s.cfg.rows = 1 ∨ s.cfg.rows = 2 := by omega
  rcases two with h | h
  · refine ⟨((s.emit (.analog 0 (s.rowCell 0).pitch)).emit (.analog 1 (s.rowCell 0).vel)).pulse 0b0001#4,
      ?_, ?_, ?_, ?_⟩
    · simp only [playStep, h, List.range_one, playRows]
      rw [row 0 (by omega) s rfl rfl rfl 0 1 rfl]
      simp only [andThen_next]
    · simp only [State.playEvents, h, List.range_one, pulse_out, emit_out, List.append_assoc]
      exact rfl
    · exact pulse_dout _ _
    · refine ⟨fun r hr => ?_, fun j hj => ?_⟩
      · obtain rfl : r = 0 := by omega
        exact ⟨rfl, rfl⟩
      · rw [h] at hj
        match j with
        | 0 => simp at hj
        | 1 => simp at hj
        | 2 => exact rfl
        | 3 => exact rfl
  · refine ⟨((((s.emit (.analog 0 (s.rowCell 0).pitch)).emit (.analog 1 (s.rowCell 0).vel)).emit
      (.analog 2 (s.rowCell 1).pitch)).emit (.analog 3 (s.rowCell 1).vel)).pulse 0b0001#4, ?_, ?_, ?_, ?_⟩
    · simp only [playStep, h, show List.range 2 = [0, 1] from rfl, playRows]
      rw [row 0 (by omega) s rfl rfl rfl 0 1 rfl, andThen_next,
        row 1 (by omega) _ (by simp) (by simp) (by simp) 2 3 rfl]
      simp only [andThen_next]
    · simp only [State.playEvents, h, show List.range 2 = [0, 1] from rfl, pulse_out, emit_out, List.append_assoc]
      exact rfl
    · exact pulse_dout _ _
    · refine ⟨fun r hr => ?_, fun j hj => ?_⟩
      · have : r = 0 ∨ r = 1 := by omega
        rcases this with rfl | rfl <;> exact ⟨rfl, rfl⟩
      · rw [h] at hj
        have := j.isLt
        omega

/-! The multiplexer. -/

/-- What a preview's writes can do (R107, R118): write the addressed cell, under `WRITE_ON_PREVIEW` alone. -/
theorem previewWrite_spec (s t : State) (h : previewWrite s = .next t) :
    t = { s with steps := t.steps } ∧ SameGridExcept s.editAddress s t ∧ (s.cfg.writeOnPreview = false → t = s) ∧
      (GridInv s → GridInv t) := by
  have latest : ∀ f v (s t : State), writeLatest f v s = .next t →
      t = { s with steps := t.steps } ∧ SameGridExcept s.editAddress s t ∧ (GridInv s → GridInv t) := by
    intro f v s t h
    cases v with
    | none => cases h; exact ⟨rfl, fun _ _ => rfl, id⟩
    | some m =>
      obtain ⟨_, ht⟩ := stepWrite_spec f m s t h
      refine ⟨?_, ?_, stepWrite_gridInv f m s t h⟩
      · rw [ht]
        rfl
      · rw [ht]
        exact fun b hb => setCell_cellAt_other _ _ _ _ hb
  unfold previewWrite at h
  split at h
  · next hw =>
    obtain ⟨u, hu, ht⟩ := andThen_spec _ _ _ h
    obtain ⟨a1, a2, a3⟩ := latest _ _ _ _ hu
    obtain ⟨b1, b2, b3⟩ := latest _ _ _ _ ht
    have ha : u.editAddress = s.editAddress := by rw [a1]; rfl
    refine ⟨?_, fun b hb => ?_, fun hf => ?_, fun hg => b3 (a3 hg)⟩
    · rw [b1, a1]
    · rw [b2 b (ha ▸ hb), a2 b hb]
    · rw [hw] at hf
      cases hf
  · cases h
    exact ⟨rfl, fun _ _ => rfl, fun _ => rfl, id⟩

/-- An intent's application leaves the queue, the status flags, the environment, the divisions and counters, the previous
sample and the last-written values as they are (R95, R107 to R110). -/
theorem applyIntent_frame (c : Intent) (s t : State) (h : applyIntent c s = .next t) :
    t.iq = s.iq ∧ SameFlags s t ∧ SameEnvironment s t ∧ t.div = s.div ∧ t.cnt = s.cnt ∧ t.prevChoice = s.prevChoice ∧
      SameLast s t := by
  cases c with
  | dsel =>
    cases h
    simp [applyDsel, SameFlags, SameEnvironment, SameLast]
  | bas =>
    simp only [applyIntent, applyBas] at h
    split at h
    · obtain ⟨u, hu, ht⟩ := andThen_spec _ _ _ h
      obtain ⟨a1, _⟩ := previewWrite_spec _ _ hu
      have b1 := playStep_outputsOnly _ _ ht
      unfold OutputsOnly at b1
      rw [b1, a1]
      simp [SameFlags, SameEnvironment, SameLast]
    · cases h
      simp [SameFlags, SameEnvironment, SameLast]
  | bal =>
    cases h
    unfold applyBal
    split <;> simp [SameFlags, SameEnvironment, SameLast]
  | bbs =>
    cases h
    unfold applyBbs
    split
    · rw [advance_eq]
      split <;> simp [SameFlags, SameEnvironment, SameLast]
    · simp [SameFlags, SameEnvironment, SameLast]
  | bbl =>
    cases h
    unfold applyBbl
    split <;> simp [SameFlags, SameEnvironment, SameLast]

/-- The loop of the drain over a queue, one intent at a time (R136). -/
theorem drainList_cons (c : Intent) (rest : List Intent) (s t : State) (h : drainList (c :: rest) s = .next t) :
    ∃ u, applyIntent c { s with iq := rest } = .next u ∧ u.iq = rest ∧ drainList rest u = .next t := by
  obtain ⟨u, hu, ht⟩ := andThen_spec _ _ _ h
  exact ⟨u, hu, (applyIntent_frame _ _ _ hu).1, ht⟩

/-- What holds before a drain and is kept by taking an intent and applying it holds after the drain (R136); the queue is
empty then. -/
theorem drainList_induct (P : State → Prop)
    (hP : ∀ c rest s u, s.iq = c :: rest → P s → applyIntent c { s with iq := rest } = .next u → P u)
    (l : List Intent) (s t : State) (hl : s.iq = l) (h0 : P s) (h : drainList l s = .next t) : P t ∧ t.iq = [] := by
  induction l generalizing s with
  | nil => cases h; exact ⟨h0, hl⟩
  | cons c rest ih =>
    obtain ⟨u, hu, hq, ht⟩ := drainList_cons c rest s t h
    exact ih u hq (hP c rest s u hl h0 hu) ht

/-- What an arrival can do (R135). -/
theorem arrive_spec (c : Intent) (s t : State) (h : arrive c s = .next t) :
    (applicable s.cfg.behavior c = false ∧ t = s) ∨
    (applicable s.cfg.behavior c = true ∧ s.gated = true ∧ t = enqueue c s) ∨
    (applicable s.cfg.behavior c = true ∧ s.gated = false ∧ applyIntent c s = .next t) := by
  unfold arrive at h
  split at h
  · next ha =>
    split at h
    · next hg => exact Or.inr (Or.inl ⟨ha, hg, by cases h; rfl⟩)
    · next hg => exact Or.inr (Or.inr ⟨ha, by simpa using hg, h⟩)
  · next ha => exact Or.inl ⟨by simpa using ha, by cases h; rfl⟩

/-- What an edit sample of the pitch control can do (R114). -/
theorem execEpit_spec (k : Code) (s t : State) (h : execEpit k s = .next t) :
    t = s ∨ ∃ m u, s.editing = true ∧ pmap s.cfg k = some m ∧ s.lastPitch ≠ some m ∧
      stepWrite .pitch m s = .next u ∧ t = { u with lastPitch := some m } := by
  unfold execEpit at h
  split at h
  · next he =>
    split at h
    · cases h
    · next m hm =>
      split at h
      · exact Or.inl (by cases h; rfl)
      · next hl =>
        obtain ⟨u, hu, ht⟩ := andThen_spec _ _ _ h
        exact Or.inr ⟨m, u, he, hm, hl, hu, by cases ht; rfl⟩
  · exact Or.inl (by cases h; rfl)

/-- What an edit sample of the velocity control can do (R115). -/
theorem execEvel_spec (k : Code) (s t : State) (h : execEvel k s = .next t) :
    t = s ∨ ∃ u, s.editing = true ∧ s.lastVel ≠ some (vmap s.cfg k) ∧ stepWrite .vel (vmap s.cfg k) s = .next u ∧
      t = { u with lastVel := some (vmap s.cfg k) } := by
  unfold execEvel at h
  split at h
  · next he =>
    split at h
    · exact Or.inl (by cases h; rfl)
    · next hl =>
      obtain ⟨u, hu, ht⟩ := andThen_spec _ _ _ h
      exact Or.inr ⟨u, he, hl, hu, by cases ht; rfl⟩
  · exact Or.inl (by cases h; rfl)

/-- What a lookup can do (R129): a `Q` event, or the flag. -/
theorem execQnt_spec (t : Byte) (k : Code) (s u : State) (h : execQnt t k s = .next u) :
    (tableLegal s.cfg t = true ∧ ∃ n, quantize s.cfg k t.toNat = some n ∧ u = s.emit (.note n)) ∨
    (tableLegal s.cfg t = false ∧ u = s.setBadop) := by
  unfold execQnt at h
  split at h
  · next hl =>
    split at h
    · next n hn => exact Or.inl ⟨hl, n, hn, by cases h; rfl⟩
    · cases h
  · next hl => exact Or.inr ⟨by simpa using hl, by cases h; rfl⟩

/-- What `DADJ` can do (R96). -/
theorem execDadj_spec (c : Byte) (s t : State) (h : execDadj c s = .next t) :
    (countLegal c = false ∧ t = s.setBadop) ∨ (countLegal c = true ∧ s.cfg.behavior = .seq ∧ t = s) ∨
    (countLegal c = true ∧ s.cfg.behavior = .div ∧ t = { adjustSelected c s with prevChoice := c }) := by
  unfold execDadj at h
  split at h
  · next hl =>
    split at h
    · next hb => exact Or.inr (Or.inr ⟨hl, hb, by cases h; rfl⟩)
    · next hb => exact Or.inr (Or.inl ⟨hl, hb, by cases h; rfl⟩)
  · next hl => exact Or.inl ⟨by simpa using hl, by cases h; rfl⟩

/-- What `TICK` can do (R76, R77): a divider step and a drain, a sequencer step and a drain, or nothing. -/
theorem execTick_spec (s t : State) (h : execTick s = .next t) :
    (s.cfg.behavior = .div ∧ drain (divOnTick s) = .next t) ∨
    (s.cfg.behavior = .seq ∧ s.mode = .play ∧ s.running = true ∧
      ∃ u, seqPlayTick s = .next u ∧ drain u = .next t) ∨
    (s.cfg.behavior = .seq ∧ (s.mode = .edit ∨ s.running = false) ∧ t = s) := by
  unfold execTick at h
  split at h
  · next hb => exact Or.inl ⟨hb, h⟩
  · next hb =>
    split at h
    · next hg =>
      simp only [Bool.and_eq_true, decide_eq_true_eq] at hg
      obtain ⟨u, hu, ht⟩ := andThen_spec _ _ _ h
      exact Or.inr (Or.inl ⟨hb, hg.1, hg.2, u, hu, ht⟩)
    · next hg =>
      refine Or.inr (Or.inr ⟨hb, ?_, by cases h; rfl⟩)
      cases hm : s.mode with
      | edit => exact Or.inl rfl
      | play =>
        right
        simpa [hm] using hg

/-- What one step of the machine can do. -/
theorem step_spec (s t : State) (h : step s = .next t) :
    (s.port = [] ∧ t = s) ∨
    (∃ rest, s.port = .rst :: rest ∧ t = rstPulse { s with port := rest }) ∨
    (∃ w rest i, s.port = .cmd w :: rest ∧ decode w = .ok i ∧ exec i { s with port := rest } = .next t) ∨
    (∃ w rest e, s.port = .cmd w :: rest ∧ decode w = .error e ∧ t = dropUndefined { s with port := rest }) := by
  unfold step takeEvent at h
  cases hp : s.port with
  | nil =>
    simp only [hp] at h
    exact Or.inl ⟨rfl, by cases h; rfl⟩
  | cons e rest =>
    cases e with
    | rst =>
      simp only [hp] at h
      exact Or.inr (Or.inl ⟨rest, rfl, by cases h; rfl⟩)
    | cmd w =>
      simp only [hp] at h
      cases hd : decode w with
      | ok i =>
        simp only [hd] at h
        exact Or.inr (Or.inr (Or.inl ⟨w, rest, i, rfl, hd, h⟩))
      | error e =>
        simp only [hd] at h
        exact Or.inr (Or.inr (Or.inr ⟨w, rest, e, rfl, hd, by cases h; rfl⟩))

end Sys2Proof.Machine
end

