-- ==== Sys2Proof/Laws/PerInstr.lean ====
section
/-!
SUPPORT. What the opcode map says of each command's own word (R60 to R64), one lemma for each command.
-/
namespace Sys2Proof

namespace Laws.EncodingRow

/-- The word of a command matches its row of R63 under the row's mask, and its class bit is its row's class (R64). -/
def Statement (i : Instr) : Prop :=
  encode i &&& (matchMask i).2 = (matchMask i).1 ∧ classBit (encode i) = i.isClassA

theorem tick : Statement .tick := ⟨by decide, by decide⟩

theorem dadj (c : Byte) : Statement (.dadj c) := by
  refine ⟨?_, ?_⟩
  · apply BitVec.eq_of_getLsbD_eq
    intro i hi
    simp only [encode, matchMask, BitVec.getLsbD_append, BitVec.getLsbD_and]
    interval_cases i <;> simp
  · simp only [classBit, encode, Instr.isClassA, BitVec.getLsbD_append]
    simp

theorem epit (k : Code) : Statement (.epit k) := by
  refine ⟨?_, ?_⟩
  · apply BitVec.eq_of_getLsbD_eq
    intro i hi
    simp only [encode, matchMask, BitVec.getLsbD_append, BitVec.getLsbD_and]
    interval_cases i <;> simp
  · simp only [classBit, encode, Instr.isClassA, BitVec.getLsbD_append]
    simp

theorem evel (k : Code) : Statement (.evel k) := by
  refine ⟨?_, ?_⟩
  · apply BitVec.eq_of_getLsbD_eq
    intro i hi
    simp only [encode, matchMask, BitVec.getLsbD_append, BitVec.getLsbD_and]
    interval_cases i <;> simp
  · simp only [classBit, encode, Instr.isClassA, BitVec.getLsbD_append]
    simp

theorem qnt (t : Byte) (k : Code) : Statement (.qnt t k) := by
  refine ⟨?_, ?_⟩
  · apply BitVec.eq_of_getLsbD_eq
    intro i hi
    simp only [encode, matchMask, BitVec.getLsbD_append, BitVec.getLsbD_and]
    interval_cases i <;> simp
  · simp only [classBit, encode, Instr.isClassA, BitVec.getLsbD_append]
    simp

theorem dsel : Statement .dsel := ⟨by decide, by decide⟩

theorem bas : Statement .bas := ⟨by decide, by decide⟩

theorem bal : Statement .bal := ⟨by decide, by decide⟩

theorem bbs : Statement .bbs := ⟨by decide, by decide⟩

theorem bbl : Statement .bbl := ⟨by decide, by decide⟩

end Laws.EncodingRow
end Sys2Proof
end

