-- ==== Sys2Proof/Tests/Slice0.lean ====
section
/-!
SUPPORT. The model's own tests: ill-formed terms, words written out from the encodings, one step for each command from the
vectors of 95_test_vectors.md, and a witness for the hypotheses of each statement of Obligations.lean.
-/

namespace Sys2Proof.Tests
open Sys2Proof Sys2Proof.Machine

/-! Small states. -/

/-- The default configuration with the divider as its behaviour. -/
def divCfg : Config := { Config.default with behavior := .div }

/-- The divider after reset, with `div = cnt = [1, 2, 4, 8]`. -/
def bank : State := State.resetOf divCfg

/-- The divider with output 0 selected and `prev_choice = 4`. -/
def bankSel : State := { bank with sel := some 0, prevChoice := 4 }

/-- The sequencer in Play, running, at position `p`. -/
def playing (p : Byte) : State := { State.reset with mode := .play, running := true, pos := p }

/-- The sequencer in Play, paused, at position `p`. -/
def paused (p : Byte) : State := { State.reset with mode := .play, pos := p }

/-- The next state of an outcome, if it is one. -/
def answer (r : Result) : Option State :=
  match r with
  | .next t => some t
  | .fault _ => none
  | .refused _ => none

/-- The state a command leaves; the start where it stops. -/
def after (i : Instr) (s : State) : State := (answer (exec i s)).getD s

/-! Well-formedness (R62, R67): each check refuses an ill-formed term. -/

theorem test_dadj_zero_ill_formed : (Instr.dadj 0).wellFormed 1 = false := by decide
theorem test_dadj_128_ill_formed : (Instr.dadj 128).wellFormed 1 = false := by decide
theorem test_dadj_bounds_well_formed :
    (Instr.dadj 1).wellFormed 1 = true ∧ (Instr.dadj 127).wellFormed 1 = true := by decide
theorem test_qnt_above_tables_ill_formed : (Instr.qnt 1 0).wellFormed 1 = false := by decide
theorem test_qnt_last_table_well_formed : (Instr.qnt 255 65535).wellFormed 256 = true := by decide

/-! Decoding: words written out from R60 to R63 and the vectors. -/

theorem test_decode_tick : decode 0b00000001_000000000000000000000000#32 = .ok .tick := by decide
theorem test_decode_dadj : decode 0b00000010_0000000000000000_01111111#32 = .ok (.dadj 127) := by decide
theorem test_decode_epit : decode 0b00000011_00000000_0101011100001010#32 = .ok (.epit 22282) := by decide
theorem test_decode_evel : decode 0b00000100_00000000_0001001111111111#32 = .ok (.evel 0x13FF) := by decide
theorem test_decode_qnt : decode 0b00000101_00000001_0101011100001010#32 = .ok (.qnt 1 22282) := by decide
theorem test_decode_dsel : decode 0b00010000_000000000000000000000000#32 = .ok .dsel := by decide
theorem test_decode_bas : decode 0b00010001_000000000000000000000000#32 = .ok .bas := by decide
theorem test_decode_bal : decode 0b00010010_000000000000000000000000#32 = .ok .bal := by decide
theorem test_decode_bbs : decode 0b00010011_000000000000000000000000#32 = .ok .bbs := by decide
theorem test_decode_bbl : decode 0b00010100_000000000000000000000000#32 = .ok .bbl := by decide

/-- An illegal operand still decodes (R65, R67). -/
theorem test_decode_illegal_operand : decode 0x02000000#32 = .ok (.dadj 0) ∧ decode 0x02000080#32 = .ok (.dadj 128) := by
  decide

theorem test_decode_refuses_opcodes :
    decode 0x00000000#32 = .error .undefinedOpcode ∧ decode 0xFFFFFFFF#32 = .error .undefinedOpcode ∧
      decode 0x06000000#32 = .error .undefinedOpcode ∧ decode 0x0F000000#32 = .error .undefinedOpcode ∧
      decode 0x15000000#32 = .error .undefinedOpcode := by decide

theorem test_decode_refuses_reserved_bits :
    decode 0x01000001#32 = .error .reservedBits ∧ decode 0x02000100#32 = .error .reservedBits ∧
      decode 0x03010000#32 = .error .reservedBits ∧ decode 0x04800000#32 = .error .reservedBits ∧
      decode 0x11000001#32 = .error .reservedBits := by decide

theorem test_table_word : decodeTableWord 32 0x0501570A = some (.qnt 1 22282) ∧ decodeTableWord 32 0 = none := by decide

theorem test_encode_qnt : encode (.qnt 1 22282) = 0x0501570A#32 := by decide

/-! One step for each command; the expected results are those of 95_test_vectors.md. -/

/-- T2, tick 6, from the counters after tick 5. -/
theorem test_tick_div :
    (after .tick { bank with div := ⟨2, 3, 4, 6⟩, cnt := ⟨1, 1, 3, 1⟩ }).cnt = ⟨2, 3, 2, 6⟩ ∧
      (after .tick { bank with div := ⟨2, 3, 4, 6⟩, cnt := ⟨1, 1, 3, 1⟩ }).out = [.dlev 0b1011#4, .dlev 0] := by decide

/-- R113's example: the last step played, then the pattern restart. -/
theorem test_tick_play :
    (after .tick (playing 7)).pos = 0 ∧ (after .tick (playing 7)).out =
      [.analog 0 0, .analog 1 65535, .analog 2 0, .analog 3 65535, .dlev 0b0001#4, .dlev 0, .dlev 0b0010#4, .dlev 0] := by
  decide

/-- DS1: five selections in one drain. -/
theorem test_dsel_five :
    (after .tick { bank with iq := [.dsel, .dsel, .dsel, .dsel, .dsel] }).sel = none ∧
      (after .tick { bank with iq := [.dsel, .dsel, .dsel, .dsel, .dsel] }).out =
        [.dlev 0b0001#4, .dlev 0, .link ⟨0, 1, 2, 4, 8⟩, .link ⟨1, 1, 2, 4, 8⟩, .link ⟨2, 1, 2, 4, 8⟩, .link ⟨3, 1, 2, 4, 8⟩,
          .link ⟨0xFF, 1, 2, 4, 8⟩] := by decide

/-- DS2: no effect in the sequencer. -/
theorem test_dsel_seq : answer (exec .dsel State.reset) = some State.reset := by decide

/-- DA2: the write and its record, and the stationary knob. -/
theorem test_dadj_write :
    answer (exec (.dadj 3) bankSel) =
        some { bankSel with div := ⟨3, 2, 4, 8⟩, prevChoice := 3, out := [.link ⟨0, 3, 2, 4, 8⟩] } ∧
      answer (exec (.dadj 4) bankSel) = some bankSel := by decide

/-- DA7: the counter is reset where the policy says so. -/
theorem test_dadj_reset_counter :
    (after (.dadj 2) { bank with
      cfg := { divCfg with resetCounterOnChange := true }, sel := some 3, cnt := ⟨1, 2, 2, 6⟩ }).cnt = ⟨1, 2, 2, 2⟩ := by
  decide

/-- E1. -/
theorem test_epit :
    (after (.epit 22282) State.reset).steps = [(0, ⟨100, 65535⟩)] ∧
      (after (.epit 22282) State.reset).lastPitch = some 100 := by decide

/-- E5: the guard follows the knob, not the cell. -/
theorem test_epit_guard :
    answer (exec (.epit 22000) { State.reset with lastPitch := some 100, pos := 1 }) =
      some { State.reset with lastPitch := some 100, pos := 1 } := by decide

/-- R115's example and E4. -/
theorem test_evel :
    (after (.evel 0x1234) State.reset).steps = [(0, ⟨0, 4608⟩)] ∧
      answer (exec (.evel 0x13FF) { State.reset with lastVel := some 4608 }) = some { State.reset with lastVel := some 4608 } := by
  decide

/-- S1: the boundaries of the three-entry table. -/
theorem test_qnt :
    (after (.qnt 0 22282) State.reset).out = [.note 100] ∧ (after (.qnt 0 21851) State.reset).out = [.note 0] ∧
      (after (.qnt 0 21852) State.reset).out = [.note 100] ∧ (after (.qnt 0 43697) State.reset).out = [.note 200] ∧
      (after (.qnt 0 65535) bank).out = [.note 200] := by decide

/-- R67: the table number equal to the number of tables. -/
theorem test_qnt_illegal : answer (exec (.qnt 1 0) State.reset) = some { State.reset with stBadop := true } := by decide

/-- R107's example: row 0 and row 1 at position 3. -/
theorem test_bas_preview :
    (after .bas { State.reset with pos := 3, steps := [(3, ⟨1000, 0xFE00⟩)] }).out =
      [.analog 0 1000, .analog 1 65024, .analog 2 0, .analog 3 65535, .dlev 0b0001#4, .dlev 0] := by decide

/-- B6. -/
theorem test_bas_play :
    (after .bas (paused 0)).running = true ∧ (after .bas (playing 0)).iq = [.bas] := by decide

/-- B2. -/
theorem test_bal :
    (after .bal State.reset).activeRow = 1 ∧ (after .bal { State.reset with activeRow := 1 }).activeRow = 0 := by decide

/-- B3, and the wrap of R109's example. -/
theorem test_bbs :
    answer (exec .bbs State.reset) = some { State.reset with pos := 1 } ∧
      answer (exec .bbs { State.reset with pos := 7 }) = some { State.reset with out := [.dlev 0b0010#4, .dlev 0] } := by decide

/-- B4, B5. -/
theorem test_bbl :
    answer (exec .bbl { State.reset with pos := 5 }) = some (playing 5) ∧ answer (exec .bbl (paused 5)) = some State.reset := by decide

/-! Memory, reset and the step. -/

theorem test_memory_wf :
    Memory.wf ⟨0, 65535⟩ [(1, ⟨1, 1⟩), (4, ⟨2, 2⟩)] ∧ ¬ Memory.wf ⟨0, 65535⟩ [(4, ⟨1, 1⟩), (1, ⟨2, 2⟩)] ∧
      ¬ Memory.wf ⟨0, 65535⟩ [(1, ⟨0, 65535⟩)] := by decide

/-- Writing the grid fill back removes the entry. -/
theorem test_memory_write_fill : Memory.write ⟨0, 65535⟩ [(1, ⟨1, 1⟩), (4, ⟨2, 2⟩)] 1 ⟨0, 65535⟩ = [(4, ⟨2, 2⟩)] := by decide

theorem test_step_runs_word : answer (step (State.reset.withFetchWord 32 0x14000000)) = some (playing 0) := by decide

theorem test_step_undefined_word :
    answer (step (State.reset.withFetchWord 32 0x01000001)) = some { State.reset with stBadcmd := true } := by decide

theorem test_status_port : State.status { State.reset with stIqovf := true, stBadcmd := true } = 0b101#3 := by decide

/-- S7: the samples 90, 150, 60 after three copies of 120. -/
theorem test_smoothing :
    (pushSample 60 (pushSample 150 (pushSample 90 (clockFilled ⟨3, 30, 300⟩ .internal 120 false)))).window = [90, 150, 60] := by
  decide

/-- R84, R88: the readings 0 and 1 are the tempo bounds themselves; beyond them there is no sample. -/
theorem test_tempo_sample :
    tempoSample ⟨3, 30, 300⟩ 0 = some 30 ∧ tempoSample ⟨3, 30, 300⟩ 1 = some 300 ∧ tempoSample ⟨3, 30, 300⟩ 2 = none ∧
      tempoSample ⟨3, 30, 300⟩ (-1) = none := by
  norm_num [tempoSample, readInternalTempo]

/-! Witnesses: for each statement of Obligations.lean that has hypotheses, states and operands that meet them together, one for
each clause, at the boundaries of the ranges. -/

/-- The sequencer in Edit at its last cell, with a queue-free, edited grid. -/
def editEnd : State :=
  { State.reset with pos := 7, activeRow := 1, steps := [(0, ⟨100, 65535⟩), (15, ⟨200, 512⟩)], lastPitch := some 200 }

/-- The same sequencer under `WRITE_ON_PREVIEW`. -/
def editWrites : State := { editEnd with cfg := { Config.default with writeOnPreview := true } }

/-- The divider at the limits of its registers, with a selection waiting. -/
def bankEdge : State := { bank with div := ⟨1, 127, 4, 8⟩, cnt := ⟨1, 127, 1, 8⟩, sel := some 3, prevChoice := 127, iq := [.dsel] }

/-- The bank with five selections waiting. -/
def bankFive : State := { bank with iq := [.dsel, .dsel, .dsel, .dsel, .dsel] }

/-- The divider with a queue of one place, full. -/
def bankFull : State := { bank with cfg := { divCfg with iqDepth := 1 }, iq := [.dsel] }

/-- A configuration at the other bounds of R9: the largest sequence, one row, the smallest queue. -/
def edgeCfg : Config :=
  { Config.default with
    seqLen := 256, rows := 1, divInit := ⟨127, 127, 127, 127⟩, velKeepBits := 16, iqDepth := 1, tdesc := [⟨2, 1⟩, ⟨0, 3⟩],
    chromaT := 1 }

/-- A record that passes the check. -/
def goodRecord : ConfigRecord where
  behavior := some .div
  d := 4
  divInit := [1, 127, 4, 8]
  divMax := 127
  resetCounterOnChange := true
  notifyEn := false
  rows := 2
  seqLen := 256
  defaultPitch := 0
  defaultVel := 65535
  velKeepBits := 1
  writeOnPreview := true
  tdesc := [⟨0, 3⟩]
  tmem := [0, 100, 65535]
  chromaT := 0
  eps := { num := 1, den := 10000, den_nz := by decide, reduced := by decide }
  iqDepth := 1
  divChoices := [1]
  timing := ⟨10, 20, 50⟩
  capacity := 1
  minBpm := 30
  maxBpm := 30

/-- A record that breaks the range of `DIV_CHOICES` alone. -/
def badChoices : ConfigRecord := { goodRecord with divChoices := [0, 200] }

/-- A record that breaks causes 2 and 6. -/
def badRecord : ConfigRecord := { goodRecord with rows := 0, iqDepth := 0 }

theorem witness_ClassBitSeparatesTheClasses :
    decode 0x10000000#32 = .ok .dsel ∧ decode 0x050000FF#32 = .ok (.qnt 0 255) := by decide

theorem witness_StepRunsTheDecodedCommand :
    State.port { State.reset with port := [.cmd 0x02000003#32, .rst] } = .cmd 0x02000003#32 :: [.rst] ∧
      decode 0x02000003#32 = .ok (.dadj 3) := by decide

theorem witness_UndefinedWordSetsOnlyItsFlag :
    State.port { State.reset with port := [.cmd 0x02000100#32] } = .cmd 0x02000100#32 :: [] ∧
      UndefinedWord (0x02000100#32).toNat ∧ UndefinedWord (0x0400FFFF#32 + 0x10000#32).toNat ∧
      UndefinedWord (0x14000001#32).toNat ∧ UndefinedWord (0x15000000#32).toNat := by decide

theorem witness_ResetEventRestoresTheResetState :
    State.port { editEnd with port := [.rst] } = .rst :: [] ∧ editEnd.port = [] := by decide

theorem witness_ResetStateIsTheTable : 1 < Config.default.rows ∧ 7 < Config.default.seqLen := by decide

theorem witness_EveryValidConfigurationResetsInsideTheInvariant : Config.default.Valid ∧ edgeCfg.Valid ∧ divCfg.Valid :=
  ⟨by decide, by decide, by decide⟩

theorem witness_ConstructionReportsTheLowestCause :
    goodRecord.d = goodRecord.divInit.length ∧ construct badRecord = .error .rows ∧ construct badChoices = .error .uncoded :=
  ⟨by decide, rfl, rfl⟩

/-- R9: each constraint that R147 gives no code, at its boundary. -/
theorem test_uncoded_constraints :
    violates { goodRecord with divChoices := [1, 127] } .uncoded = false ∧
      violates { goodRecord with divChoices := [128] } .uncoded = true ∧
      violates { goodRecord with timing := ⟨0, 20, 50⟩ } .uncoded = true ∧
      violates { goodRecord with timing := ⟨10, 10, 50⟩ } .uncoded = true := by decide

/-- R9, R34: a value just outside 16 bits is rejected, one just inside is not. -/
theorem test_sixteen_bits :
    violates goodRecord .uncoded = false ∧ violates { goodRecord with defaultPitch := -1 } .uncoded = true ∧
      violates { goodRecord with defaultVel := 65536 } .uncoded = true ∧
      violates { goodRecord with tmem := [0, 100, 65536] } .uncoded = true ∧
      violates { goodRecord with tdesc := [⟨-1, 3⟩] } .uncoded = true ∧
      violates { goodRecord with divMax := 128 } .uncoded = true := by decide

theorem witness_ConstructionKeepsTheParameters : ∃ s, construct goodRecord = .ok s := ⟨_, rfl⟩

theorem inv_editEnd : Inv editEnd := ⟨by decide, by decide, by decide, by decide, by decide, by decide, by decide⟩

theorem inv_editWrites : Inv editWrites := ⟨by decide, by decide, by decide, by decide, by decide, by decide, by decide⟩

theorem inv_bankEdge : Inv bankEdge := ⟨by decide, by decide, by decide, by decide, by decide, by decide, by decide⟩

theorem inv_bankSel : Inv bankSel := ⟨by decide, by decide, by decide, by decide, by decide, by decide, by decide⟩

theorem inv_bankFull : Inv bankFull := ⟨by decide, by decide, by decide, by decide, by decide, by decide, by decide⟩

theorem inv_playing : Inv { playing 7 with iq := [.bas, .bas] } :=
  ⟨by decide, by decide, by decide, by decide, by decide, by decide, by decide⟩

theorem inv_playing_bbl : Inv { playing 7 with iq := [.bbl, .bbs] } :=
  ⟨by decide, by decide, by decide, by decide, by decide, by decide, by decide⟩

theorem inv_playing_idle : Inv (playing 7) :=
  ⟨by decide, by decide, by decide, by decide, by decide, by decide, by decide⟩

theorem inv_paused : Inv (paused 7) := ⟨by decide, by decide, by decide, by decide, by decide, by decide, by decide⟩

theorem witness_StepKeepsEveryInvariant :
    Inv bankEdge ∧ ∃ t, step { bankEdge with port := [.cmd 0x01000000#32] } = .next t := ⟨inv_bankEdge, _, rfl⟩

theorem witness_NoStepStopsInsideTheInvariant : Inv { playing 7 with iq := [.bas, .bas] } := inv_playing

theorem witness_StepKeepsTheGridCanonical :
    GridInv editEnd ∧ ∃ t, step { editEnd with port := [.cmd 0x0400FFFF#32] } = .next t := ⟨inv_editEnd.2.2.2.1, _, rfl⟩

theorem witness_QueueInvariantsHoldBetweenCommands :
    QueueInv bankEdge ∧ bankEdge.gated = true ∧ ∃ t, exec .tick bankEdge = .next t :=
  ⟨inv_bankEdge.2.2.2.2.1, by decide, _, rfl⟩

theorem witness_SequencerInvariantsKept :
    (playing 7).cfg.Valid ∧ SequencerInv (playing 7) ∧
      ∃ t, step { playing 7 with port := [.cmd 0x01000000#32] } = .next t :=
  ⟨inv_playing_idle.1, inv_playing_idle.2.2.1, _, rfl⟩

theorem witness_BankInvariantsAndTheirRestoration :
    bankEdge.cfg.Valid ∧ BankInv bankEdge ∧ CountersWithinDivisions bankEdge ∧
      (∃ t, step { bankEdge with port := [.cmd 0x01000000#32] } = .next t) ∧ (∃ t, exec .dsel bankEdge = .next t) :=
  ⟨inv_bankEdge.1, inv_bankEdge.2.1, by decide, ⟨_, rfl⟩, _, rfl⟩

/-- A division set to its counter exactly, and one lowered below it under `RESET_COUNTER_ON_CHANGE`. -/
theorem witness_BankInvariantsAndTheirRestoration_dadj :
    (∀ i, bankEdge.sel = some i → (bankEdge.cnt.get i).toNat ≤ (8#8).toNat) ∧ (∃ t, exec (.dadj 8) bankEdge = .next t) ∧
      Config.resetCounterOnChange (State.cfg { bankEdge with cfg := { divCfg with resetCounterOnChange := true } }) = true :=
  ⟨by decide, ⟨_, rfl⟩, by decide⟩

theorem witness_BankInvariantsAndTheirRestoration_fires :
    bankEdge.cfg.behavior = .div ∧ bankEdge.cnt.get 2 = 1 ∧ ∃ t, exec .tick bankEdge = .next t := ⟨rfl, rfl, _, rfl⟩

theorem witness_OutputsFollowTheHistory :
    replay (after .bas State.reset).out (⟨0, 0, 0, 0⟩, 0) = ((after .bas State.reset).aout, (after .bas State.reset).dout) ∧
      ∃ t, step { after .bas State.reset with port := [.cmd 0x11000000#32] } = .next t := ⟨by decide, _, rfl⟩

theorem witness_HistoryIsAppendOnly :
    List.head? (State.port { bank with port := [.cmd 0x01000000#32] }) ≠ some .rst ∧
      ∃ t, step { bank with port := [.cmd 0x01000000#32] } = .next t := ⟨by decide, _, rfl⟩

theorem witness_StatusFlagsAreStickyWithOneCauseEach :
    State.stBadop { bank with stBadop := true } = true ∧
      (after (.dadj 128) bank).stBadop ≠ bank.stBadop ∧ exec (.dadj 128) bank = .next (after (.dadj 128) bank) ∧
      (after .dsel bankFull).stIqovf ≠ bankFull.stIqovf ∧ exec .dsel bankFull = .next (after .dsel bankFull) :=
  ⟨by decide, by decide, rfl, by decide, rfl⟩

theorem witness_ConfigurationIsNeverWritten : ∃ t, step { bank with port := [.cmd 0x02000003#32, .rst] } = .next t := ⟨_, rfl⟩

theorem witness_IllegalOperandSetsOnlyItsFlag :
    (0#8).toNat = 0 ∧ 128 ≤ (128#8).toNat ∧ bank.cfg.nt ≤ (1#8).toNat ∧ (0#8).toNat < bank.cfg.nt ∧
      exec (.qnt 0 65535) bank = .next (after (.qnt 0 65535) bank) ∧
      exec (.epit 65535) editEnd = .next (after (.epit 65535) editEnd) ∧
      exec (.evel 0) editEnd = .next (after (.evel 0) editEnd) :=
  ⟨by decide, by decide, by decide, by decide, rfl, rfl, rfl⟩

theorem witness_InapplicableCommandsDoNothing :
    (editEnd.cfg.behavior = .seq ∧ 1 ≤ (127#8).toNat ∧ (127#8).toNat ≤ 127 ∧ editEnd.mode = .edit) ∧
      bank.cfg.behavior = .div ∧ ((paused 7).cfg.behavior = .seq ∧ (paused 7).mode = .play ∧ (paused 7).running = false) := by
  decide

theorem witness_OnlyItsCommandsWriteTheBank :
    exec .tick bankEdge = .next (after .tick bankEdge) ∧ (after .tick bankEdge).sel ≠ bankEdge.sel ∧
      (after .tick bankEdge).cnt ≠ bankEdge.cnt ∧ exec (.dadj 3) bankSel = .next (after (.dadj 3) bankSel) ∧
      (after (.dadj 3) bankSel).div ≠ bankSel.div ∧ (after (.dadj 3) bankSel).prevChoice ≠ bankSel.prevChoice :=
  ⟨rfl, by decide, by decide, rfl, by decide, by decide⟩

theorem witness_OnlyEditsWriteTheGrid :
    GridInv editEnd ∧ editEnd.cfg.writeOnPreview = false ∧ exec (.epit 0) editEnd = .next (after (.epit 0) editEnd) ∧
      (after (.epit 0) editEnd).cellAt 15 ≠ editEnd.cellAt 15 :=
  ⟨inv_editEnd.2.2.2.1, by decide, rfl, by decide⟩

theorem witness_OnlyEditsWriteTheGrid_preview :
    applyIntent .bas { editWrites with pos := 0 } = .next ((answer (applyIntent .bas { editWrites with pos := 0 })).getD bank) ∧
      ((answer (applyIntent .bas { editWrites with pos := 0 })).getD bank).cellAt 8 ≠ State.cellAt { editWrites with pos := 0 } 8 :=
  ⟨rfl, by decide⟩

theorem witness_EachControlFieldHasItsOwnWriters :
    editEnd.iq = [] ∧ exec .bbl editEnd = .next (after .bbl editEnd) ∧ (after .bbl editEnd).mode ≠ editEnd.mode ∧
      applyIntent .bal editEnd = .next (applyBal editEnd) ∧ (applyBal editEnd).activeRow ≠ editEnd.activeRow ∧
      exec .bbs editEnd = .next (after .bbs editEnd) ∧ (after .bbs editEnd).pos ≠ editEnd.pos ∧
      exec .bas (paused 7) = .next (after .bas (paused 7)) ∧ (after .bas (paused 7)).running ≠ (paused 7).running :=
  ⟨by decide, rfl, by decide, rfl, by decide, rfl, by decide, rfl, by decide⟩

theorem witness_DividerTickCountsFiresAndReloads : bankSel.cfg.behavior = .div ∧ bankSel.iq = [] := by decide

theorem witness_OutputsFireEveryDivisionTicks : Inv bankEdge ∧ bankEdge.cfg.behavior = .div := ⟨inv_bankEdge, rfl⟩

theorem witness_OutputFiresOncePerDivisionInEveryWindow :
    Inv bankEdge ∧ bankEdge.cfg.behavior = .div ∧ (bankEdge.cnt.get 1).toNat ≤ (bankEdge.div.get 1).toNat :=
  ⟨inv_bankEdge, rfl, by decide⟩

theorem witness_DivisionEditTakesEffectAtTheNextFiring :
    Inv bankEdge ∧ bankEdge.cfg.behavior = .div ∧ bankEdge.sel = some 3 ∧ 1 ≤ (1#8).toNat ∧ (1#8).toNat ≤ 127 ∧
      1#8 ≠ bankEdge.prevChoice := ⟨inv_bankEdge, by decide, by decide, by decide, by decide, by decide⟩

theorem witness_DadjWritesTheSelectedDivision :
    bankSel.cfg.behavior = .div ∧ 1 ≤ (127#8).toNat ∧ (127#8).toNat ≤ 127 ∧ bankSel.sel = some 0 ∧ 127#8 ≠ bankSel.prevChoice ∧
      bank.sel = none ∧ 4#8 = bankSel.prevChoice ∧ State.reset.cfg.behavior = .seq := by decide

theorem witness_DselMovesTheSelectionAtTheNextTick :
    bankEdge.cfg.behavior = .div ∧ bankEdge.iq.length < bankEdge.cfg.iqDepth ∧ bankFull.iq.length = bankFull.cfg.iqDepth ∧
      bank.iq = [] ∧ 1 ≤ bank.cfg.iqDepth ∧
      (bank.sel, some 0) ∈ [((none : Option (Fin 4)), (some 0 : Option (Fin 4))), (some 0, some 1), (some 1, some 2), (some 2, some 3),
        (some 3, none)] := by decide

theorem witness_FiveSelectionsReturnTheSelection : bankFive.iq = List.replicate 5 .dsel ∧ bankFive.cfg.notifyEn = true := by
  decide

theorem witness_PlayTickPlaysThenAdvances :
    (playing 7).cfg.Valid ∧ (playing 7).cfg.behavior = .seq ∧ (playing 7).mode = .play ∧ (playing 7).running = true ∧
      (playing 7).iq = [] ∧ (playing 7).pos.toNat < (playing 7).cfg.seqLen ∧
      editEnd.cfg.behavior = .seq ∧ editEnd.mode = .edit ∧ (paused 7).running = false := by decide

theorem witness_BasInEditPreviewsWithoutMoving :
    editEnd.cfg.Valid ∧ editEnd.cfg.behavior = .seq ∧ editEnd.mode = .edit ∧ editEnd.cfg.writeOnPreview = false ∧
      editEnd.pos.toNat < editEnd.cfg.seqLen := by decide

theorem witness_BasInPlayPausesAndResumes :
    ((paused 7).cfg.behavior = .seq ∧ (paused 7).mode = .play ∧ (paused 7).running = false) ∧
      Inv (playing 7) ∧ (playing 7).mode = .play ∧ (playing 7).running = true ∧ (playing 7).iq = [] :=
  ⟨by decide, inv_playing_idle, by decide⟩

theorem witness_BasWritesOnPreviewWhereConfigured :
    Inv editWrites ∧ editWrites.cfg.behavior = .seq ∧ editWrites.mode = .edit ∧ editWrites.cfg.writeOnPreview = true :=
  ⟨inv_editWrites, by decide⟩

theorem witness_BalCyclesTheActiveRow :
    editEnd.cfg.Valid ∧ editEnd.cfg.behavior = .seq ∧ editEnd.mode = .edit ∧ (paused 7).mode = .play := by decide

theorem witness_BbsAdvancesTheStepPointer :
    editEnd.cfg.Valid ∧ editEnd.cfg.behavior = .seq ∧ editEnd.mode = .edit ∧ editEnd.pos.toNat < editEnd.cfg.seqLen ∧
      editEnd.atLastStep = true ∧ (paused 7).mode = .play := by decide

theorem witness_NextStepsRoundTheRowRestartOnce : Inv editEnd ∧ editEnd.cfg.behavior = .seq ∧ editEnd.mode = .edit :=
  ⟨inv_editEnd, by decide⟩

theorem witness_BblTogglesTheMode :
    (editEnd.cfg.behavior = .seq ∧ editEnd.mode = .edit) ∧
      ((paused 7).cfg.behavior = .seq ∧ (paused 7).mode = .play ∧ (paused 7).running = false) ∧
      Inv (playing 7) ∧ (playing 7).mode = .play ∧ (playing 7).running = true ∧ (playing 7).iq = [] :=
  ⟨by decide, by decide, inv_playing_idle, by decide⟩

theorem witness_GatedIntentsAreQueuedOrDropped :
    (bank.gated = true ∧ bank.cfg.behavior = .div ∧ bank.iq.length ≠ bank.cfg.iqDepth) ∧
      (bankFull.gated = true ∧ bankFull.iq.length = bankFull.cfg.iqDepth) ∧
      (playing 7).gated = true ∧ (playing 7).cfg.behavior = .seq ∧
      (Instr.bbl, Intent.bbl) ∈ [(Instr.bas, Intent.bas), (.bal, .bal), (.bbs, .bbs), (.bbl, .bbl)] := by decide

theorem witness_DrainAppliesTheOldestIntentFirst :
    bank.cfg.behavior = .div ∧ bank.iq = [] ∧ bankFive.iq = .dsel :: [.dsel, .dsel, .dsel, .dsel] ∧
      (playing 7).cfg.behavior = .seq ∧ (playing 7).mode = .play ∧ (playing 7).running = true := by decide

theorem witness_DrainedIntentsSeeTheirPredecessors :
    Inv { playing 7 with iq := [.bas, .bas] } ∧ Inv { playing 7 with iq := [.bbl, .bbs] } ∧ (playing 7).cfg.behavior = .seq ∧
      (playing 7).mode = .play ∧ (playing 7).running = true ∧ 2 ≤ (playing 7).cfg.seqLen :=
  ⟨inv_playing, inv_playing_bbl, by decide⟩

/-- Knob 65535 maps to the last note, 200, which `editEnd` wrote last; knob 0 maps to another. -/
theorem witness_EpitWritesAChangedPitch :
    GridInv editEnd ∧ SequencerInv editEnd ∧ editEnd.cfg.behavior = .seq ∧ editEnd.mode = .edit ∧
      editEnd.cfg.tdesc[editEnd.cfg.chromaT]? = some ⟨0, 3⟩ ∧
      editEnd.cfg.tmem[(0#16).toNat + quantizeIndex editEnd.cfg.eps 65535 (3#16).toNat]? = some 200 ∧
      editEnd.lastPitch = some 200 ∧
      editEnd.cfg.tmem[(0#16).toNat + quantizeIndex editEnd.cfg.eps 0 (3#16).toNat]? = some 0 ∧ editEnd.lastPitch ≠ some 0 := by
  decide

theorem witness_EvelWritesAChangedVelocity :
    (GridInv editEnd ∧ SequencerInv editEnd ∧ editEnd.cfg.Valid ∧ editEnd.cfg.behavior = .seq ∧ editEnd.mode = .edit) ∧
      (65024#16).toNat = (65535#16).toNat / 2 ^ (16 - editEnd.cfg.velKeepBits) * 2 ^ (16 - editEnd.cfg.velKeepBits) ∧
      editEnd.lastVel ≠ some 65024 ∧ State.lastVel { editEnd with lastVel := some 65024 } = some 65024 := by decide

theorem witness_EvelAndEpitElsewhere : bank.cfg.behavior ≠ .seq ∧ (paused 7).mode ≠ .edit := by decide

theorem witness_VelocityMappingKeepsTheTopBits :
    1 ≤ Config.default.velKeepBits ∧ Config.default.velKeepBits ≤ 16 ∧ Config.default.velKeepBits = 7 ∧
      1 ≤ edgeCfg.velKeepBits ∧ edgeCfg.velKeepBits ≤ 16 := by decide

theorem witness_QuantizerIsTheExactFloorFormula :
    0 < Config.default.eps ∧ Config.default.eps < 1 ∧ 1 ≤ 1 ∧ edgeCfg.tdesc[1]? = some ⟨0, 3⟩ := by decide

theorem witness_QuantizerIndexBounds : (6#16).toNat ≤ (7#16).toNat ∧ 1 ≤ 10000 ∧ 10000 ≤ 10000 ∧ 10000 < 10001 := by decide

theorem witness_QuantizerIdempotenceReadings :
    (2 ≤ 100 ∧ 100 * (100 - 1) ≤ 10000 ∧ 99 < 100) ∧ (1 ≤ 5000 ∧ 5000 ≤ 5000 ∧ 4999 < 5000) ∧
      (10000 ≤ 10000 ∧ 1 ≤ 9999 ∧ 9999 < 10000) := by decide

theorem witness_QntEmitsTheNoteAndChangesNothingElse :
    (State.resetOf edgeCfg).cfg.Valid ∧ (1#8).toNat < (State.resetOf edgeCfg).cfg.nt ∧
      (State.resetOf edgeCfg).cfg.nt ≤ (2#8).toNat := by decide

theorem witness_LinkRecordIsReadBackOrIgnored : Inv bankEdge ∧ ([1, 2, 3, 4] : List Byte).length ≠ 5 :=
  ⟨inv_bankEdge, by decide⟩

theorem witness_TempoIsTheMeanOfTheLatestSamples :
    1 ≤ Config.default.tempo.capacity ∧ ∀ r ∈ ([0, 1, 0] : List Rat), 0 ≤ r ∧ r ≤ 1 := by decide

/-- A full window whose samples reach both bounds. -/
def bothBounds : ClockState := ⟨60, .internal, [30, 90], false, false, 0⟩

theorem witness_TempoStaysWithinItsBounds :
    (⟨2, 30, 90⟩ : TempoConfig).Valid ∧ bothBounds.Inv ⟨2, 30, 90⟩ ∧ ((0 : Rat) ≤ 0 ∧ (0 : Rat) ≤ 1) ∧ ((0 : Rat) ≤ 1 ∧ (1 : Rat) ≤ 1) ∧
      (clockWait ⟨2, 30, 90⟩ true 0 [] bothBounds).isSome = true ∧
      (clockWait ⟨2, 30, 90⟩ true 0 [true, false] { bothBounds with source := .external }).isSome = true ∧
      ((-1 : Rat) < 0 ∧ (1 : Rat) < 2) :=
  ⟨by decide, ⟨rfl, by decide, by norm_num [windowMean, bothBounds]⟩, by decide, by decide, by decide, by decide, by decide⟩

theorem witness_ExternalTickIsOneWholePulse :
    (clockFilled Config.default.tempo .external 120 false).lastLevel = !true ∧
      (clockFilled Config.default.tempo .external 120 false).risen = false := ⟨rfl, rfl⟩

/-- One note: whatever the free effective length is, it is 1. -/
def oneNote : ArpState := ⟨[[60]], 0, true, 1, ⟨0, 0, 0, 0⟩, 0⟩

theorem witness_ArpeggiatorWalksForwardThenBack :
    ArpState.step oneNote = 0 ∧ ArpState.biForward oneNote = true ∧
      ArpState.notes oneNote ≠ [] ∧
      ArpState.effectiveLength oneNote = (ArpState.notes oneNote).length ∧
      [0, 0].length = 2 * (ArpState.notes oneNote).length ∧
      ∀ d ∈ [0, 0], d < (ArpState.notes oneNote).length := by
  refine ⟨rfl, rfl, by decide, ?_, rfl, by decide⟩
  simp only [ArpState.effectiveLength, ArpState.notes, oneNote, List.headD_cons, List.length_singleton]
  omega

theorem witness_ArpeggiatorTickWritesFourOutputs :
    oneNote.step < oneNote.effectiveLength ∧ oneNote.notes[0]? = some 60 :=
  ⟨by rw [witness_ArpeggiatorWalksForwardThenBack.2.2.2.1]; decide, rfl⟩

end Sys2Proof.Tests
end

section
/-!
The step on a decodable word, and the reset state of a valid configuration: each named part of `Inv` holds right after reset.
-/
namespace Sys2Proof.Machine

/-! The step. -/

/-- A word at the head of the port is the next thing taken. -/
theorem takeEvent_of_port_cons {s : State} {e : PortEvent} {rest : List PortEvent} (h : s.port = e :: rest) :
    takeEvent s = some (e, { s with port := rest }) := by
  simp only [takeEvent, h]

/-- A decodable word at the head of the port is executed on the state with the word taken (R7, R65). -/
theorem step_of_decode_ok {s : State} {w : CmdWord} {rest : List PortEvent} {i : Instr}
    (hport : s.port = .cmd w :: rest) (hdecode : decode w = .ok i) : step s = exec i { s with port := rest } := by
  simp only [step, takeEvent_of_port_cons hport, hdecode]

/-- Settles O6. -/
theorem stepRunsTheDecodedCommand : Obligations.StepRunsTheDecodedCommand :=
  fun _ _ _ _ hport hdecode => step_of_decode_ok hport hdecode

/-! The parts of the invariant at reset. -/

theorem reset_bankInv {c : Config} (h : lanesLegal c.divInit) : BankInv (State.resetOf c) :=
  ⟨h, h, Nat.zero_le _⟩

theorem reset_sequencerInv {c : Config} (hseqLen : 1 ≤ c.seqLen) (hrows : 1 ≤ c.rows) :
    SequencerInv (State.resetOf c) :=
  ⟨hseqLen, hrows, fun hrunning => nomatch hrunning⟩

theorem reset_queueInv (c : Config) : QueueInv (State.resetOf c) :=
  ⟨fun _ => rfl, Nat.zero_le _, fun _ hmem => nomatch hmem⟩

theorem reset_idleInv (c : Config) : IdleInv (State.resetOf c) :=
  ⟨fun _ => ⟨rfl, rfl, rfl, rfl⟩, fun _ => ⟨rfl, rfl, rfl, rfl, rfl, rfl, rfl, rfl⟩⟩

theorem reset_inv {c : Config} (h : c.Valid) : Inv (State.resetOf c) := by
  have ⟨⟨hseqLen, _⟩, ⟨hrows, _⟩, hdiv, _⟩ := h
  exact ⟨h, reset_bankInv hdiv, reset_sequencerInv hseqLen hrows, reset_gridInv c, reset_queueInv c, reset_idleInv c, rfl⟩

/-- Settles O12: the reset state meets each part of `Inv`. -/
theorem everyValidConfigurationResetsInsideTheInvariant : Obligations.EveryValidConfigurationResetsInsideTheInvariant :=
  fun _ h => reset_inv h

end Sys2Proof.Machine
end

section
/-!
Construction (R10, R147): the condition of each cause in the words of the table, the cause reported as the least one in the
order of the codes, and the configuration kept from a record that breaks no condition.
-/
namespace Sys2Proof.Machine

/-! The condition of each cause. -/

theorem violates_seqLen_iff (r : ConfigRecord) : violates r .seqLen = true ↔ r.seqLen < 1 ∨ r.seqLen > 256 := by
  simp [violates]

theorem violates_rows_iff (r : ConfigRecord) : violates r .rows = true ↔ r.rows < 1 ∨ 2 * r.rows > 4 := by
  simp [violates]

theorem violates_divInit_iff (r : ConfigRecord) :
    violates r .divInit = true ↔ r.d ≠ 4 ∨ r.divInit.length ≠ 4 ∨ ∃ d ∈ r.divInit, d < 1 ∨ 127 < d := by
  simp [violates, or_assoc]

/-- R147's cause 3: where `D` is the number of the divisions, it alone need be compared with 4. -/
theorem violates_divInit_iff_of_length {r : ConfigRecord} (hd : r.d = r.divInit.length) :
    violates r .divInit = true ↔ (∃ d ∈ r.divInit, d < 1 ∨ 127 < d) ∨ r.d ≠ 4 := by
  have hlen : r.divInit.length ≠ 4 ↔ r.d ≠ 4 := by omega
  rw [violates_divInit_iff, hlen, ← or_assoc, or_self, or_comm]

theorem violates_table_iff (r : ConfigRecord) :
    violates r .table = true ↔ r.tdesc.length < 1 ∨ r.tdesc.length > 256 ∨
      (∃ d ∈ r.tdesc, d.len < 1 ∨ d.base + d.len > r.tmem.length) ∨ r.tmem.length > 65536 ∨
      r.chromaT < 0 ∨ r.chromaT ≥ r.tdesc.length := by
  simp [violates, or_assoc]

theorem violates_eps_iff (r : ConfigRecord) : violates r .eps = true ↔ r.eps ≤ 0 ∨ r.eps ≥ 1 := by
  simp [violates]

theorem violates_iq_iff (r : ConfigRecord) : violates r .iq = true ↔ r.iqDepth < 1 := by
  simp [violates]

theorem violates_velBits_iff (r : ConfigRecord) :
    violates r .velBits = true ↔ r.velKeepBits < 1 ∨ r.velKeepBits > 16 := by
  simp [violates]

theorem violates_behavior_iff (r : ConfigRecord) : violates r .behavior = true ↔ r.behavior = none := by
  simp [violates]

theorem behavior_eq_none_iff (o : Option Behavior) : o = none ↔ o ≠ some .div ∧ o ≠ some .seq := by
  match o with
  | none => simp
  | some .div => simp
  | some .seq => simp

theorem violates_tempo_iff (r : ConfigRecord) :
    violates r .tempo = true ↔ r.minBpm ≤ 0 ∨ r.maxBpm < r.minBpm ∨ r.capacity < 1 := by
  simp [violates, or_assoc]

theorem outside16_iff (x : Int) : outside16 x = true ↔ x < 0 ∨ 65535 < x := by
  simp [outside16]

theorem violates_uncoded_iff (r : ConfigRecord) :
    violates r .uncoded = true ↔ (∃ d ∈ r.divChoices, d < 1 ∨ 127 < d) ∨ r.timing.pulseWidth ≤ 0 ∨
      r.timing.patternPulseWidth ≤ r.timing.pulseWidth ∨ r.divMax ≠ 127 ∨
      (∃ x ∈ [r.defaultPitch, r.defaultVel] ++ r.tmem, x < 0 ∨ 65535 < x) ∨
      ∃ d ∈ r.tdesc, d.base < 0 ∨ 65535 < d.base ∨ d.len < 0 ∨ 65535 < d.len := by
  simp [violates, outside16_iff, or_assoc]

/-! The order in which causes are reported. -/

/-- The place of a cause in the order of reporting: its code, or 10, after every code. -/
def reportPlace (e : ConfigError) : Nat := (causeCode e).getD 10

theorem causeCode_lt_ten {e : ConfigError} {n : Nat} (h : causeCode e = some n) : n < 10 := by
  cases e <;> simp [causeCode] at h <;> omega

/-- A cause is reported before another: its code is lower, or it alone has a code (R147, log entry 10). -/
def ReportedBefore (e' e : ConfigError) : Prop :=
  match causeCode e', causeCode e with
  | some m, some n => m < n
  | some _, none => True
  | none, _ => False

theorem reportedBefore_iff (e' e : ConfigError) : ReportedBefore e' e ↔ reportPlace e' < reportPlace e := by
  unfold ReportedBefore reportPlace
  cases h' : causeCode e' with
  | none =>
    cases h : causeCode e with
    | none => simp
    | some n => simpa using (causeCode_lt_ten h).le
  | some m =>
    cases h : causeCode e with
    | none => simpa using causeCode_lt_ten h'
    | some n => simp

theorem allCauses_sorted : allCauses.Pairwise (fun a b => reportPlace a < reportPlace b) := by
  decide

theorem mem_allCauses (e : ConfigError) : e ∈ allCauses := by
  cases e <;> decide

/-- In a list sorted by `f` the first element that meets `p` is the one of least `f`. -/
theorem find?_eq_some_iff_of_sorted {α : Type} {f : α → Nat} {p : α → Bool} {e : α} {xs : List α}
    (hs : xs.Pairwise (fun a b => f a < f b)) (he : e ∈ xs) :
    xs.find? p = some e ↔ p e = true ∧ ∀ a ∈ xs, f a < f e → p a = false := by
  constructor
  · intro h
    obtain ⟨hp, as, bs, rfl, has⟩ := List.find?_eq_some_iff_append.1 h
    refine ⟨hp, fun a ha hlt => ?_⟩
    obtain ⟨_, htail, _⟩ := List.pairwise_append.1 hs
    rcases List.mem_append.1 ha with ha | ha
    · simpa using has a ha
    · rcases List.mem_cons.1 ha with rfl | ha
      · exact absurd hlt (lt_irrefl _)
      · exact absurd hlt (List.rel_of_pairwise_cons htail ha).not_gt
  · rintro ⟨hp, hbefore⟩
    obtain ⟨as, bs, rfl⟩ := List.append_of_mem he
    obtain ⟨_, _, hlt⟩ := List.pairwise_append.1 hs
    refine List.find?_eq_some_iff_append.2 ⟨hp, as, bs, rfl, fun a ha => ?_⟩
    simp [hbefore a (List.mem_append_left _ ha) (hlt a ha e List.mem_cons_self)]

theorem firstError_eq_some_iff (r : ConfigRecord) (e : ConfigError) :
    firstError r = some e ↔ violates r e = true ∧ ∀ e', ReportedBefore e' e → violates r e' = false := by
  simp only [firstError, find?_eq_some_iff_of_sorted allCauses_sorted (mem_allCauses e), reportedBefore_iff,
    mem_allCauses, true_imp_iff]

theorem firstError_eq_none_iff (r : ConfigRecord) : firstError r = none ↔ ∀ e, violates r e = false := by
  simp [firstError, mem_allCauses]

/-! What `construct` answers. -/

/-- The last branch of `construct` is never taken: without a behaviour, cause 8 holds. -/
theorem behavior_ne_none_of_firstError_eq_none {r : ConfigRecord} (h : firstError r = none) : r.behavior ≠ none := by
  intro hb
  have := (firstError_eq_none_iff r).1 h .behavior
  rw [(violates_behavior_iff r).2 hb] at this
  contradiction

theorem construct_eq_error_iff (r : ConfigRecord) (e : ConfigError) : construct r = .error e ↔ firstError r = some e := by
  unfold construct
  cases hf : firstError r with
  | some e' => simp
  | none =>
    cases hb : r.behavior with
    | some b => simp
    | none => exact absurd hb (behavior_ne_none_of_firstError_eq_none hf)

theorem construct_eq_ok_iff (r : ConfigRecord) (s : State) :
    construct r = .ok s ↔
      (∀ e, violates r e = false) ∧ ∃ b, r.behavior = some b ∧ s = State.resetOf (configOf r b) := by
  rw [← firstError_eq_none_iff]
  unfold construct
  cases firstError r with
  | some e => simp
  | none =>
    cases r.behavior with
    | some b => simp [eq_comm]
    | none => simp

/-- Settles O13: a list sorted by the order of reporting is searched from its front. -/
theorem constructionReportsTheLowestCause : Obligations.ConstructionReportsTheLowestCause := by
  refine ⟨rfl, rfl, fun r e => ?_, fun r => ?_⟩
  · exact (construct_eq_error_iff r e).trans (firstError_eq_some_iff r e)
  · exact ⟨violates_seqLen_iff r, violates_rows_iff r, violates_divInit_iff_of_length, violates_table_iff r,
      violates_eps_iff r, violates_iq_iff r, violates_velBits_iff r,
      (violates_behavior_iff r).trans (behavior_eq_none_iff _), violates_tempo_iff r, violates_uncoded_iff r⟩

/-! A record that passes. -/

/-- The ranges of R9 and R34 that a record which breaks no condition meets. -/
structure Accepted (r : ConfigRecord) : Prop where
  seqLen : 1 ≤ r.seqLen ∧ r.seqLen ≤ 256
  rows : 1 ≤ r.rows ∧ 2 * r.rows ≤ 4
  divLength : r.divInit.length = 4
  divInit : ∀ d ∈ r.divInit, 1 ≤ d ∧ d ≤ 127
  tableCount : 1 ≤ r.tdesc.length ∧ r.tdesc.length ≤ 256
  tableFits : ∀ d ∈ r.tdesc, 1 ≤ d.len ∧ d.base + d.len ≤ r.tmem.length
  tmemLength : r.tmem.length ≤ 65536
  chromaT : 0 ≤ r.chromaT ∧ r.chromaT < r.tdesc.length
  eps : 0 < r.eps ∧ r.eps < 1
  iqDepth : 1 ≤ r.iqDepth
  velKeepBits : 1 ≤ r.velKeepBits ∧ r.velKeepBits ≤ 16
  tempo : 0 < r.minBpm ∧ r.minBpm ≤ r.maxBpm
  capacity : 1 ≤ r.capacity
  divChoices : ∀ d ∈ r.divChoices, 1 ≤ d ∧ d ≤ 127
  timing : 0 < r.timing.pulseWidth ∧ r.timing.pulseWidth < r.timing.patternPulseWidth
  divMax : r.divMax = 127
  codes : ∀ x ∈ [r.defaultPitch, r.defaultVel] ++ r.tmem, 0 ≤ x ∧ x ≤ 65535
  tableFields : ∀ d ∈ r.tdesc, (0 ≤ d.base ∧ d.base ≤ 65535) ∧ 0 ≤ d.len ∧ d.len ≤ 65535

theorem accepted_of_no_violation {r : ConfigRecord} (h : ∀ e, violates r e = false) : Accepted r := by
  have no (e : ConfigError) : ¬ violates r e = true := by simp [h e]
  have hseqLen := no .seqLen
  have hrows := no .rows
  have hdivInit := no .divInit
  have htable := no .table
  have heps := no .eps
  have hiq := no .iq
  have hvelBits := no .velBits
  have htempo := no .tempo
  have huncoded := no .uncoded
  simp only [violates_seqLen_iff, violates_rows_iff, violates_divInit_iff, violates_table_iff, violates_eps_iff,
    violates_iq_iff, violates_velBits_iff, violates_tempo_iff, violates_uncoded_iff, not_or, not_exists, not_and, not_lt,
    not_le, ge_iff_le, gt_iff_lt, ne_eq, not_not]
    at hseqLen hrows hdivInit htable heps hiq hvelBits htempo huncoded
  obtain ⟨_, hlength, hdivisions⟩ := hdivInit
  obtain ⟨hmin, hmax, hfits, htmem, hchroma⟩ := htable
  obtain ⟨hbpm, hbounds, hcapacity⟩ := htempo
  obtain ⟨hchoices, hwidth, hpattern, hdivMax, hcodes, hfields⟩ := huncoded
  exact {
    seqLen := hseqLen, rows := hrows, divLength := hlength, divInit := hdivisions, tableCount := ⟨hmin, hmax⟩
    tableFits := hfits, tmemLength := htmem, chromaT := hchroma, eps := heps, iqDepth := hiq, velKeepBits := hvelBits
    tempo := ⟨hbpm, hbounds⟩, capacity := hcapacity, divChoices := hchoices, timing := ⟨hwidth, hpattern⟩
    divMax := hdivMax, codes := hcodes, tableFields := fun d hd => and_assoc.2 (hfields d hd) }

/-! Numbers at the width of their registers. -/

theorem toNat_ofInt_of_bounds {w : Nat} {x : Int} (h0 : 0 ≤ x) (h : x < 2 ^ w) : ((BitVec.ofInt w x).toNat : Int) = x := by
  rw [BitVec.toNat_ofInt, Nat.cast_pow, Nat.cast_ofNat, Int.emod_eq_of_lt h0 h, Int.toNat_of_nonneg h0]

theorem toNat_ofInt_division {x : Int} (h : 1 ≤ x ∧ x ≤ 127) : ((BitVec.ofInt 8 x).toNat : Int) = x :=
  toNat_ofInt_of_bounds (by omega) (by omega)

theorem toNat_ofInt_code {x : Int} (h : 0 ≤ x ∧ x ≤ 65535) : ((BitVec.ofInt 16 x).toNat : Int) = x :=
  toNat_ofInt_of_bounds h.1 (by omega)

/-- Writing every entry at a register's width and reading it back leaves the list. -/
theorem map_map_of_leftInverse {α β : Type} {f : α → β} {g : β → α} {xs : List α} (h : ∀ x ∈ xs, g (f x) = x) :
    (xs.map f).map g = xs := by
  rw [List.map_map]
  exact (List.map_congr_left h).trans (List.map_id xs)

/-! The configuration kept. -/

/-- Each initial division is the record's, at the width of the register. -/
theorem configOf_divInit_get {r : ConfigRecord} (b : Behavior) (h : Accepted r) (i : Fin 4) :
    r.divInit[i.val]? = some (((configOf r b).divInit.get i).toNat : Int) := by
  have hi : i.val < r.divInit.length := by rw [h.divLength]; exact i.isLt
  have hlane : (configOf r b).divInit.get i = initialDivision r i.val := by
    match i with
    | 0 => rfl
    | 1 => rfl
    | 2 => rfl
    | 3 => rfl
  rw [hlane, initialDivision, List.getElem?_eq_getElem hi, Option.getD_some,
    toNat_ofInt_division (h.divInit _ (List.getElem_mem hi))]

theorem configOf_lanesLegal {r : ConfigRecord} (b : Behavior) (h : Accepted r) : lanesLegal (configOf r b).divInit := by
  rw [lanesLegal_iff]
  intro i
  have := h.divInit _ (List.mem_of_getElem? (configOf_divInit_get b h i))
  omega

theorem configOf_tableFits {r : ConfigRecord} (b : Behavior) (h : Accepted r) :
    ∀ d ∈ (configOf r b).tdesc, 1 ≤ d.len.toNat ∧ d.base.toNat + d.len.toNat ≤ (configOf r b).tmem.length := by
  simp only [configOf, List.forall_mem_map, List.length_map]
  intro d hd
  have hfits := h.tableFits d hd
  obtain ⟨hbase, hlen⟩ := h.tableFields d hd
  have := toNat_ofInt_code hbase
  have := toNat_ofInt_code hlen
  omega

theorem configOf_divChoices {r : ConfigRecord} (b : Behavior) (h : Accepted r) :
    ∀ d ∈ (configOf r b).divChoices, 1 ≤ d.toNat ∧ d.toNat ≤ 127 := by
  simp only [configOf, List.forall_mem_map]
  intro d hd
  have hd := h.divChoices d hd
  have := toNat_ofInt_division hd
  omega

/-! The counts, as the integers of the record. -/

theorem configOf_rows {r : ConfigRecord} (b : Behavior) (h : Accepted r) : ((configOf r b).rows : Int) = r.rows :=
  Int.toNat_of_nonneg (Int.le_of_lt h.rows.1)

theorem configOf_seqLen {r : ConfigRecord} (b : Behavior) (h : Accepted r) : ((configOf r b).seqLen : Int) = r.seqLen :=
  Int.toNat_of_nonneg (Int.le_of_lt h.seqLen.1)

theorem configOf_velKeepBits {r : ConfigRecord} (b : Behavior) (h : Accepted r) :
    ((configOf r b).velKeepBits : Int) = r.velKeepBits :=
  Int.toNat_of_nonneg (Int.le_of_lt h.velKeepBits.1)

theorem configOf_chromaT {r : ConfigRecord} (b : Behavior) (h : Accepted r) : ((configOf r b).chromaT : Int) = r.chromaT :=
  Int.toNat_of_nonneg h.chromaT.1

theorem configOf_iqDepth {r : ConfigRecord} (b : Behavior) (h : Accepted r) : ((configOf r b).iqDepth : Int) = r.iqDepth :=
  Int.toNat_of_nonneg (Int.le_of_lt h.iqDepth)

theorem configOf_capacity {r : ConfigRecord} (b : Behavior) (h : Accepted r) :
    ((configOf r b).tempo.capacity : Int) = r.capacity :=
  Int.toNat_of_nonneg (Int.le_of_lt h.capacity)

theorem configOf_nt (r : ConfigRecord) (b : Behavior) : (configOf r b).nt = r.tdesc.length := List.length_map _

theorem configOf_tmem_length (r : ConfigRecord) (b : Behavior) : (configOf r b).tmem.length = r.tmem.length :=
  List.length_map _

theorem configOf_valid {r : ConfigRecord} (b : Behavior) (h : Accepted r) : (configOf r b).Valid := by
  have hseqLen : 1 ≤ (configOf r b).seqLen ∧ (configOf r b).seqLen ≤ 256 := by
    have := h.seqLen
    have := configOf_seqLen b h
    omega
  have hrows : 1 ≤ (configOf r b).rows ∧ 2 * (configOf r b).rows ≤ 4 := by
    have := h.rows
    have := configOf_rows b h
    omega
  have hchroma : (configOf r b).chromaT < (configOf r b).nt := by
    have := h.chromaT
    have := configOf_chromaT b h
    have := configOf_nt r b
    omega
  have hiq : 1 ≤ (configOf r b).iqDepth := by
    have := h.iqDepth
    have := configOf_iqDepth b h
    omega
  have hvel : 1 ≤ (configOf r b).velKeepBits ∧ (configOf r b).velKeepBits ≤ 16 := by
    have := h.velKeepBits
    have := configOf_velKeepBits b h
    omega
  have hcapacity : 1 ≤ (configOf r b).tempo.capacity := by
    have := h.capacity
    have := configOf_capacity b h
    omega
  exact ⟨hseqLen, hrows, configOf_lanesLegal b h, configOf_nt r b ▸ h.tableCount, configOf_tableFits b h,
    configOf_tmem_length r b ▸ h.tmemLength, hchroma, h.eps, hiq, hvel, ⟨h.tempo.1, h.tempo.2, hcapacity⟩,
    configOf_divChoices b h, h.timing⟩

/-- Settles O14: a record that passes is within the widths of its registers, so nothing is lost in the configuration. -/
theorem constructionKeepsTheParameters : Obligations.ConstructionKeepsTheParameters := by
  intro r s hs
  obtain ⟨hpass, b, hb, rfl⟩ := (construct_eq_ok_iff r s).1 hs
  have h := accepted_of_no_violation hpass
  have hpitch := h.codes r.defaultPitch (by simp)
  have hvel := h.codes r.defaultVel (by simp)
  have htmem (x : Int) (hx : x ∈ r.tmem) := toNat_ofInt_code (h.codes x (List.mem_append_right _ hx))
  have htdesc (d : TableDescRecord) (hd : d ∈ r.tdesc) :
      (⟨((BitVec.ofInt 16 d.base).toNat : Int), ((BitVec.ofInt 16 d.len).toNat : Int)⟩ : TableDescRecord) = d := by
    obtain ⟨hbase, hlen⟩ := h.tableFields d hd
    rw [toNat_ofInt_code hbase, toNat_ofInt_code hlen]
  have hchoices (x : Int) (hx : x ∈ r.divChoices) := toNat_ofInt_division (h.divChoices x hx)
  exact ⟨rfl, configOf_valid b h, hb.symm, configOf_divInit_get b h, configOf_rows b h, configOf_seqLen b h,
    configOf_velKeepBits b h, configOf_chromaT b h, configOf_iqDepth b h, rfl, map_map_of_leftInverse htdesc,
    map_map_of_leftInverse htmem, toNat_ofInt_code hpitch, toNat_ofInt_code hvel, h.divMax, rfl, rfl, rfl,
    map_map_of_leftInverse hchoices, rfl, configOf_capacity b h, rfl, rfl⟩

end Sys2Proof.Machine
end

section
/-!
What commands are made of. `Applied` says once what an intent's application can do, `Effect` what one part of a command can do,
and `exec_effects` that a command is a sequence of such parts. An invariant is then one case analysis on `Effect`.
-/
namespace Sys2Proof.Machine

/-! What `advance` and the divider step leave as it is (R93, R111), field by field. -/

@[simp] theorem advance_cfg (s : State) : (advance s).cfg = s.cfg := by rw [advance_eq]; split <;> rfl
@[simp] theorem advance_div (s : State) : (advance s).div = s.div := by rw [advance_eq]; split <;> rfl
@[simp] theorem advance_cnt (s : State) : (advance s).cnt = s.cnt := by rw [advance_eq]; split <;> rfl
@[simp] theorem advance_sel (s : State) : (advance s).sel = s.sel := by rw [advance_eq]; split <;> rfl
@[simp] theorem advance_prevChoice (s : State) : (advance s).prevChoice = s.prevChoice := by rw [advance_eq]; split <;> rfl
@[simp] theorem advance_steps (s : State) : (advance s).steps = s.steps := by rw [advance_eq]; split <;> rfl
@[simp] theorem advance_activeRow (s : State) : (advance s).activeRow = s.activeRow := by rw [advance_eq]; split <;> rfl
@[simp] theorem advance_mode (s : State) : (advance s).mode = s.mode := by rw [advance_eq]; split <;> rfl
@[simp] theorem advance_running (s : State) : (advance s).running = s.running := by rw [advance_eq]; split <;> rfl
@[simp] theorem advance_lastPitch (s : State) : (advance s).lastPitch = s.lastPitch := by rw [advance_eq]; split <;> rfl
@[simp] theorem advance_lastVel (s : State) : (advance s).lastVel = s.lastVel := by rw [advance_eq]; split <;> rfl
@[simp] theorem advance_iq (s : State) : (advance s).iq = s.iq := by rw [advance_eq]; split <;> rfl
@[simp] theorem advance_stBadcmd (s : State) : (advance s).stBadcmd = s.stBadcmd := by rw [advance_eq]; split <;> rfl
@[simp] theorem advance_stBadop (s : State) : (advance s).stBadop = s.stBadop := by rw [advance_eq]; split <;> rfl
@[simp] theorem advance_stIqovf (s : State) : (advance s).stIqovf = s.stIqovf := by rw [advance_eq]; split <;> rfl
@[simp] theorem advance_aout (s : State) : (advance s).aout = s.aout := by rw [advance_eq]; split <;> rfl
@[simp] theorem advance_port (s : State) : (advance s).port = s.port := by rw [advance_eq]; split <;> rfl
@[simp] theorem divOnTick_cfg (s : State) : (divOnTick s).cfg = s.cfg := by rw [divOnTick_eq]
@[simp] theorem divOnTick_div (s : State) : (divOnTick s).div = s.div := by rw [divOnTick_eq]
@[simp] theorem divOnTick_sel (s : State) : (divOnTick s).sel = s.sel := by rw [divOnTick_eq]
@[simp] theorem divOnTick_prevChoice (s : State) : (divOnTick s).prevChoice = s.prevChoice := by rw [divOnTick_eq]
@[simp] theorem divOnTick_steps (s : State) : (divOnTick s).steps = s.steps := by rw [divOnTick_eq]
@[simp] theorem divOnTick_pos (s : State) : (divOnTick s).pos = s.pos := by rw [divOnTick_eq]
@[simp] theorem divOnTick_activeRow (s : State) : (divOnTick s).activeRow = s.activeRow := by rw [divOnTick_eq]
@[simp] theorem divOnTick_mode (s : State) : (divOnTick s).mode = s.mode := by rw [divOnTick_eq]
@[simp] theorem divOnTick_running (s : State) : (divOnTick s).running = s.running := by rw [divOnTick_eq]
@[simp] theorem divOnTick_lastPitch (s : State) : (divOnTick s).lastPitch = s.lastPitch := by rw [divOnTick_eq]
@[simp] theorem divOnTick_lastVel (s : State) : (divOnTick s).lastVel = s.lastVel := by rw [divOnTick_eq]
@[simp] theorem divOnTick_iq (s : State) : (divOnTick s).iq = s.iq := by rw [divOnTick_eq]
@[simp] theorem divOnTick_stBadcmd (s : State) : (divOnTick s).stBadcmd = s.stBadcmd := by rw [divOnTick_eq]
@[simp] theorem divOnTick_stBadop (s : State) : (divOnTick s).stBadop = s.stBadop := by rw [divOnTick_eq]
@[simp] theorem divOnTick_stIqovf (s : State) : (divOnTick s).stIqovf = s.stIqovf := by rw [divOnTick_eq]
@[simp] theorem divOnTick_aout (s : State) : (divOnTick s).aout = s.aout := by rw [divOnTick_eq]
@[simp] theorem divOnTick_port (s : State) : (divOnTick s).port = s.port := by rw [divOnTick_eq]

/-! The sequencer's play step and the writes of a preview, as record updates. -/

theorem playRows_eq {rs : List Nat} {s t : State} (h : playRows rs s = .next t) :
    ∃ a es, t = { s with aout := a, out := s.out ++ es } := by
  induction rs generalizing s with
  | nil => cases h; exact ⟨t.aout, [], by simp⟩
  | cons r rs ih =>
    obtain ⟨u, hrow, hrows⟩ := andThen_spec _ _ _ h
    obtain ⟨_, jp, jv, _, rfl⟩ := playRow_spec r s u hrow
    obtain ⟨a, es, rfl⟩ := ih hrows
    exact ⟨a, [.analog jp (s.rowCell r).pitch, .analog jv (s.rowCell r).vel] ++ es, by simp [State.emit]⟩

/-- `play_step` appends to the history, sets analog outputs, and leaves every digital output low (R112). -/
theorem playStep_eq {s t : State} (h : playStep s = .next t) :
    ∃ a es, t = { s with aout := a, dout := 0, out := s.out ++ es } := by
  obtain ⟨u, hrows, hpulse⟩ := andThen_spec _ _ _ h
  obtain ⟨a, es, rfl⟩ := playRows_eq hrows
  cases hpulse
  exact ⟨a, es ++ [.dlev 0b0001#4, .dlev 0], by simp [State.pulse, State.emit]⟩

theorem seqPlayTick_eq {s t : State} (h : seqPlayTick s = .next t) :
    ∃ a es, t = advance { s with aout := a, dout := 0, out := s.out ++ es } := by
  obtain ⟨u, hplay, hadvance⟩ := andThen_spec _ _ _ h
  obtain ⟨a, es, rfl⟩ := playStep_eq hplay
  cases hadvance
  exact ⟨a, es, rfl⟩

/-- What the application of an intent can do (R95, R107 to R110). -/
inductive Applied : Intent → State → State → Prop
  | select (s : State) : Applied .dsel s (applyDsel s)
  | preview {s : State} (m : Memory) (a : Lanes Code) (es : List Event) (hmode : s.mode = .edit)
      (hgrid : GridInv s → GridInv { s with steps := m }) :
      Applied .bas s { s with steps := m, aout := a, dout := 0, out := s.out ++ es }
  | pause {s : State} (hmode : s.mode = .play) : Applied .bas s { s with running := !s.running }
  | nextRow {s : State} (hmode : s.mode = .edit) :
      Applied .bal s { s with activeRow := BitVec.ofNat 8 ((s.activeRow.toNat + 1) % s.cfg.rows) }
  | balInPlay {s : State} (hmode : s.mode = .play) : Applied .bal s s
  | nextStep {s : State} (hmode : s.mode = .edit) : Applied .bbs s (advance s)
  | bbsInPlay {s : State} (hmode : s.mode = .play) : Applied .bbs s s
  | enterPlay {s : State} (hmode : s.mode = .edit) : Applied .bbl s { s with mode := .play, running := true }
  | enterEdit {s : State} (hmode : s.mode = .play) : Applied .bbl s { s with mode := .edit, running := false, pos := 0 }

theorem applied_of_applyBas {s t : State} (h : applyBas s = .next t) : Applied .bas s t := by
  unfold applyBas at h
  split at h
  · next hmode =>
    obtain ⟨u, hwrite, hplay⟩ := andThen_spec _ _ _ h
    obtain ⟨hu, _, _, hgrid⟩ := previewWrite_spec s u hwrite
    obtain ⟨m, rfl⟩ : ∃ m, u = { s with steps := m } := ⟨_, hu⟩
    obtain ⟨a, es, rfl⟩ := playStep_eq hplay
    exact .preview m a es hmode hgrid
  · next hmode => cases h; exact .pause hmode

theorem applied_of_applyIntent {c : Intent} {s t : State} (h : applyIntent c s = .next t) : Applied c s t := by
  cases c with
  | dsel => cases h; exact .select s
  | bas => exact applied_of_applyBas h
  | bal =>
    cases h
    unfold applyBal
    split
    · next hmode => exact .nextRow hmode
    · next hmode => exact .balInPlay hmode
  | bbs =>
    cases h
    unfold applyBbs
    split
    · next hmode => exact .nextStep hmode
    · next hmode => exact .bbsInPlay hmode
  | bbl =>
    cases h
    unfold applyBbl
    split
    · next hmode => exact .enterPlay hmode
    · next hmode => exact .enterEdit hmode

/-- What one part of a command's work can do. -/
inductive Effect : State → State → Prop
  /-- An applicable intent applied at once (R135). -/
  | apply {c : Intent} {s t : State} (happlicable : applicable s.cfg.behavior c = true) (h : applyIntent c s = .next t) :
      Effect s t
  /-- The oldest queued intent taken and applied (R136). -/
  | drain {c : Intent} {rest : List Intent} {s t : State} (hiq : s.iq = c :: rest)
      (h : applyIntent c { s with iq := rest } = .next t) : Effect s t
  /-- An applicable intent queued (R135). -/
  | enqueue {c : Intent} {s : State} (happlicable : applicable s.cfg.behavior c = true) (hroom : s.iq.length ≠ s.cfg.iqDepth) :
      Effect s { s with iq := s.iq ++ [c] }
  /-- An intent dropped at a full queue (R138). -/
  | overflow (s : State) : Effect s s.setIqovf
  /-- The divider half of `TICK` (R93). -/
  | divide {s : State} (hdiv : s.cfg.behavior = .div) : Effect s (divOnTick s)
  /-- `play_step()` (R112). -/
  | play {s : State} (a : Lanes Code) (es : List Event) (hseq : s.cfg.behavior = .seq) :
      Effect s { s with aout := a, dout := 0, out := s.out ++ es }
  /-- `advance()` (R111). -/
  | advance {s : State} (hseq : s.cfg.behavior = .seq) : Effect s (advance s)
  /-- The write branch of `DADJ` (R96, R97). -/
  | adjust {c : Byte} {i : Fin 4} {s : State} (hdiv : s.cfg.behavior = .div) (hlegal : countLegal c = true) :
      Effect s (writeDivision i c s)
  /-- The sample of `DADJ` (R96). -/
  | sample {c : Byte} {s : State} (hdiv : s.cfg.behavior = .div) (hlegal : countLegal c = true) :
      Effect s { s with prevChoice := c }
  /-- A cell's field written by an Edit-mode sample (R114, R115). -/
  | edit {f : StepField} {v : Code} {s t : State} (hseq : s.cfg.behavior = .seq) (h : stepWrite f v s = .next t) : Effect s t
  /-- The last-written pitch (R114). -/
  | keepPitch {v : Code} {s : State} (hseq : s.cfg.behavior = .seq) : Effect s { s with lastPitch := some v }
  /-- The last-written velocity (R115). -/
  | keepVel {v : Code} {s : State} (hseq : s.cfg.behavior = .seq) : Effect s { s with lastVel := some v }
  /-- A quantizer result (R129). -/
  | note (n : Code) (s : State) : Effect s (s.emit (.note n))
  /-- An illegal operand (R67). -/
  | badop (s : State) : Effect s s.setBadop

/-- A finite sequence of parts of commands. -/
abbrev Effects : State → State → Prop := Relation.ReflTransGen Effect

/-! Each command is a sequence of such parts. -/

theorem drain_effects {s t : State} (h : drain s = .next t) : Effects s t :=
  (drainList_induct (fun u => Effects s u) (fun _ _ _ _ hiq hs hu => hs.tail (.drain hiq hu)) s.iq s t rfl .refl h).1

theorem seqPlayTick_effects {s t : State} (hseq : s.cfg.behavior = .seq) (h : seqPlayTick s = .next t) : Effects s t := by
  obtain ⟨a, es, rfl⟩ := seqPlayTick_eq h
  exact .head (.play a es hseq) (.single (.advance hseq))

theorem execTick_effects {s t : State} (h : execTick s = .next t) : Effects s t := by
  rcases execTick_spec s t h with ⟨hdiv, hdrain⟩ | ⟨hseq, _, _, u, hplay, hdrain⟩ | ⟨_, _, rfl⟩
  · exact .head (.divide hdiv) (drain_effects hdrain)
  · exact (seqPlayTick_effects hseq hplay).trans (drain_effects hdrain)
  · exact .refl

theorem adjustSelected_effects {c : Byte} {s : State} (hdiv : s.cfg.behavior = .div) (hlegal : countLegal c = true) :
    Effects s (adjustSelected c s) := by
  rcases adjustSelected_spec c s with heq | ⟨i, _, _, heq⟩
  · rw [heq]
  · exact heq ▸ .single (.adjust hdiv hlegal)

/-- The write branch of `DADJ` touches the bank's registers and the history alone (R96). -/
theorem adjustSelected_eq (c : Byte) (s : State) :
    ∃ d n es, adjustSelected c s = { s with div := d, cnt := n, out := s.out ++ es } := by
  rcases adjustSelected_spec c s with heq | ⟨i, _, _, heq⟩ <;> rw [heq]
  · exact ⟨s.div, s.cnt, [], by simp⟩
  · exact ⟨_, _, _, notify_eq _⟩

theorem execDadj_effects {c : Byte} {s t : State} (h : execDadj c s = .next t) : Effects s t := by
  rcases execDadj_spec c s t h with ⟨_, rfl⟩ | ⟨_, _, rfl⟩ | ⟨hlegal, hdiv, rfl⟩
  · exact .single (.badop s)
  · exact .refl
  · have hwrite := adjustSelected_effects hdiv hlegal
    obtain ⟨d, n, es, heq⟩ := adjustSelected_eq c s
    rw [heq] at hwrite ⊢
    exact hwrite.tail (.sample hdiv hlegal)

theorem editing_iff (s : State) : s.editing = true ↔ s.cfg.behavior = .seq ∧ s.mode = .edit := by
  simp only [State.editing, Bool.and_eq_true, decide_eq_true_eq]

theorem stepWrite_cfg {f : StepField} {v : Code} {s t : State} (h : stepWrite f v s = .next t) : t.cfg = s.cfg := by
  obtain ⟨_, rfl⟩ := stepWrite_spec f v s t h
  rfl

theorem execEpit_effects {k : Code} {s t : State} (h : execEpit k s = .next t) : Effects s t := by
  rcases execEpit_spec k s t h with rfl | ⟨m, u, hediting, _, _, hwrite, rfl⟩
  · exact .refl
  · have hseq := ((editing_iff s).1 hediting).1
    exact .head (.edit hseq hwrite) (.single (.keepPitch (stepWrite_cfg hwrite ▸ hseq)))

theorem execEvel_effects {k : Code} {s t : State} (h : execEvel k s = .next t) : Effects s t := by
  rcases execEvel_spec k s t h with rfl | ⟨u, hediting, _, hwrite, rfl⟩
  · exact .refl
  · have hseq := ((editing_iff s).1 hediting).1
    exact .head (.edit hseq hwrite) (.single (.keepVel (stepWrite_cfg hwrite ▸ hseq)))

theorem execQnt_effects {n : Byte} {k : Code} {s t : State} (h : execQnt n k s = .next t) : Effects s t := by
  rcases execQnt_spec n k s t h with ⟨_, n, _, rfl⟩ | ⟨_, rfl⟩
  · exact .single (.note n s)
  · exact .single (.badop s)

/-- What becomes of the queue at an arrival under the gate (R135, R138). -/
theorem enqueue_cases (c : Intent) (s : State) :
    (s.iq.length = s.cfg.iqDepth ∧ enqueue c s = s.setIqovf) ∨
      (s.iq.length ≠ s.cfg.iqDepth ∧ enqueue c s = { s with iq := s.iq ++ [c] }) := by
  unfold enqueue
  split
  · next hfull => exact .inl ⟨hfull, rfl⟩
  · next hroom => exact .inr ⟨hroom, rfl⟩

theorem arrive_effects {c : Intent} {s t : State} (h : arrive c s = .next t) : Effects s t := by
  rcases arrive_spec c s t h with ⟨_, rfl⟩ | ⟨happlicable, _, rfl⟩ | ⟨happlicable, _, happly⟩
  · exact .refl
  · rcases enqueue_cases c s with ⟨_, heq⟩ | ⟨hroom, heq⟩ <;> rw [heq]
    · exact .single (.overflow s)
    · exact .single (.enqueue happlicable hroom)
  · exact .single (.apply happlicable happly)

/-- Every command that answers is a sequence of the parts of `Effect`. -/
theorem exec_effects {i : Instr} {s t : State} (h : exec i s = .next t) : Effects s t := by
  cases i with
  | tick => exact execTick_effects h
  | dadj c => exact execDadj_effects h
  | epit k => exact execEpit_effects h
  | evel k => exact execEvel_effects h
  | qnt n k => exact execQnt_effects h
  | dsel | bas | bal | bbs | bbl => exact arrive_effects h

/-! What every part keeps, every command and every step keeps. -/

/-- What every part of a command keeps holds after a sequence of parts where it held before. -/
theorem Effects.keep {P : State → Prop} (hP : ∀ s t, Effect s t → P s → P t) {s t : State} (h : Effects s t) (hs : P s) :
    P t := by
  induction h with
  | refl => exact hs
  | tail _ heffect ih => exact hP _ _ heffect ih

/-- A property kept by taking something from the port, by the drop of an undefined word, by the reset event (where that is what
is presented), and by every part of a command, is kept by every step. -/
theorem step_keeps {P : State → Prop} {s t : State} (hport : ∀ q, P s → P { s with port := q })
    (hreset : s.port.head? = some .rst → ∀ u, P u → P (rstPulse u)) (hdrop : ∀ u, P u → P u.setBadcmd)
    (heffect : ∀ u v, Effect u v → P u → P v) (h : step s = .next t) (hs : P s) : P t := by
  rcases step_spec s t h with ⟨_, rfl⟩ | ⟨rest, hrst, rfl⟩ | ⟨w, rest, i, _, _, hexec⟩ | ⟨w, rest, e, _, _, rfl⟩
  · exact hs
  · exact hreset (by rw [hrst]; rfl) _ (hport rest hs)
  · exact (exec_effects hexec).keep heffect (hport rest hs)
  · exact hdrop _ (hport rest hs)

end Sys2Proof.Machine
end

section
/-!
The state after reset (R44), the configuration and the input stream, and the history (R17, R40).
-/
namespace Sys2Proof.Machine

/-! The reset state. -/

/-- Every cell of the grid reads as the grid fill right after reset (R24, R44). -/
theorem reset_stepRead {c : Config} {r p : Nat} (hr : r < c.rows) (hp : p < c.seqLen) :
    stepRead r p (State.resetOf c) = some ⟨c.defaultPitch, c.defaultVel⟩ := by
  have hrange : stepInRange (State.resetOf c).cfg r p = true := by
    simp only [State.resetOf, stepInRange, hr, hp, decide_true, Bool.and_self]
  rw [stepRead, if_pos hrange]
  rfl

/-- Settles O10: every row of R44 but the grid's is a field of `State.resetOf`. -/
theorem resetStateIsTheTable : Obligations.ResetStateIsTheTable := by
  refine ⟨fun c => ?_, rfl, rfl, rfl⟩
  have haout : ∀ j, (State.resetOf c).aout.get j = 0 := by
    intro j
    match j with
    | 0 | 1 | 2 | 3 => rfl
  exact ⟨rfl, rfl, rfl, rfl, fun _ _ => reset_stepRead, rfl, rfl, rfl, rfl, rfl, rfl, rfl, ⟨rfl, rfl, rfl⟩, haout, rfl, rfl, rfl⟩

/-! The configuration and the input stream. -/

/-- No part of a command writes the configuration or the input stream. -/
theorem Effect.sameEnvironment {s t : State} (h : Effect s t) : SameEnvironment s t := by
  cases h with
  | apply _ happly =>
    obtain ⟨_, _, henv, _⟩ := applyIntent_frame _ _ _ happly
    exact henv
  | drain _ happly =>
    obtain ⟨_, _, henv, _⟩ := applyIntent_frame _ _ _ happly
    exact henv
  | edit _ hwrite =>
    obtain ⟨_, rfl⟩ := stepWrite_spec _ _ _ _ hwrite
    exact ⟨rfl, rfl⟩
  | divide | advance => simp [SameEnvironment]
  | adjust => simp [SameEnvironment, writeDivision]
  | enqueue | overflow | play | sample | keepPitch | keepVel | note | badop => exact ⟨rfl, rfl⟩

theorem exec_sameEnvironment {i : Instr} {s t : State} (h : exec i s = .next t) : SameEnvironment s t :=
  (exec_effects h).keep (P := SameEnvironment s)
    (fun _ _ heffect hs => ⟨heffect.sameEnvironment.1.trans hs.1, heffect.sameEnvironment.2.trans hs.2⟩) ⟨rfl, rfl⟩

/-- Settles O24: a step takes the head of the stream, and then no command writes either. -/
theorem configurationIsNeverWritten : Obligations.ConfigurationIsNeverWritten := by
  intro s t h
  rcases step_spec s t h with ⟨hport, rfl⟩ | ⟨rest, hport, rfl⟩ | ⟨w, rest, i, hport, _, hexec⟩ | ⟨w, rest, e, hport, _, rfl⟩
  · exact ⟨rfl, by rw [hport]; rfl⟩
  · exact ⟨rfl, by rw [hport]; rfl⟩
  · have ⟨hcfg, hrest⟩ := exec_sameEnvironment hexec
    exact ⟨hcfg, by rw [hrest, hport]; rfl⟩
  · exact ⟨rfl, by rw [hport]; rfl⟩

/-! The history. -/

theorem advance_out_prefix (s : State) : s.out <+: (advance s).out := by
  rw [advance_eq]
  split
  · exact List.prefix_append _ _
  · exact List.prefix_rfl

theorem Applied.out_prefix {c : Intent} {s t : State} (h : Applied c s t) : s.out <+: t.out := by
  cases h with
  | select => simp [applyDsel]
  | preview => exact List.prefix_append _ _
  | nextStep => exact advance_out_prefix s
  | pause | nextRow | balInPlay | bbsInPlay | enterPlay | enterEdit => exact List.prefix_rfl

/-- Every part of a command leaves the history as the beginning of what it is after (R40). -/
theorem Effect.out_prefix {s t : State} (h : Effect s t) : s.out <+: t.out := by
  cases h with
  | apply _ happly => exact (applied_of_applyIntent happly).out_prefix
  | drain _ happly => exact (applied_of_applyIntent happly).out_prefix
  | edit _ hwrite =>
    obtain ⟨_, rfl⟩ := stepWrite_spec _ _ _ _ hwrite
    exact List.prefix_rfl
  | divide =>
    rw [divOnTick_eq]
    exact List.prefix_append _ _
  | advance => exact advance_out_prefix s
  | adjust => simp [writeDivision]
  | play | note => exact List.prefix_append _ _
  | enqueue | overflow | sample | keepPitch | keepVel | badop => exact List.prefix_rfl

/-- Settles O22. -/
theorem historyIsAppendOnly : Obligations.HistoryIsAppendOnly := by
  intro s t hrst h
  have hprefix : s.out <+: t.out :=
    step_keeps (P := fun u => s.out <+: u.out) (fun _ hs => hs) (fun hr => absurd hr hrst) (fun _ hs => hs)
      (fun _ _ heffect hs => hs.trans heffect.out_prefix) h List.prefix_rfl
  obtain ⟨es, hes⟩ := hprefix
  exact ⟨es, hes.symm⟩

end Sys2Proof.Machine
end

section
/-!
Who writes what: the frames of a drain and of the class-S commands, the causes of the status flags (R37, R150), and the writers of
the sequencer's control state (R26 to R29).
-/
namespace Sys2Proof.Machine

/-! Frames. -/

theorem SameFlags.trans {s t u : State} (h : SameFlags s t) (k : SameFlags t u) : SameFlags s u :=
  ⟨k.1.trans h.1, k.2.1.trans h.2.1, k.2.2.trans h.2.2⟩

/-- What no intent writes is the same along a drain (R136). -/
def DrainFrame (s t : State) : Prop := SameFlags s t ∧ t.div = s.div ∧ t.cnt = s.cnt

theorem applyIntent_drainFrame {c : Intent} {rest : List Intent} {s t u : State} (h : DrainFrame s t)
    (happly : applyIntent c { t with iq := rest } = .next u) : DrainFrame s u := by
  obtain ⟨hflags, hdiv, hcnt⟩ := h
  obtain ⟨_, hflags', _, hdiv', hcnt', _⟩ := applyIntent_frame c _ u happly
  exact ⟨SameFlags.trans (t := t) hflags hflags', hdiv'.trans hdiv, hcnt'.trans hcnt⟩

/-- A drain leaves the queue empty, and what no intent writes as it was (R136). -/
theorem drain_frame {s t : State} (h : drain s = .next t) :
    t.iq = [] ∧ SameFlags s t ∧ t.div = s.div ∧ t.cnt = s.cnt := by
  obtain ⟨hframe, hiq⟩ := drainList_induct (DrainFrame s) (fun _ _ _ _ _ hs happly => applyIntent_drainFrame hs happly)
    s.iq s t rfl ⟨⟨rfl, rfl, rfl⟩, rfl, rfl⟩ h
  exact ⟨hiq, hframe⟩

theorem drain_of_iq_nil {s : State} (h : s.iq = []) : drain s = .next s := by
  rw [drain, h]
  rfl

/-- What `DADJ`, `EPIT`, `EVEL` and `QNT` leave as it is. -/
def SampleFrame (s t : State) : Prop :=
  SameControl s t ∧ t.cfg = s.cfg ∧ t.iq = s.iq ∧ t.stBadcmd = s.stBadcmd ∧ t.stIqovf = s.stIqovf

theorem SampleFrame.refl (s : State) : SampleFrame s s := ⟨⟨.refl _, .refl _, .refl _, .refl _⟩, .refl _, .refl _, .refl _, .refl _⟩

theorem SampleFrame.sameControl {s t : State} (h : SampleFrame s t) : SameControl s t := h.1

theorem setBadop_sampleFrame (s : State) : SampleFrame s s.setBadop := .refl s

theorem execDadj_frame {c : Byte} {s t : State} (h : execDadj c s = .next t) :
    SampleFrame s t ∧ (t.stBadop ≠ s.stBadop → countLegal c = false) := by
  rcases execDadj_spec c s t h with ⟨hillegal, rfl⟩ | ⟨_, _, rfl⟩ | ⟨_, _, rfl⟩
  · exact ⟨setBadop_sampleFrame s, fun _ => hillegal⟩
  · exact ⟨.refl _, fun hne => absurd rfl hne⟩
  · obtain ⟨d, n, es, heq⟩ := adjustSelected_eq c s
    rw [heq]
    exact ⟨.refl s, fun hne => absurd rfl hne⟩

theorem execEpit_frame {k : Code} {s t : State} (h : execEpit k s = .next t) : SampleFrame s t ∧ t.stBadop = s.stBadop := by
  rcases execEpit_spec k s t h with rfl | ⟨m, u, _, _, _, hwrite, rfl⟩
  · exact ⟨.refl _, rfl⟩
  · obtain ⟨_, rfl⟩ := stepWrite_spec _ _ _ _ hwrite
    exact ⟨.refl s, rfl⟩

theorem execEvel_frame {k : Code} {s t : State} (h : execEvel k s = .next t) : SampleFrame s t ∧ t.stBadop = s.stBadop := by
  rcases execEvel_spec k s t h with rfl | ⟨u, _, _, hwrite, rfl⟩
  · exact ⟨.refl _, rfl⟩
  · obtain ⟨_, rfl⟩ := stepWrite_spec _ _ _ _ hwrite
    exact ⟨.refl s, rfl⟩

theorem execQnt_frame {n : Byte} {k : Code} {s t : State} (h : execQnt n k s = .next t) :
    SampleFrame s t ∧ (t.stBadop ≠ s.stBadop → tableLegal s.cfg n = false) := by
  rcases execQnt_spec n k s t h with ⟨_, _, _, rfl⟩ | ⟨hillegal, rfl⟩
  · exact ⟨.refl s, fun hne => absurd rfl hne⟩
  · exact ⟨setBadop_sampleFrame s, fun _ => hillegal⟩

/-- An arrival changes the control state only by applying the intent at once (R135). -/
theorem arrive_sameControl_or_applied {c : Intent} {s t : State} (h : arrive c s = .next t) :
    SameControl s t ∨ applyIntent c s = .next t := by
  rcases arrive_spec c s t h with ⟨_, rfl⟩ | ⟨_, _, rfl⟩ | ⟨_, _, happly⟩
  · exact .inl ⟨rfl, rfl, rfl, rfl⟩
  · rcases enqueue_cases c s with ⟨_, heq⟩ | ⟨_, heq⟩ <;> rw [heq] <;> exact .inl ⟨rfl, rfl, rfl, rfl⟩
  · exact .inr happly

/-! The status flags. -/

/-- The causes of the status flags (R37, R150): none for `st_badcmd` in a command, an illegal operand, a full queue. -/
def FlagCauses (i : Instr) (s t : State) : Prop :=
  t.stBadcmd = s.stBadcmd ∧ (t.stBadop ≠ s.stBadop → i.wellFormed s.cfg.nt = false) ∧
    (t.stIqovf ≠ s.stIqovf → i.isClassA = true ∧ s.gated = true ∧ s.iq.length = s.cfg.iqDepth)

theorem SameFlags.flagCauses {i : Instr} {s t : State} (h : SameFlags s t) : FlagCauses i s t :=
  ⟨h.1, fun hne => absurd h.2.1 hne, fun hne => absurd h.2.2 hne⟩

theorem SampleFrame.flagCauses {i : Instr} {s t : State} (h : SampleFrame s t)
    (hbadop : t.stBadop ≠ s.stBadop → i.wellFormed s.cfg.nt = false) : FlagCauses i s t := by
  obtain ⟨_, _, _, hbadcmd, hiqovf⟩ := h
  exact ⟨hbadcmd, hbadop, fun hne => absurd hiqovf hne⟩

theorem countLegal_iff (c : Byte) : countLegal c = true ↔ 1 ≤ c.toNat ∧ c.toNat ≤ 127 := by
  simp only [countLegal, Bool.not_eq_true', Bool.or_eq_false_iff, decide_eq_false_iff_not]
  omega

/-- The legal range of `DADJ` as the machine checks it is that of R62. -/
theorem wellFormed_dadj (nt : Nat) (c : Byte) : (Instr.dadj c).wellFormed nt = countLegal c := by
  rw [Bool.eq_iff_iff, countLegal_iff]
  simp only [Instr.wellFormed, Bool.and_eq_true, decide_eq_true_eq]

theorem execTick_sameFlags {s t : State} (h : execTick s = .next t) : SameFlags s t := by
  rcases execTick_spec s t h with ⟨_, hdrain⟩ | ⟨_, _, _, u, hplay, hdrain⟩ | ⟨_, _, rfl⟩
  · obtain ⟨_, hflags, _⟩ := drain_frame hdrain
    simpa [SameFlags] using hflags
  · obtain ⟨_, hflags, _⟩ := drain_frame hdrain
    obtain ⟨a, es, rfl⟩ := seqPlayTick_eq hplay
    simpa [SameFlags] using hflags
  · exact ⟨rfl, rfl, rfl⟩

theorem arrive_flagCauses {c : Intent} {i : Instr} {s t : State} (hi : i.isClassA = true) (h : arrive c s = .next t) :
    FlagCauses i s t := by
  rcases arrive_spec c s t h with ⟨_, rfl⟩ | ⟨_, hgated, rfl⟩ | ⟨_, _, happly⟩
  · exact SameFlags.flagCauses ⟨rfl, rfl, rfl⟩
  · rcases enqueue_cases c s with ⟨hfull, heq⟩ | ⟨_, heq⟩ <;> rw [heq]
    · exact ⟨rfl, fun hne => absurd rfl hne, fun _ => ⟨hi, hgated, hfull⟩⟩
    · exact SameFlags.flagCauses ⟨rfl, rfl, rfl⟩
  · obtain ⟨_, hflags, _⟩ := applyIntent_frame c s t happly
    exact hflags.flagCauses

theorem exec_flagCauses {i : Instr} {s t : State} (h : exec i s = .next t) : FlagCauses i s t := by
  cases i with
  | tick => exact (execTick_sameFlags h).flagCauses
  | dadj c =>
    obtain ⟨hframe, hbadop⟩ := execDadj_frame h
    exact hframe.flagCauses (wellFormed_dadj s.cfg.nt c ▸ hbadop)
  | epit k =>
    obtain ⟨hframe, hbadop⟩ := execEpit_frame h
    exact hframe.flagCauses fun hne => absurd hbadop hne
  | evel k =>
    obtain ⟨hframe, hbadop⟩ := execEvel_frame h
    exact hframe.flagCauses fun hne => absurd hbadop hne
  | qnt n k =>
    obtain ⟨hframe, hbadop⟩ := execQnt_frame h
    exact hframe.flagCauses hbadop
  | dsel | bas | bal | bbs | bbl => exact arrive_flagCauses rfl h

/-- Every flag set in `s` is set in `t`. -/
def FlagsStay (s t : State) : Prop :=
  (s.stBadcmd = true → t.stBadcmd = true) ∧ (s.stBadop = true → t.stBadop = true) ∧ (s.stIqovf = true → t.stIqovf = true)

theorem FlagsStay.refl (s : State) : FlagsStay s s := ⟨id, id, id⟩

theorem FlagsStay.trans {s t u : State} (h : FlagsStay s t) (k : FlagsStay t u) : FlagsStay s u :=
  ⟨k.1 ∘ h.1, k.2.1 ∘ h.2.1, k.2.2 ∘ h.2.2⟩

theorem SameFlags.flagsStay {s t : State} (h : SameFlags s t) : FlagsStay s t :=
  ⟨h.1.trans, h.2.1.trans, h.2.2.trans⟩

/-- No part of a command clears a flag (R37). -/
theorem Effect.flagsStay {s t : State} (h : Effect s t) : FlagsStay s t := by
  cases h with
  | apply _ happly =>
    obtain ⟨_, hflags, _⟩ := applyIntent_frame _ _ _ happly
    exact hflags.flagsStay
  | drain _ happly =>
    obtain ⟨_, hflags, _⟩ := applyIntent_frame _ _ _ happly
    exact SameFlags.flagsStay (s := s) hflags
  | overflow => exact ⟨id, id, fun _ => rfl⟩
  | badop => exact ⟨id, fun _ => rfl, id⟩
  | edit _ hwrite =>
    obtain ⟨_, rfl⟩ := stepWrite_spec _ _ _ _ hwrite
    exact .refl s
  | divide | advance => simp [FlagsStay]
  | adjust => simp [FlagsStay, writeDivision]
  | enqueue | play | sample | keepPitch | keepVel | note => exact .refl s

theorem status_bits (s : State) :
    s.status.getLsbD 0 = s.stBadcmd ∧ s.status.getLsbD 1 = s.stBadop ∧ s.status.getLsbD 2 = s.stIqovf := by
  have bits : ∀ a b c : Bool,
      (BitVec.ofBool c ++ BitVec.ofBool b ++ BitVec.ofBool a : BitVec 3).getLsbD 0 = a ∧
      (BitVec.ofBool c ++ BitVec.ofBool b ++ BitVec.ofBool a : BitVec 3).getLsbD 1 = b ∧
      (BitVec.ofBool c ++ BitVec.ofBool b ++ BitVec.ofBool a : BitVec 3).getLsbD 2 = c := by decide
  exact bits s.stBadcmd s.stBadop s.stIqovf

/-- Settles O23: the flags stay over every part of a command, and each instruction shows its own causes. -/
theorem statusFlagsAreStickyWithOneCauseEach : Obligations.StatusFlagsAreStickyWithOneCauseEach := by
  refine ⟨fun s t hrst h => ?_, fun i s t h => exec_flagCauses h, status_bits⟩
  exact step_keeps (P := FlagsStay s) (fun _ hs => hs) (fun hr => absurd hr hrst) (fun _ hs => ⟨fun _ => rfl, hs.2⟩)
    (fun _ _ heffect hs => hs.trans heffect.flagsStay) h (.refl s)

/-! The writers of the control state. -/

/-- Which intent, applied, can change which field of the control state (R26 to R29, R119). -/
def IntentWrites (c : Intent) (s t : State) : Prop :=
  (t.mode ≠ s.mode → c = .bbl) ∧ (t.running ≠ s.running → c = .bbl ∨ c = .bas ∧ s.mode = .play) ∧
    (t.activeRow ≠ s.activeRow → c = .bal ∧ s.mode = .edit) ∧
    (t.pos ≠ s.pos → c = .bbs ∧ s.mode = .edit ∨ c = .bbl ∧ s.mode = .play)

theorem SameControl.intentWrites {c : Intent} {s t : State} (h : SameControl s t) : IntentWrites c s t := by
  obtain ⟨hpos, hrow, hmode, hrunning⟩ := h
  exact ⟨fun hne => absurd hmode hne, fun hne => absurd hrunning hne, fun hne => absurd hrow hne, fun hne => absurd hpos hne⟩

theorem Applied.intentWrites {c : Intent} {s t : State} (h : Applied c s t) : IntentWrites c s t := by
  cases h with
  | select => exact SameControl.intentWrites (by simp [SameControl, applyDsel])
  | preview | balInPlay | bbsInPlay => exact SameControl.intentWrites ⟨rfl, rfl, rfl, rfl⟩
  | pause hmode | nextRow hmode | nextStep hmode | enterPlay hmode | enterEdit hmode => simp [IntentWrites, hmode]

/-- Which command, at an empty queue, can change which field of the control state (R26 to R29, R119). -/
def CommandWrites (i : Instr) (s t : State) : Prop :=
  (t.mode ≠ s.mode → i = .bbl) ∧ (t.running ≠ s.running → i = .bbl ∨ i = .bas ∧ s.mode = .play) ∧
    (t.activeRow ≠ s.activeRow → i = .bal ∧ s.mode = .edit) ∧
    (t.pos ≠ s.pos → i = .tick ∧ s.mode = .play ∨ i = .bbs ∧ s.mode = .edit ∨ i = .bbl ∧ s.mode = .play)

theorem SameControl.commandWrites {i : Instr} {s t : State} (h : SameControl s t) : CommandWrites i s t := by
  obtain ⟨hpos, hrow, hmode, hrunning⟩ := h
  exact ⟨fun hne => absurd hmode hne, fun hne => absurd hrunning hne, fun hne => absurd hrow hne, fun hne => absurd hpos hne⟩

/-- The class-A command that an intent stands for (R36, R64). -/
def Intent.command : Intent → Instr
  | .dsel => .dsel
  | .bas => .bas
  | .bal => .bal
  | .bbs => .bbs
  | .bbl => .bbl

theorem exec_command (c : Intent) (s : State) : exec c.command s = arrive c s := by
  cases c <;> rfl

theorem IntentWrites.commandWrites {c : Intent} {s t : State} (h : IntentWrites c s t) : CommandWrites c.command s t := by
  cases c <;> simpa [IntentWrites, CommandWrites, Intent.command] using h

theorem arrive_intentWrites {c : Intent} {s t : State} (h : arrive c s = .next t) : IntentWrites c s t := by
  rcases arrive_sameControl_or_applied h with hsame | happly
  · exact hsame.intentWrites
  · exact (applied_of_applyIntent happly).intentWrites

theorem exec_command_writes (c : Intent) {s t : State} (h : exec c.command s = .next t) : CommandWrites c.command s t :=
  (arrive_intentWrites (exec_command c s ▸ h)).commandWrites

/-- At an empty queue `TICK` is its own step alone, which writes `pos` in Play. -/
theorem execTick_commandWrites {s t : State} (hiq : s.iq = []) (h : execTick s = .next t) : CommandWrites .tick s t := by
  rcases execTick_spec s t h with ⟨_, hdrain⟩ | ⟨_, hmode, _, u, hplay, hdrain⟩ | ⟨_, _, rfl⟩
  · rw [drain_of_iq_nil (by simpa using hiq)] at hdrain
    cases hdrain
    exact SameControl.commandWrites (by simp [SameControl])
  · obtain ⟨a, es, rfl⟩ := seqPlayTick_eq hplay
    rw [drain_of_iq_nil (by simpa using hiq)] at hdrain
    cases hdrain
    simp [CommandWrites, hmode]
  · exact SameControl.commandWrites ⟨rfl, rfl, rfl, rfl⟩

theorem exec_commandWrites {i : Instr} {s t : State} (hiq : s.iq = []) (h : exec i s = .next t) : CommandWrites i s t := by
  cases i with
  | tick => exact execTick_commandWrites hiq h
  | dadj c => exact (execDadj_frame h).1.sameControl.commandWrites
  | epit k => exact (execEpit_frame h).1.sameControl.commandWrites
  | evel k => exact (execEvel_frame h).1.sameControl.commandWrites
  | qnt n k => exact (execQnt_frame h).1.sameControl.commandWrites
  | dsel => exact exec_command_writes .dsel h
  | bas => exact exec_command_writes .bas h
  | bal => exact exec_command_writes .bal h
  | bbs => exact exec_command_writes .bbs h
  | bbl => exact exec_command_writes .bbl h

/-- Settles O29. -/
theorem eachControlFieldHasItsOwnWriters : Obligations.EachControlFieldHasItsOwnWriters :=
  ⟨fun _ _ _ h => (applied_of_applyIntent h).intentWrites, fun _ _ _ hiq h => exec_commandWrites hiq h⟩

end Sys2Proof.Machine
end

section
/-!
The bank's registers (R21): they stay in 1..127, and which commands keep a counter at most its division.
-/
namespace Sys2Proof.Machine

/-! The registers' range. -/

theorem lanesLegal_set {l : Lanes Byte} {v : Byte} (i : Fin 4) (hl : lanesLegal l) (hv : 1 ≤ v.toNat ∧ v.toNat ≤ 127) :
    lanesLegal (l.set i v) := by
  rw [lanesLegal_iff] at hl ⊢
  intro j
  by_cases hj : j = i
  · rw [hj, lanes_get_set_same]
    exact hv
  · rw [lanes_get_set_other l i j v hj]
    exact hl j

/-- The tick's reload or decrement keeps a counter in 1..127 (R93). -/
theorem divOnTick_lanesLegal {s : State} (hdiv : lanesLegal s.div) (hcnt : lanesLegal s.cnt) :
    lanesLegal (divOnTick s).cnt := by
  rw [lanesLegal_iff] at hdiv hcnt ⊢
  intro i
  rw [divOnTick_cnt]
  split
  · exact hdiv i
  · next hne =>
    have := hcnt i
    bv_omega

theorem BankInv.of_same {s t : State} (h : BankInv s) (hdiv : t.div = s.div) (hcnt : t.cnt = s.cnt)
    (hprev : t.prevChoice = s.prevChoice) : BankInv t := by
  simp only [BankInv, hdiv, hcnt, hprev]
  exact h

theorem applyIntent_bankInv {c : Intent} {s t : State} (h : applyIntent c s = .next t) (hs : BankInv s) : BankInv t := by
  obtain ⟨_, _, _, hdiv, hcnt, hprev, _⟩ := applyIntent_frame c s t h
  exact hs.of_same hdiv hcnt hprev

/-- Every part of a command keeps the bank's registers in range (R21, R22). -/
theorem Effect.bankInv {s t : State} (h : Effect s t) (hs : BankInv s) : BankInv t := by
  cases h with
  | apply _ happly => exact applyIntent_bankInv happly hs
  | drain _ happly => exact applyIntent_bankInv happly hs
  | divide =>
    obtain ⟨hdiv, hcnt, hprev⟩ := hs
    exact ⟨by simpa using hdiv, divOnTick_lanesLegal hdiv hcnt, by simpa using hprev⟩
  | @adjust c i s _ hlegal =>
    obtain ⟨hdiv, hcnt, hprev⟩ := hs
    have hc := (countLegal_iff c).1 hlegal
    refine ⟨by simpa [writeDivision] using lanesLegal_set i hdiv hc, ?_, by simpa [writeDivision] using hprev⟩
    simp only [writeDivision, notify_cnt]
    split
    · exact lanesLegal_set i hcnt hc
    · exact hcnt
  | sample _ hlegal =>
    obtain ⟨hdiv, hcnt, _⟩ := hs
    exact ⟨hdiv, hcnt, ((countLegal_iff _).1 hlegal).2⟩
  | edit _ hwrite =>
    obtain ⟨_, rfl⟩ := stepWrite_spec _ _ _ _ hwrite
    exact hs
  | advance => exact hs.of_same (advance_div s) (advance_cnt s) (advance_prevChoice s)
  | enqueue | overflow | play | keepPitch | keepVel | note | badop => exact hs

theorem valid_of_effect {s t : State} (h : Effect s t) (hs : s.cfg.Valid) : t.cfg.Valid :=
  h.sameEnvironment.1.symm ▸ hs

theorem step_valid_bankInv {s t : State} (h : step s = .next t) (hs : s.cfg.Valid ∧ BankInv s) : t.cfg.Valid ∧ BankInv t :=
  step_keeps (P := fun u => u.cfg.Valid ∧ BankInv u) (fun _ hu => hu)
    (fun _ u hu => by
      obtain ⟨hvalid, _⟩ := hu
      have ⟨_, _, hdiv, _⟩ := hvalid
      exact ⟨hvalid, reset_bankInv hdiv⟩)
    (fun _ hu => hu) (fun _ _ heffect ⟨hvalid, hbank⟩ => ⟨valid_of_effect heffect hvalid, heffect.bankInv hbank⟩) h hs

/-! A counter and its division. -/

theorem CountersWithinDivisions.of_same {s t : State} (h : CountersWithinDivisions s) (hdiv : t.div = s.div)
    (hcnt : t.cnt = s.cnt) : CountersWithinDivisions t := by
  intro i
  rw [hdiv, hcnt]
  exact h i

/-- A reload sets a counter to its division, a decrement of a counter that is not 0 lowers it (R93). -/
theorem divOnTick_countersWithinDivisions {s : State} (hcnt : lanesLegal s.cnt) (h : CountersWithinDivisions s) :
    CountersWithinDivisions (divOnTick s) := by
  intro i
  rw [divOnTick_cnt, divOnTick_div]
  split
  · exact le_rfl
  · next hne =>
    have := (lanesLegal_iff _).1 hcnt i
    have := h i
    bv_omega

theorem execTick_countersWithinDivisions {s t : State} (hbank : BankInv s) (hs : CountersWithinDivisions s)
    (h : execTick s = .next t) : CountersWithinDivisions t := by
  rcases execTick_spec s t h with ⟨_, hdrain⟩ | ⟨_, _, _, u, hplay, hdrain⟩ | ⟨_, _, rfl⟩
  · obtain ⟨_, _, hdiv, hcnt⟩ := drain_frame hdrain
    obtain ⟨_, hcounters, _⟩ := hbank
    exact (divOnTick_countersWithinDivisions hcounters hs).of_same hdiv hcnt
  · obtain ⟨_, _, hdiv, hcnt⟩ := drain_frame hdrain
    obtain ⟨a, es, rfl⟩ := seqPlayTick_eq hplay
    exact hs.of_same (by simpa using hdiv) (by simpa using hcnt)
  · exact hs

theorem arrive_countersWithinDivisions {c : Intent} {s t : State} (hs : CountersWithinDivisions s)
    (h : arrive c s = .next t) : CountersWithinDivisions t := by
  rcases arrive_spec c s t h with ⟨_, rfl⟩ | ⟨_, _, rfl⟩ | ⟨_, _, happly⟩
  · exact hs
  · rcases enqueue_cases c s with ⟨_, heq⟩ | ⟨_, heq⟩ <;> rw [heq] <;> exact hs
  · obtain ⟨_, _, _, hdiv, hcnt, _⟩ := applyIntent_frame c s t happly
    exact hs.of_same hdiv hcnt

/-- The write branch of `DADJ` keeps every counter within its division, where the counter is reset with the division or is at
most the new one (R21, R97). -/
theorem writeDivision_countersWithinDivisions {c : Byte} {i : Fin 4} {s : State} (hs : CountersWithinDivisions s)
    (hc : s.cfg.resetCounterOnChange = true ∨ (s.cnt.get i).toNat ≤ c.toNat) :
    CountersWithinDivisions (writeDivision i c s) := by
  intro j
  simp only [writeDivision, notify_cnt, notify_div]
  by_cases hj : j = i
  · subst hj
    rw [lanes_get_set_same]
    split
    · rw [lanes_get_set_same]
    · next hreset => exact hc.resolve_left hreset
  · rw [lanes_get_set_other s.div i j c hj]
    split
    · rw [lanes_get_set_other s.cnt i j c hj]
      exact hs j
    · exact hs j

theorem execDadj_countersWithinDivisions {c : Byte} {s t : State} (hs : CountersWithinDivisions s)
    (hc : s.cfg.resetCounterOnChange = true ∨ ∀ i, s.sel = some i → (s.cnt.get i).toNat ≤ c.toNat)
    (h : execDadj c s = .next t) : CountersWithinDivisions t := by
  rcases execDadj_spec c s t h with ⟨_, rfl⟩ | ⟨_, _, rfl⟩ | ⟨_, _, rfl⟩
  · exact hs
  · exact hs
  · rcases adjustSelected_spec c s with heq | ⟨i, hsel, _, heq⟩ <;> rw [heq]
    · exact hs
    · exact writeDivision_countersWithinDivisions hs (hc.imp_right fun hle => hle i hsel)

/-- An output that fires is reloaded from its division, and the drain after it writes neither (R93). -/
theorem execTick_reloads {s t : State} {i : Fin 4} (hdiv : s.cfg.behavior = .div) (hfires : s.cnt.get i = 1)
    (h : execTick s = .next t) : t.cnt.get i = t.div.get i := by
  rcases execTick_spec s t h with ⟨_, hdrain⟩ | ⟨hseq, _⟩ | ⟨hseq, _⟩
  · obtain ⟨_, _, hdiv', hcnt⟩ := drain_frame hdrain
    rw [hcnt, hdiv', divOnTick_cnt, if_pos hfires, divOnTick_div]
  · rw [hdiv] at hseq
    cases hseq
  · rw [hdiv] at hseq
    cases hseq

/-- Settles O20. -/
theorem bankInvariantsAndTheirRestoration : Obligations.BankInvariantsAndTheirRestoration := by
  refine ⟨fun s t hvalid hbank h => (step_valid_bankInv h ⟨hvalid, hbank⟩).2, fun c ⟨_, _, hdiv, _⟩ => reset_bankInv hdiv,
    fun _ _ => le_rfl, ?_, fun _ _ _ hs hc h => execDadj_countersWithinDivisions hs hc h,
    fun _ _ _ hdiv hfires h => (congrArg BitVec.toNat (execTick_reloads hdiv hfires h)).le⟩
  rintro s t hbank hs (htick | hdsel)
  · exact execTick_countersWithinDivisions hbank hs htick
  · exact arrive_countersWithinDivisions hs hdsel

end Sys2Proof.Machine
end

section
/-!
Each named part of `Inv` over every step (R30, R39, R46, R92, R143), and `Inv` itself.
-/
namespace Sys2Proof.Machine

/-! The sequencer's control state (R30). -/

theorem advance_pos_lt {s : State} (hlen : s.cfg.seqLen ≤ 256) (h : s.pos.toNat < s.cfg.seqLen) :
    (advance s).pos.toNat < s.cfg.seqLen := by
  rw [advance_eq]
  split
  · exact Nat.zero_lt_of_lt h
  · next hlast =>
    have : (s.pos + 1).toNat = s.pos.toNat + 1 := by bv_omega
    simp only [this]
    omega

theorem advance_sequencerInv {s : State} (hvalid : s.cfg.Valid) (hs : SequencerInv s) : SequencerInv (advance s) := by
  obtain ⟨⟨_, hlen⟩, _⟩ := hvalid
  obtain ⟨hpos, hrow, hrunning⟩ := hs
  exact ⟨by simpa using advance_pos_lt hlen hpos, by simpa using hrow, by simpa using hrunning⟩

theorem nextRow_lt {c : Config} (hvalid : c.Valid) (row : Byte) :
    (BitVec.ofNat 8 ((row.toNat + 1) % c.rows)).toNat < c.rows := by
  obtain ⟨_, ⟨hrows, _⟩, _⟩ := hvalid
  rw [BitVec.toNat_ofNat]
  exact (Nat.mod_le _ _).trans_lt (Nat.mod_lt _ hrows)

theorem Applied.sequencerInv {c : Intent} {s t : State} (h : Applied c s t) (hvalid : s.cfg.Valid) (hs : SequencerInv s) :
    SequencerInv t := by
  have ⟨hpos, hrow, hrunning⟩ := hs
  cases h with
  | select => simpa [SequencerInv, applyDsel] using hs
  | preview | balInPlay | bbsInPlay => exact hs
  | pause hmode => exact ⟨hpos, hrow, fun _ => hmode⟩
  | nextRow => exact ⟨hpos, nextRow_lt hvalid s.activeRow, hrunning⟩
  | nextStep => exact advance_sequencerInv hvalid hs
  | enterPlay => exact ⟨hpos, hrow, fun _ => rfl⟩
  | enterEdit => exact ⟨Nat.zero_lt_of_lt hpos, hrow, fun hfalse => nomatch hfalse⟩

/-- Every part of a command keeps R30 (a) to (c) in a valid configuration. -/
theorem Effect.sequencerInv {s t : State} (h : Effect s t) (hvalid : s.cfg.Valid) (hs : SequencerInv s) : SequencerInv t := by
  cases h with
  | apply _ happly => exact (applied_of_applyIntent happly).sequencerInv hvalid hs
  | drain _ happly => exact (applied_of_applyIntent happly).sequencerInv hvalid hs
  | advance => exact advance_sequencerInv hvalid hs
  | edit _ hwrite =>
    obtain ⟨_, rfl⟩ := stepWrite_spec _ _ _ _ hwrite
    exact hs
  | divide => simpa [SequencerInv] using hs
  | adjust => simpa [SequencerInv, writeDivision] using hs
  | enqueue | overflow | play | sample | keepPitch | keepVel | note | badop => exact hs

theorem step_valid_sequencerInv {s t : State} (h : step s = .next t) (hs : s.cfg.Valid ∧ SequencerInv s) :
    t.cfg.Valid ∧ SequencerInv t :=
  step_keeps (P := fun u => u.cfg.Valid ∧ SequencerInv u) (fun _ hu => hu)
    (fun _ u hu => by
      obtain ⟨hvalid, _⟩ := hu
      have ⟨⟨hlen, _⟩, ⟨hrows, _⟩, _⟩ := hvalid
      exact ⟨hvalid, reset_sequencerInv hlen hrows⟩)
    (fun _ hu => hu) (fun _ _ heffect ⟨hvalid, hu⟩ => ⟨valid_of_effect heffect hvalid, heffect.sequencerInv hvalid hu⟩) h hs

/-! The grid (R46). -/

theorem Applied.gridInv {c : Intent} {s t : State} (h : Applied c s t) (hs : GridInv s) : GridInv t := by
  cases h with
  | select => simpa [GridInv, applyDsel] using hs
  | preview m a es hmode hgrid => exact hgrid hs
  | nextStep => simpa [GridInv] using hs
  | pause | nextRow | balInPlay | bbsInPlay | enterPlay | enterEdit => exact hs

/-- Every part of a command keeps the grid canonical and in range. -/
theorem Effect.gridInv {s t : State} (h : Effect s t) (hs : GridInv s) : GridInv t := by
  cases h with
  | apply _ happly => exact (applied_of_applyIntent happly).gridInv hs
  | drain _ happly => exact (applied_of_applyIntent happly).gridInv hs
  | edit _ hwrite => exact stepWrite_gridInv _ _ _ _ hwrite hs
  | divide | advance => simpa [GridInv] using hs
  | adjust => simpa [GridInv, writeDivision] using hs
  | enqueue | overflow | play | sample | keepPitch | keepVel | note | badop => exact hs

theorem step_gridInv {s t : State} (h : step s = .next t) (hs : GridInv s) : GridInv t :=
  step_keeps (P := GridInv) (fun _ hu => hu) (fun _ u _ => reset_gridInv u.cfg) (fun _ hu => hu)
    (fun _ _ heffect hu => heffect.gridInv hu) h hs

/-! The digital outputs (R39). -/

theorem advance_dout {s : State} (hs : s.dout = 0) : (advance s).dout = 0 := by
  rw [advance_eq]
  split
  · rfl
  · exact hs

theorem Applied.dout {c : Intent} {s t : State} (h : Applied c s t) (hs : s.dout = 0) : t.dout = 0 := by
  cases h with
  | select => simpa [applyDsel] using hs
  | preview => rfl
  | nextStep => exact advance_dout hs
  | pause | nextRow | balInPlay | bbsInPlay | enterPlay | enterEdit => exact hs

/-- Every part of a command leaves every digital output low. -/
theorem Effect.dout {s t : State} (h : Effect s t) (hs : s.dout = 0) : t.dout = 0 := by
  cases h with
  | apply _ happly => exact (applied_of_applyIntent happly).dout hs
  | drain _ happly => exact (applied_of_applyIntent happly).dout hs
  | divide => simp [divOnTick_eq, hs]
  | advance => exact advance_dout hs
  | adjust => simpa [writeDivision] using hs
  | edit _ hwrite =>
    obtain ⟨_, rfl⟩ := stepWrite_spec _ _ _ _ hwrite
    exact hs
  | play => rfl
  | enqueue | overflow | sample | keepPitch | keepVel | note | badop => exact hs

theorem step_dout {s t : State} (h : step s = .next t) (hs : s.dout = 0) : t.dout = 0 :=
  step_keeps (P := fun u => u.dout = 0) (fun _ hu => hu) (fun _ _ _ => rfl) (fun _ hu => hu)
    (fun _ _ heffect hu => heffect.dout hu) h hs

/-! The queue (R143). -/

/-- R143 (b), (c): the queue is within its depth and holds intents of the active unit alone. -/
def QueueFits (s : State) : Prop := s.iq.length ≤ s.cfg.iqDepth ∧ ∀ c ∈ s.iq, applicable s.cfg.behavior c = true

theorem QueueFits.of_same {s t : State} (h : QueueFits s) (hcfg : t.cfg = s.cfg) (hiq : t.iq = s.iq) : QueueFits t := by
  rw [QueueFits, hcfg, hiq]
  exact h

theorem applyIntent_queueFits {c : Intent} {s t : State} (h : applyIntent c s = .next t) (hs : QueueFits s) : QueueFits t := by
  obtain ⟨hiq, _, ⟨hcfg, _⟩, _⟩ := applyIntent_frame c s t h
  exact hs.of_same hcfg hiq

/-- What a queue within its depth leaves when its oldest intent is taken. -/
theorem QueueFits.take {c : Intent} {rest : List Intent} {s : State} (h : QueueFits s) (hiq : s.iq = c :: rest) :
    applicable s.cfg.behavior c = true ∧ QueueFits { s with iq := rest } := by
  obtain ⟨hlen, happlicable⟩ := h
  rw [hiq] at hlen happlicable
  exact ⟨happlicable c List.mem_cons_self, (Nat.le_succ _).trans hlen, fun d hd => happlicable d (List.mem_cons_of_mem c hd)⟩

/-- An applicable intent appended where there is room (R135, R138). -/
theorem QueueFits.append {c : Intent} {s : State} (h : QueueFits s) (hc : applicable s.cfg.behavior c = true)
    (hroom : s.iq.length ≠ s.cfg.iqDepth) : QueueFits { s with iq := s.iq ++ [c] } := by
  obtain ⟨hlen, happlicable⟩ := h
  refine ⟨?_, fun d hd => ?_⟩
  · rw [List.length_append, List.length_singleton]
    exact Nat.lt_of_le_of_ne hlen hroom
  · rcases List.mem_append.1 hd with hd | hd
    · exact happlicable d hd
    · exact List.mem_singleton.1 hd ▸ hc

theorem Effect.queueFits {s t : State} (h : Effect s t) (hs : QueueFits s) : QueueFits t := by
  cases h with
  | apply _ happly => exact applyIntent_queueFits happly hs
  | drain hiq happly => exact applyIntent_queueFits happly (hs.take hiq).2
  | enqueue hc hroom => exact hs.append hc hroom
  | edit _ hwrite =>
    obtain ⟨_, rfl⟩ := stepWrite_spec _ _ _ _ hwrite
    exact hs
  | divide => exact hs.of_same (divOnTick_cfg s) (divOnTick_iq s)
  | advance => exact hs.of_same (advance_cfg s) (advance_iq s)
  | adjust => exact hs.of_same (notify_cfg _) (notify_iq _)
  | overflow | play | sample | keepPitch | keepVel | note | badop => exact hs

theorem gated_congr {s t : State} (hcfg : t.cfg = s.cfg) (hmode : t.mode = s.mode) (hrunning : t.running = s.running) :
    t.gated = s.gated := by
  simp only [State.gated, hcfg, hmode, hrunning]

/-- R143 (a): nothing is queued while the main flow does not wait. -/
def QueueWaits (s : State) : Prop := s.gated = false → s.iq = []

theorem SampleFrame.queueWaits {s t : State} (h : SampleFrame s t) (hs : QueueWaits s) : QueueWaits t := by
  obtain ⟨⟨_, _, hmode, hrunning⟩, hcfg, hiq, _⟩ := h
  intro hgated
  rw [hiq]
  exact hs (gated_congr hcfg hmode hrunning ▸ hgated)

/-- A consumed `TICK` empties the queue (R143 (d)); one that is not consumed changes nothing. -/
theorem execTick_iq {s t : State} (h : execTick s = .next t) : t.iq = [] ∨ t = s := by
  rcases execTick_spec s t h with ⟨_, hdrain⟩ | ⟨_, _, _, u, _, hdrain⟩ | ⟨_, _, rfl⟩
  · exact .inl (drain_frame hdrain).1
  · exact .inl (drain_frame hdrain).1
  · exact .inr rfl

theorem arrive_queueWaits {c : Intent} {s t : State} (h : arrive c s = .next t) (hs : QueueWaits s) : QueueWaits t := by
  intro hgated
  rcases arrive_spec c s t h with ⟨_, rfl⟩ | ⟨_, hgated', rfl⟩ | ⟨_, hgated', happly⟩
  · exact hs hgated
  · have hsame : (enqueue c s).gated = s.gated := by
      rcases enqueue_cases c s with ⟨_, heq⟩ | ⟨_, heq⟩ <;> rw [heq] <;> rfl
    rw [hsame, hgated'] at hgated
    cases hgated
  · obtain ⟨hiq, _⟩ := applyIntent_frame c s t happly
    rw [hiq]
    exact hs hgated'

theorem exec_queueWaits {i : Instr} {s t : State} (h : exec i s = .next t) (hs : QueueWaits s) : QueueWaits t := by
  cases i with
  | tick =>
    rcases execTick_iq h with hiq | rfl
    · exact fun _ => hiq
    · exact hs
  | dadj c => exact (execDadj_frame h).1.queueWaits hs
  | epit k => exact (execEpit_frame h).1.queueWaits hs
  | evel k => exact (execEvel_frame h).1.queueWaits hs
  | qnt n k => exact (execQnt_frame h).1.queueWaits hs
  | dsel | bas | bal | bbs | bbl => exact arrive_queueWaits h hs

theorem step_queueFits {s t : State} (h : step s = .next t) (hs : QueueFits s) : QueueFits t :=
  step_keeps (P := QueueFits) (fun _ hu => hu) (fun _ u _ => (reset_queueInv u.cfg).2) (fun _ hu => hu)
    (fun _ _ heffect hu => heffect.queueFits hu) h hs

theorem step_queueWaits {s t : State} (h : step s = .next t) (hs : QueueWaits s) : QueueWaits t := by
  rcases step_spec s t h with ⟨_, rfl⟩ | ⟨rest, _, rfl⟩ | ⟨w, rest, i, _, _, hexec⟩ | ⟨w, rest, e, _, _, rfl⟩
  · exact hs
  · exact fun _ => rfl
  · exact exec_queueWaits hexec hs
  · exact hs

theorem step_queueInv {s t : State} (h : step s = .next t) (hs : QueueInv s) : QueueInv t :=
  ⟨step_queueWaits h hs.1, step_queueFits h hs.2⟩

/-! The idle unit (R92, decision D3). -/

/-- The divider bank at its reset state. -/
def BankAtReset (s : State) : Prop := s.div = s.cfg.divInit ∧ s.cnt = s.cfg.divInit ∧ s.sel = none ∧ s.prevChoice = 0

/-- The sequencer and its analog outputs at their reset state. -/
def SequencerAtReset (s : State) : Prop :=
  s.steps = [] ∧ s.pos = 0 ∧ s.activeRow = 0 ∧ s.mode = .edit ∧ s.running = false ∧ s.lastPitch = none ∧ s.lastVel = none ∧
    s.aout = ⟨0, 0, 0, 0⟩

theorem idleInv_iff (s : State) :
    IdleInv s ↔ (s.cfg.behavior = .seq → BankAtReset s) ∧ (s.cfg.behavior = .div → SequencerAtReset s) := Iff.rfl

/-- An intent of the sequencer leaves the bank alone. -/
theorem Applied.bankAtReset {c : Intent} {s t : State} (h : Applied c s t) (hc : applicable .seq c = true) (hs : BankAtReset s) :
    BankAtReset t := by
  cases h with
  | select => cases hc
  | nextStep => simpa [BankAtReset] using hs
  | preview | pause | nextRow | balInPlay | bbsInPlay | enterPlay | enterEdit => exact hs

/-- The intent of the bank leaves the sequencer alone. -/
theorem Applied.sequencerAtReset {c : Intent} {s t : State} (h : Applied c s t) (hc : applicable .div c = true)
    (hs : SequencerAtReset s) : SequencerAtReset t := by
  cases h with
  | select => simpa [SequencerAtReset, applyDsel] using hs
  | preview | pause | nextRow | nextStep | balInPlay | bbsInPlay | enterPlay | enterEdit => cases hc

/-- In `SEQ`, no part of a command writes the bank (R92). -/
theorem Effect.bankAtReset {s t : State} (h : Effect s t) (hseq : s.cfg.behavior = .seq) (hq : QueueFits s)
    (hs : BankAtReset s) : BankAtReset t := by
  cases h with
  | apply hc happly => exact (applied_of_applyIntent happly).bankAtReset (hseq ▸ hc) hs
  | drain hiq happly => exact (applied_of_applyIntent happly).bankAtReset (hseq ▸ (hq.take hiq).1) hs
  | divide hdiv | adjust hdiv _ | sample hdiv _ => nomatch hseq.symm.trans hdiv
  | advance => simpa [BankAtReset] using hs
  | edit _ hwrite =>
    obtain ⟨_, rfl⟩ := stepWrite_spec _ _ _ _ hwrite
    exact hs
  | enqueue | overflow | play | keepPitch | keepVel | note | badop => exact hs

/-- In `DIV`, no part of a command writes the sequencer or an analog output (R92). -/
theorem Effect.sequencerAtReset {s t : State} (h : Effect s t) (hdiv : s.cfg.behavior = .div) (hq : QueueFits s)
    (hs : SequencerAtReset s) : SequencerAtReset t := by
  cases h with
  | apply hc happly => exact (applied_of_applyIntent happly).sequencerAtReset (hdiv ▸ hc) hs
  | drain hiq happly => exact (applied_of_applyIntent happly).sequencerAtReset (hdiv ▸ (hq.take hiq).1) hs
  | play _ _ hseq | advance hseq | edit hseq _ | keepPitch hseq | keepVel hseq => nomatch hdiv.symm.trans hseq
  | divide => simpa [SequencerAtReset] using hs
  | adjust => simpa [SequencerAtReset, writeDivision] using hs
  | enqueue | overflow | sample | note | badop => exact hs

theorem Effect.idleInv {s t : State} (h : Effect s t) (hq : QueueFits s) (hs : IdleInv s) : IdleInv t := by
  rw [idleInv_iff] at hs ⊢
  rw [h.sameEnvironment.1]
  exact ⟨fun hseq => h.bankAtReset hseq hq (hs.1 hseq), fun hdiv => h.sequencerAtReset hdiv hq (hs.2 hdiv)⟩

theorem step_queueFits_idleInv {s t : State} (h : step s = .next t) (hs : QueueFits s ∧ IdleInv s) : QueueFits t ∧ IdleInv t :=
  step_keeps (P := fun u => QueueFits u ∧ IdleInv u) (fun _ hu => hu)
    (fun _ u _ => ⟨(reset_queueInv u.cfg).2, reset_idleInv u.cfg⟩) (fun _ hu => hu)
    (fun _ _ heffect ⟨hq, hu⟩ => ⟨heffect.queueFits hq, heffect.idleInv hq hu⟩) h hs

/-! The whole invariant. -/

/-- Settles O15: each named part of `Inv` is kept, the bank's and the sequencer's with the configuration valid, the idle unit's with
the queue holding intents of the active unit alone. -/
theorem stepKeepsEveryInvariant : Obligations.StepKeepsEveryInvariant := by
  rintro s t ⟨hvalid, hbank, hsequencer, hgrid, hqueue, hidle, hdout⟩ h
  obtain ⟨hvalid', hbank'⟩ := step_valid_bankInv h ⟨hvalid, hbank⟩
  obtain ⟨_, hsequencer'⟩ := step_valid_sequencerInv h ⟨hvalid, hsequencer⟩
  obtain ⟨_, hidle'⟩ := step_queueFits_idleInv h ⟨hqueue.2, hidle⟩
  exact ⟨hvalid', hbank', hsequencer', step_gridInv h hgrid, step_queueInv h hqueue, hidle', step_dout h hdout⟩

end Sys2Proof.Machine
end

section
/-!
The writers of the divider bank (R55, R102): `TICK` its counters and, through a drained `DSEL`, the selection; `DADJ` the rest.
-/
namespace Sys2Proof.Machine

theorem SameBank.refl (s : State) : SameBank s s := ⟨rfl, rfl, rfl, rfl⟩

/-! Intents. -/

/-- No intent but `DSEL` writes the bank (R107 to R110). -/
theorem Applied.sameBank {c : Intent} {s t : State} (h : Applied c s t) (hc : c ≠ .dsel) : SameBank s t := by
  cases h with
  | select => exact absurd rfl hc
  | nextStep => simp [SameBank]
  | preview | pause | nextRow | balInPlay | bbsInPlay | enterPlay | enterEdit => exact .refl s

/-- Where `DSEL` is applicable the main flow always waits, so that it is never applied at once (R134, R135). -/
theorem gated_of_applicable_dsel {s : State} (h : applicable s.cfg.behavior .dsel = true) : s.gated = true := by
  have hdiv : s.cfg.behavior = .div := by simpa [applicable] using h
  simp [State.gated, hdiv]

theorem arrive_sameBank {c : Intent} {s t : State} (h : arrive c s = .next t) : SameBank s t := by
  rcases arrive_spec c s t h with ⟨_, rfl⟩ | ⟨_, _, rfl⟩ | ⟨happlicable, hopen, happly⟩
  · exact .refl t
  · rcases enqueue_cases c s with ⟨_, heq⟩ | ⟨_, heq⟩ <;> rw [heq] <;> exact .refl s
  · have hc : c ≠ .dsel := by
      rintro rfl
      exact nomatch hopen.symm.trans (gated_of_applicable_dsel happlicable)
    exact (applied_of_applyIntent happly).sameBank hc

/-- What a drain that began at `s` has done to the bank's selection and sample at `t`, and what it has left to take (R136). -/
def DrainSelects (s t : State) : Prop :=
  t.iq ⊆ s.iq ∧ t.prevChoice = s.prevChoice ∧ (t.sel ≠ s.sel → Intent.dsel ∈ s.iq)

theorem applyIntent_drainSelects {c : Intent} {rest : List Intent} {s t u : State} (hiq : t.iq = c :: rest)
    (h : DrainSelects s t) (happly : applyIntent c { t with iq := rest } = .next u) : DrainSelects s u := by
  obtain ⟨hqueue, hprev, hsel⟩ := h
  obtain ⟨hiq', _, _, _, _, hprev', _⟩ := applyIntent_frame c _ u happly
  obtain ⟨hc, hrest⟩ := List.cons_subset.1 (hiq ▸ hqueue)
  refine ⟨hiq' ▸ hrest, hprev'.trans hprev, fun hne => ?_⟩
  by_cases hdsel : c = .dsel
  · exact hdsel ▸ hc
  · obtain ⟨_, _, hsel', _⟩ := (applied_of_applyIntent happly).sameBank hdsel
    exact hsel (hsel' ▸ hne)

theorem drain_selects {s t : State} (h : drain s = .next t) : DrainSelects s t :=
  (drainList_induct (DrainSelects s) (fun _ _ _ _ hiq hs happly => applyIntent_drainSelects hiq hs happly) s.iq s t rfl
    ⟨List.Subset.refl _, rfl, fun hne => absurd rfl hne⟩ h).1

/-! Commands. -/

/-- `TICK` writes the counters, and the selection by a queued `DSEL` alone (R93, R95). -/
theorem execTick_bank {s t : State} (h : execTick s = .next t) :
    t.div = s.div ∧ t.prevChoice = s.prevChoice ∧ (t.sel ≠ s.sel → Intent.dsel ∈ s.iq) := by
  rcases execTick_spec s t h with ⟨_, hdrain⟩ | ⟨_, _, _, u, hplay, hdrain⟩ | ⟨_, _, rfl⟩
  · obtain ⟨_, _, hdiv, _⟩ := drain_frame hdrain
    obtain ⟨_, hprev, hsel⟩ := drain_selects hdrain
    simp only [divOnTick_div, divOnTick_prevChoice, divOnTick_sel, divOnTick_iq] at hdiv hprev hsel
    exact ⟨hdiv, hprev, hsel⟩
  · obtain ⟨a, es, rfl⟩ := seqPlayTick_eq hplay
    obtain ⟨_, _, hdiv, _⟩ := drain_frame hdrain
    obtain ⟨_, hprev, hsel⟩ := drain_selects hdrain
    simp only [advance_div, advance_prevChoice, advance_sel, advance_iq] at hdiv hprev hsel
    exact ⟨hdiv, hprev, hsel⟩
  · exact ⟨rfl, rfl, fun hne => absurd rfl hne⟩

theorem execDadj_sel {c : Byte} {s t : State} (h : execDadj c s = .next t) : t.sel = s.sel := by
  rcases execDadj_spec c s t h with ⟨_, rfl⟩ | ⟨_, _, rfl⟩ | ⟨_, _, rfl⟩
  · exact setBadop_sel s
  · rfl
  · obtain ⟨d, n, es, heq⟩ := adjustSelected_eq c s
    rw [heq]

theorem stepWrite_sameBank {f : StepField} {v : Code} {s t : State} (h : stepWrite f v s = .next t) : SameBank s t := by
  obtain ⟨_, rfl⟩ := stepWrite_spec f v s t h
  exact .refl s

theorem execEpit_sameBank {k : Code} {s t : State} (h : execEpit k s = .next t) : SameBank s t := by
  rcases execEpit_spec k s t h with rfl | ⟨m, u, _, _, _, hwrite, rfl⟩
  · exact .refl _
  · exact stepWrite_sameBank (t := u) hwrite

theorem execEvel_sameBank {k : Code} {s t : State} (h : execEvel k s = .next t) : SameBank s t := by
  rcases execEvel_spec k s t h with rfl | ⟨u, _, _, hwrite, rfl⟩
  · exact .refl _
  · exact stepWrite_sameBank (t := u) hwrite

theorem execQnt_sameBank {n : Byte} {k : Code} {s t : State} (h : execQnt n k s = .next t) : SameBank s t := by
  rcases execQnt_spec n k s t h with ⟨_, _, _, rfl⟩ | ⟨_, rfl⟩ <;> exact .refl s

/-- Which command can change which register of the bank (R102). -/
def BankWrites (i : Instr) (s t : State) : Prop :=
  (t.div ≠ s.div → ∃ c, i = .dadj c) ∧ (t.cnt ≠ s.cnt → i = .tick ∨ ∃ c, i = .dadj c) ∧
    (t.prevChoice ≠ s.prevChoice → ∃ c, i = .dadj c) ∧ (t.sel ≠ s.sel → i = .tick ∧ Intent.dsel ∈ s.iq)

theorem SameBank.bankWrites {i : Instr} {s t : State} (h : SameBank s t) : BankWrites i s t := by
  obtain ⟨hdiv, hcnt, hsel, hprev⟩ := h
  exact ⟨fun hne => absurd hdiv hne, fun hne => absurd hcnt hne, fun hne => absurd hprev hne, fun hne => absurd hsel hne⟩

theorem exec_bankWrites {i : Instr} {s t : State} (h : exec i s = .next t) : BankWrites i s t := by
  cases i with
  | tick =>
    obtain ⟨hdiv, hprev, hsel⟩ := execTick_bank h
    exact ⟨fun hne => absurd hdiv hne, fun _ => .inl rfl, fun hne => absurd hprev hne, fun hne => ⟨rfl, hsel hne⟩⟩
  | dadj c => exact ⟨fun _ => ⟨c, rfl⟩, fun _ => .inr ⟨c, rfl⟩, fun _ => ⟨c, rfl⟩, fun hne => absurd (execDadj_sel h) hne⟩
  | epit k => exact (execEpit_sameBank h).bankWrites
  | evel k => exact (execEvel_sameBank h).bankWrites
  | qnt n k => exact (execQnt_sameBank h).bankWrites
  | dsel | bas | bal | bbs | bbl => exact (arrive_sameBank h).bankWrites

/-- Settles O27. -/
theorem onlyItsCommandsWriteTheBank : Obligations.OnlyItsCommandsWriteTheBank :=
  fun _ _ _ h => exec_bankWrites h

end Sys2Proof.Machine
end

section
/-!
Decoding and encoding (R60 to R68, R73): the fields of a word, how they make it up in each format, and the words that decode to no
command.
-/
namespace Sys2Proof.Machine

/-! The fields of a word (R60 to R62). -/

/-- A word is its opcode followed by its other 24 bits. -/
theorem opcode_append_low (w : CmdWord) : opcodeOf w ++ w.extractLsb' 0 24 = w :=
  BitVec.extractLsb'_append_extractLsb' (w := 8) (len := 24)

/-- The low 24 bits in format C. -/
theorem low_eq_append_count (w : CmdWord) : w.extractLsb' 8 16 ++ countOf w = w.extractLsb' 0 24 :=
  BitVec.extractLsb'_append_extractLsb'_eq_extractLsb' rfl

/-- The low 24 bits in formats K and T. -/
theorem low_eq_append_knob (w : CmdWord) : w.extractLsb' 16 8 ++ knobOf w = w.extractLsb' 0 24 :=
  BitVec.extractLsb'_append_extractLsb'_eq_extractLsb' rfl

theorem opcodeOf_append (op : Byte) (low : BitVec 24) : opcodeOf (op ++ low) = op :=
  BitVec.extractLsb'_append_eq_left

/-- A field of the low 24 bits does not depend on the opcode. -/
theorem extractLsb'_append_low {start len : Nat} (h : start + len ≤ 24) (op : Byte) (low : BitVec 24) :
    (op ++ low : CmdWord).extractLsb' start len = low.extractLsb' start len :=
  BitVec.extractLsb'_append_eq_of_add_le h

theorem reserved16_append (op : Byte) (r : BitVec 16) (c : Byte) :
    (op ++ (r ++ c) : CmdWord).extractLsb' 8 16 = r := by
  rw [extractLsb'_append_low (by decide)]
  exact BitVec.extractLsb'_append_eq_left

theorem reserved8_append (op r : Byte) (k : Code) : (op ++ (r ++ k) : CmdWord).extractLsb' 16 8 = r := by
  rw [extractLsb'_append_low (by decide)]
  exact BitVec.extractLsb'_append_eq_left

theorem countOf_append (op : Byte) (r : BitVec 16) (c : Byte) : countOf (op ++ (r ++ c)) = c := by
  rw [countOf, extractLsb'_append_low (by decide)]
  exact BitVec.extractLsb'_append_eq_right

theorem knobOf_append (op t : Byte) (k : Code) : knobOf (op ++ (t ++ k)) = k := by
  rw [knobOf, extractLsb'_append_low (by decide)]
  exact BitVec.extractLsb'_append_eq_right

theorem tableOf_append (op t : Byte) (k : Code) : tableOf (op ++ (t ++ k)) = t := reserved8_append op t k

/-! The word of each format (R61) from its fields. -/

theorem eq_word_of_formatN {op : Byte} {w : CmdWord} (hop : opcodeOf w = op) (hreserved : w.extractLsb' 0 24 = 0) :
    op ++ 0#24 = w := by
  rw [← opcode_append_low w, hop, hreserved]
  rfl

theorem eq_word_of_formatC {op : Byte} {w : CmdWord} (hop : opcodeOf w = op) (hreserved : w.extractLsb' 8 16 = 0) :
    op ++ (0#16 ++ countOf w) = w := by
  rw [← opcode_append_low w, ← low_eq_append_count w, hop, hreserved, countOf_append]
  rfl

theorem eq_word_of_formatT {op : Byte} {w : CmdWord} (hop : opcodeOf w = op) : op ++ (tableOf w ++ knobOf w) = w := by
  rw [tableOf, low_eq_append_knob, ← hop, opcode_append_low]

theorem eq_word_of_formatK {op : Byte} {w : CmdWord} (hop : opcodeOf w = op) (hreserved : w.extractLsb' 16 8 = 0) :
    op ++ (0#8 ++ knobOf w) = w := by
  have htable : tableOf w = 0#8 := hreserved
  rw [← htable, eq_word_of_formatT hop]

/-! Decoding and encoding (R65). -/

theorem checkReserved_eq_ok_iff {n : Nat} {r : BitVec n} {i j : Instr} :
    checkReserved r i = .ok j ↔ r = 0 ∧ i = j := by
  by_cases h : r = 0
  · simp [checkReserved, h]
  · simp only [checkReserved, h, if_false, false_and, reduceCtorEq]

theorem checkReserved_zero {n : Nat} (i : Instr) : checkReserved 0#n i = .ok i :=
  checkReserved_eq_ok_iff.2 ⟨rfl, rfl⟩

theorem decode_encode (i : Instr) : decode (encode i) = .ok i := by
  cases i with
  | tick | dsel | bas | bal | bbs | bbl => rfl
  | dadj c =>
    rw [encode, decode, opcodeOf_append, reserved16_append, countOf_append]
    exact checkReserved_zero _
  | epit k | evel k =>
    rw [encode, decode, opcodeOf_append, reserved8_append, knobOf_append]
    exact checkReserved_zero _
  | qnt t k =>
    rw [encode, decode, opcodeOf_append, tableOf_append, knobOf_append]
    rfl

/-- An opcode is known by its number. -/
theorem opcodeOf_eq {w : CmdWord} {n : Nat} (h : (opcodeOf w).toNat = n) : opcodeOf w = BitVec.ofNat 8 n := by
  rw [← h, BitVec.ofNat_toNat, BitVec.setWidth_eq]

/-- What decodes is the word of the command read: every branch of R65 keeps all the bits. -/
theorem encode_of_decode {w : CmdWord} {i : Instr} (h : decode w = .ok i) : encode i = w := by
  unfold decode at h
  split at h
  case h_1 hop | h_6 hop | h_7 hop | h_8 hop | h_9 hop | h_10 hop =>
    obtain ⟨hreserved, rfl⟩ := checkReserved_eq_ok_iff.1 h
    exact eq_word_of_formatN (opcodeOf_eq hop) hreserved
  case h_2 hop =>
    obtain ⟨hreserved, rfl⟩ := checkReserved_eq_ok_iff.1 h
    exact eq_word_of_formatC (opcodeOf_eq hop) hreserved
  case h_3 hop | h_4 hop =>
    obtain ⟨hreserved, rfl⟩ := checkReserved_eq_ok_iff.1 h
    exact eq_word_of_formatK (opcodeOf_eq hop) hreserved
  case h_5 hop =>
    cases h
    exact eq_word_of_formatT (opcodeOf_eq hop)
  case h_11 => cases h

theorem decode_eq_ok_iff (w : CmdWord) (i : Instr) : decode w = .ok i ↔ encode i = w :=
  ⟨encode_of_decode, fun h => h ▸ decode_encode i⟩

/-- Settles O1. -/
theorem decodeAcceptsExactlyTheEncodings : Obligations.DecodeAcceptsExactlyTheEncodings :=
  decode_eq_ok_iff

/-! The rows of the opcode map (R63, R64). -/

theorem encodingRow (i : Instr) : Laws.EncodingRow.Statement i :=
  match i with
  | .tick => Laws.EncodingRow.tick
  | .dadj c => Laws.EncodingRow.dadj c
  | .epit k => Laws.EncodingRow.epit k
  | .evel k => Laws.EncodingRow.evel k
  | .qnt t k => Laws.EncodingRow.qnt t k
  | .dsel => Laws.EncodingRow.dsel
  | .bas => Laws.EncodingRow.bas
  | .bal => Laws.EncodingRow.bal
  | .bbs => Laws.EncodingRow.bbs
  | .bbl => Laws.EncodingRow.bbl

/-- The command of `i`'s row with the operands that `w` carries. -/
def withOperandsOf (w : CmdWord) : Instr → Instr
  | .dadj _ => .dadj (countOf w)
  | .epit _ => .epit (knobOf w)
  | .evel _ => .evel (knobOf w)
  | .qnt _ _ => .qnt (tableOf w) (knobOf w)
  | .tick => .tick
  | .dsel => .dsel
  | .bas => .bas
  | .bal => .bal
  | .bbs => .bbs
  | .bbl => .bbl

theorem matchMask_withOperandsOf (w : CmdWord) (i : Instr) : matchMask (withOperandsOf w i) = matchMask i := by
  cases i <;> rfl

/-- A field that a mask keeps whole is that of the match. -/
theorem extractLsb'_of_and_eq {w mask m : CmdWord} {start len : Nat} (h : w &&& mask = m)
    (hmask : mask.extractLsb' start len = BitVec.allOnes len) : w.extractLsb' start len = m.extractLsb' start len := by
  rw [← h, BitVec.extractLsb'_and, hmask, BitVec.and_allOnes]

/-- A word that matches a row is the encoding of that row's command with the word's operands. -/
theorem encode_withOperandsOf {w : CmdWord} {i : Instr} (h : w &&& (matchMask i).2 = (matchMask i).1) :
    encode (withOperandsOf w i) = w := by
  cases i with
  | tick | dsel | bas | bal | bbs | bbl =>
    exact eq_word_of_formatN (extractLsb'_of_and_eq h rfl) (extractLsb'_of_and_eq h rfl)
  | dadj c =>
    simp only [matchMask] at h
    exact eq_word_of_formatC (extractLsb'_of_and_eq h rfl) (extractLsb'_of_and_eq h rfl)
  | epit k | evel k =>
    simp only [matchMask] at h
    exact eq_word_of_formatK (extractLsb'_of_and_eq h rfl) (extractLsb'_of_and_eq h rfl)
  | qnt t k =>
    simp only [matchMask] at h
    exact eq_word_of_formatT (extractLsb'_of_and_eq h rfl)

/-- Settles O2: an encoding matches its row, and a matching word is an encoding. -/
theorem wordIsCommandIffItMatchesUnderMask : Obligations.WordIsCommandIffItMatchesUnderMask := by
  intro w i
  constructor
  · rintro ⟨j, hdecode, hrow⟩
    rw [← hrow, ← encode_of_decode hdecode]
    exact (encodingRow j).1
  · intro h
    have hdecode := decode_encode (withOperandsOf w i)
    rw [encode_withOperandsOf h] at hdecode
    exact ⟨withOperandsOf w i, hdecode, matchMask_withOperandsOf w i⟩

/-- Settles O3: a decoded word is an encoding, whose class bit is its row's. -/
theorem classBitSeparatesTheClasses : Obligations.ClassBitSeparatesTheClasses := by
  refine ⟨fun w i h => ?_, fun i => ?_⟩
  · rw [← encode_of_decode h]
    exact (encodingRow i).2
  · cases i <;> simp [Instr.isClassA]

/-- Settles O4: the accepted words are encodings. -/
theorem specWordsDecode : Obligations.SpecWordsDecode :=
  ⟨decode_encode .tick, decode_encode (.dadj 3), decode_encode (.epit 0x8000), decode_encode (.evel 65535),
    decode_encode (.qnt 1 22282), decode_encode .bbl, rfl, rfl⟩

/-! The words in numbers (R66, R73). -/

theorem opcodeOf_toNat (w : CmdWord) : (opcodeOf w).toNat = w.toNat / 2 ^ 24 := by
  rw [opcodeOf, BitVec.extractLsb'_toNat, Nat.shiftRight_eq_div_pow]
  omega

/-- A field of a word is zero exactly when the number there is. -/
theorem extractLsb'_eq_zero_iff (w : CmdWord) (start len : Nat) :
    w.extractLsb' start len = 0 ↔ w.toNat / 2 ^ start % 2 ^ len = 0 := by
  rw [← BitVec.toNat_inj, BitVec.extractLsb'_toNat, Nat.shiftRight_eq_div_pow]
  rfl

theorem exists_checkReserved_iff {n : Nat} (r : BitVec n) (i : Instr) : (∃ j, checkReserved r i = .ok j) ↔ r = 0 := by
  simp only [checkReserved_eq_ok_iff, exists_and_left, exists_eq', and_true]

/-- The words that decode to no command, by the branch of R65 that refuses them. -/
theorem undefinedWord_iff (w : CmdWord) : UndefinedWord w.toNat ↔ ¬ ∃ i, decode w = .ok i := by
  unfold decode UndefinedWord
  rw [← opcodeOf_toNat]
  split
  case h_1 h | h_2 h | h_3 h | h_4 h | h_6 h | h_7 h | h_8 h | h_9 h | h_10 h =>
    rw [exists_checkReserved_iff, extractLsb'_eq_zero_iff, h]
    simp
  case h_5 h => simp [h]
  case h_11 => simp_all

/-- An undefined word is dropped on the state with the word taken (R66). -/
theorem step_of_decode_error {s : State} {w : CmdWord} {rest : List PortEvent} {e : DecodeError}
    (hport : s.port = .cmd w :: rest) (hdecode : decode w = .error e) :
    step s = .next (dropUndefined { s with port := rest }) := by
  simp only [step, takeEvent_of_port_cons hport, hdecode]

/-- Settles O7. -/
theorem undefinedWordSetsOnlyItsFlag : Obligations.UndefinedWordSetsOnlyItsFlag := by
  refine ⟨fun s w rest hport hundefined => ?_, undefinedWord_iff, .inl (by decide), .inl (by decide)⟩
  cases hdecode : decode w with
  | ok i => exact absurd ⟨i, hdecode⟩ ((undefinedWord_iff w).1 hundefined)
  | error e => exact step_of_decode_error hport hdecode

theorem toNat_append_eq_add {m n : Nat} (x : BitVec m) (y : BitVec n) : (x ++ y).toNat = x.toNat * 2 ^ n + y.toNat := by
  rw [BitVec.toNat_append, ← Nat.shiftLeft_add_eq_or_of_lt y.isLt, Nat.shiftLeft_eq]

theorem toNat_zero_append {m n : Nat} (y : BitVec n) : (0#m ++ y).toNat = y.toNat := by
  rw [toNat_append_eq_add, BitVec.toNat_zero, Nat.zero_mul, Nat.zero_add]

/-- A command's own mnemonic and operands name it: every operand fits its field. -/
theorem assemble_mnemonic_operands (i : Instr) : assemble (mnemonic i) (operands i) = some i := by
  cases i with
  | tick | dsel | bas | bal | bbs | bbl => rfl
  | dadj c => simp [assemble, mnemonic, operands, c.isLt]
  | epit k | evel k => simp [assemble, mnemonic, operands, k.isLt]
  | qnt t k => simp [assemble, mnemonic, operands, t.isLt, k.isLt]

/-- Settles O5. -/
theorem lineAssemblesToItsWord : Obligations.LineAssemblesToItsWord := by
  refine ⟨assemble_mnemonic_operands, by decide, fun c => ?_, fun k => ?_, fun k => ?_, fun t k => ?_⟩
  · rw [encode, toNat_append_eq_add, toNat_zero_append]
    rfl
  · rw [encode, toNat_append_eq_add, toNat_zero_append]
    rfl
  · rw [encode, toNat_append_eq_add, toNat_zero_append]
    rfl
  · rw [encode, toNat_append_eq_add, toNat_append_eq_add, Nat.add_assoc]
    rfl

end Sys2Proof.Machine
end

section
/-!
Commands that do nothing or set a flag alone: illegal operands (R67) and the no-op cells of the applicability matrix (R75).
-/
namespace Sys2Proof.Machine

/-! Illegal operands (R67). -/

theorem execDadj_of_illegal {c : Byte} (h : countLegal c = false) (s : State) : execDadj c s = .next s.setBadop := by
  simp [execDadj, h]

theorem execQnt_of_illegal {t : Byte} {s : State} (h : tableLegal s.cfg t = false) (k : Code) :
    execQnt t k s = .next s.setBadop := by
  simp [execQnt, h]

theorem countLegal_eq_false {c : Byte} (h : c.toNat = 0 ∨ 128 ≤ c.toNat) : countLegal c = false := by
  rw [Bool.eq_false_iff, ne_eq, countLegal_iff]
  omega

theorem execQnt_stBadop_of_legal {t : Byte} {k : Code} {s u : State} (ht : t.toNat < s.cfg.nt)
    (h : execQnt t k s = .next u) : u.stBadop = s.stBadop := by
  obtain ⟨_, hbadop⟩ := execQnt_frame h
  by_contra hne
  have hillegal := hbadop hne
  simp [tableLegal, ht] at hillegal

/-- Settles O25. -/
theorem illegalOperandSetsOnlyItsFlag : Obligations.IllegalOperandSetsOnlyItsFlag := by
  refine ⟨fun c s h => execDadj_of_illegal (countLegal_eq_false h) s, fun t k s h => ?_, ?_⟩
  · have hillegal : tableLegal s.cfg t = false := decide_eq_false (Nat.not_lt.2 h)
    exact execQnt_of_illegal hillegal k
  · rintro k s u (h | h | ⟨t, ht, h⟩)
    · exact (execEpit_frame h).2
    · exact (execEvel_frame h).2
    · exact execQnt_stBadop_of_legal ht h

/-! Commands that are not applicable (R75, R77). -/

theorem arrive_of_not_applicable {c : Intent} {s : State} (h : applicable s.cfg.behavior c = false) :
    arrive c s = .next s := by
  simp [arrive, h]

/-- An applicable intent that arrives while not gated is applied at once (R135). -/
theorem arrive_of_not_gated {c : Intent} {s : State} (happlicable : applicable s.cfg.behavior c = true)
    (hgated : s.gated = false) : arrive c s = applyIntent c s := by
  simp [arrive, happlicable, hgated]

theorem gated_of_seq {s : State} (h : s.cfg.behavior = .seq) : s.gated = (decide (s.mode = .play) && s.running) := by
  simp only [State.gated, h]

theorem execDadj_of_seq {c : Byte} {s : State} (hseq : s.cfg.behavior = .seq) (hlegal : countLegal c = true) :
    execDadj c s = .next s := by
  simp only [execDadj, hlegal, if_true, hseq]

theorem execEpit_of_not_editing {s : State} (h : s.editing = false) (k : Code) : execEpit k s = .next s := by
  simp [execEpit, h]

theorem execEvel_of_not_editing {s : State} (h : s.editing = false) (k : Code) : execEvel k s = .next s := by
  simp [execEvel, h]

/-- In behaviour `SEQ` a `TICK` that no running Play waits for is not consumed (R77). -/
theorem execTick_of_not_gated {s : State} (hseq : s.cfg.behavior = .seq) (hgated : s.gated = false) :
    execTick s = .next s := by
  rw [gated_of_seq hseq] at hgated
  simp [execTick, hseq, hgated]

theorem applyBal_of_play {s : State} (h : s.mode = .play) : applyBal s = s := by
  simp only [applyBal, h]

theorem applyBbs_of_play {s : State} (h : s.mode = .play) : applyBbs s = s := by
  simp only [applyBbs, h]

theorem not_editing_of_div {s : State} (h : s.cfg.behavior = .div) : s.editing = false := by
  simp [State.editing, h]

theorem not_editing_of_play {s : State} (h : s.mode = .play) : s.editing = false := by
  simp [State.editing, h]

/-- Paused Play: `BAL` and `BBS` are applied at once, and do nothing in Play (R108, R109). -/
theorem exec_of_pausedPlay {s : State} (hseq : s.cfg.behavior = .seq) (hplay : s.mode = .play) (hpaused : s.running = false) :
    ∀ i ∈ [Instr.tick, .bal, .bbs], exec i s = .next s := by
  have hgated : s.gated = false := by rw [gated_of_seq hseq, hpaused, Bool.and_false]
  have hbutton (c : Intent) (hc : applicable .seq c = true) : arrive c s = applyIntent c s :=
    arrive_of_not_gated (hseq ▸ hc) hgated
  have hbal : arrive .bal s = .next s := by
    rw [hbutton .bal rfl, applyIntent, applyBal_of_play hplay]
  have hbbs : arrive .bbs s = .next s := by
    rw [hbutton .bbs rfl, applyIntent, applyBbs_of_play hplay]
  simpa using ⟨execTick_of_not_gated hseq hgated, hbal, hbbs⟩

/-- Behaviour `DIV`: the Edit-mode samples are not for it, and the buttons are not applicable (R75). -/
theorem exec_of_div {s : State} (hdiv : s.cfg.behavior = .div) (k : Code) :
    ∀ i ∈ [Instr.epit k, .evel k, .bas, .bal, .bbs, .bbl], exec i s = .next s := by
  have hediting := not_editing_of_div hdiv
  have hbutton (c : Intent) (hc : applicable .div c = false) : arrive c s = .next s :=
    arrive_of_not_applicable (hdiv ▸ hc)
  simpa using ⟨execEpit_of_not_editing hediting k, execEvel_of_not_editing hediting k, hbutton .bas rfl, hbutton .bal rfl,
    hbutton .bbs rfl, hbutton .bbl rfl⟩

/-- Settles O26. -/
theorem inapplicableCommandsDoNothing : Obligations.InapplicableCommandsDoNothing := by
  refine ⟨fun s hseq => ⟨?_, fun c hlow hhigh => ?_⟩, fun s hdiv k => exec_of_div hdiv k, fun s hseq hedit => ?_,
    fun s _ hplay k => ?_, fun s hseq hplay hpaused => exec_of_pausedPlay hseq hplay hpaused⟩
  · exact arrive_of_not_applicable (hseq ▸ rfl)
  · exact execDadj_of_seq hseq ((countLegal_iff c).2 ⟨hlow, hhigh⟩)
  · exact execTick_of_not_gated hseq (by simp [gated_of_seq hseq, hedit])
  · have hediting := not_editing_of_play hplay
    simpa using ⟨execEpit_of_not_editing hediting k, execEvel_of_not_editing hediting k⟩

end Sys2Proof.Machine
end

section
/-!
The link record in bytes (R70), and the outputs as the history gives them (R71).
-/
namespace Sys2Proof.Machine

/-! The link (R70, R162, R173). -/

theorem selByte_legal (sel : Option (Fin 4)) : selByte sel = 0xFF#8 ∨ (selByte sel).toNat ≤ 3 := by
  revert sel
  decide

theorem divisionByte_iff (b : Byte) : divisionByte b = true ↔ 1 ≤ b.toNat ∧ b.toNat ≤ 127 := by
  simp only [divisionByte, Bool.and_eq_true, decide_eq_true_eq]

theorem linkRecord_legal_iff (r : LinkRecord) :
    r.legal = true ↔ (r.selected = 0xFF#8 ∨ r.selected.toNat ≤ 3) ∧ lanesLegal ⟨r.d1, r.d2, r.d3, r.d4⟩ := by
  simp only [LinkRecord.legal, Bool.and_eq_true, Bool.or_eq_true, decide_eq_true_eq, divisionByte_iff, and_assoc]

/-- A bank in range sends a record whose values are those of R70. -/
theorem linkRecord_legal {s : State} (h : lanesLegal s.div) : s.linkRecord.legal = true :=
  (linkRecord_legal_iff _).2 ⟨selByte_legal s.sel, h⟩

theorem parseRecord_bytes {r : LinkRecord} (h : r.legal = true) : parseRecord r.bytes = some r :=
  if_pos h

theorem parseRecord_eq_none {bs : List Byte} (h : bs.length ≠ 5) : parseRecord bs = none := by
  unfold parseRecord
  split
  · exact absurd rfl h
  · rfl

/-- Settles O55. -/
theorem linkRecordIsReadBackOrIgnored : Obligations.LinkRecordIsReadBackOrIgnored := by
  refine ⟨fun s shown h => ?_, fun shown bs h => ?_, fun s => ?_⟩
  · obtain ⟨_, ⟨hdiv, _⟩, _⟩ := h
    simp only [displayAfter, parseRecord_bytes (linkRecord_legal hdiv)]
  · simp only [displayAfter, parseRecord_eq_none h]
  · cases hsel : s.sel <;> simp only [LinkRecord.bytes, State.linkRecord, selByte, hsel] <;> rfl

/-! Replaying the history (R71). -/

theorem replay_append (es fs : List Event) (p : Lanes Code × BitVec 4) : replay (es ++ fs) p = replay fs (replay es p) := by
  induction es generalizing p with
  | nil => rfl
  | cons e es ih => cases e <;> exact ih _

/-- `t` is `s` after some events: they are appended to the history, and its outputs are the levels they set. -/
def Emits (s t : State) : Prop := ∃ es, t.out = s.out ++ es ∧ (t.aout, t.dout) = replay es (s.aout, s.dout)

theorem Emits.of_same {s t : State} (hout : t.out = s.out) (haout : t.aout = s.aout) (hdout : t.dout = s.dout) :
    Emits s t :=
  ⟨[], by rw [hout, List.append_nil], by rw [haout, hdout]; rfl⟩

theorem Emits.refl (s : State) : Emits s s := .of_same rfl rfl rfl

theorem Emits.trans {s t u : State} (h : Emits s t) (k : Emits t u) : Emits s u := by
  obtain ⟨es, hout, hlevels⟩ := h
  obtain ⟨fs, kout, klevels⟩ := k
  exact ⟨es ++ fs, by rw [kout, hout, List.append_assoc], by rw [klevels, hlevels, replay_append]⟩

/-- What the history gives before some events, it gives after them. -/
theorem Emits.replay_out {s t : State} {p : Lanes Code × BitVec 4} (h : Emits s t) (hs : replay s.out p = (s.aout, s.dout)) :
    replay t.out p = (t.aout, t.dout) := by
  obtain ⟨es, hout, hlevels⟩ := h
  rw [hout, replay_append, hs, hlevels]

theorem emits_emit (s : State) (e : Event) : Emits s (s.emit e) := by
  cases e <;> exact ⟨[_], rfl, rfl⟩

theorem emits_pulse (s : State) (m : BitVec 4) : Emits s (s.pulse m) :=
  (emits_emit s _).trans (emits_emit _ _)

theorem emits_notify (s : State) : Emits s s.notify := by
  unfold State.notify
  split
  · exact emits_emit s _
  · exact .refl s

theorem emits_divOnTick (s : State) : Emits s (divOnTick s) := by
  simp only [divOnTick]
  split
  · exact .refl s
  · exact emits_pulse { s with cnt := Lanes.zip laneNext s.cnt s.div } _

theorem emits_advance (s : State) : Emits s (advance s) := by
  unfold advance
  split
  · exact emits_pulse { s with pos := 0 } _
  · exact .refl s

theorem playRows_emits {rs : List Nat} {s t : State} (h : playRows rs s = .next t) : Emits s t := by
  induction rs generalizing s with
  | nil => cases h; exact .refl _
  | cons r rs ih =>
    obtain ⟨u, hrow, hrows⟩ := andThen_spec _ _ _ h
    obtain ⟨_, jp, jv, _, rfl⟩ := playRow_spec r s u hrow
    exact ((emits_emit s _).trans (emits_emit _ _)).trans (ih hrows)

theorem playStep_emits {s t : State} (h : playStep s = .next t) : Emits s t := by
  obtain ⟨u, hrows, hpulse⟩ := andThen_spec _ _ _ h
  cases hpulse
  exact (playRows_emits hrows).trans (emits_pulse u _)

theorem seqPlayTick_emits {s t : State} (h : seqPlayTick s = .next t) : Emits s t := by
  obtain ⟨u, hplay, hadvance⟩ := andThen_spec _ _ _ h
  cases hadvance
  exact (playStep_emits hplay).trans (emits_advance u)

theorem previewWrite_emits {s t : State} (h : previewWrite s = .next t) : Emits s t := by
  obtain ⟨ht, _⟩ := previewWrite_spec s t h
  rw [ht]
  exact .refl s

/-! Every command's events account for its outputs. -/

theorem applyIntent_emits {c : Intent} {s t : State} (h : applyIntent c s = .next t) : Emits s t := by
  cases c with
  | dsel => cases h; exact emits_notify { s with sel := nextSel s.sel }
  | bas =>
    simp only [applyIntent, applyBas] at h
    split at h
    · obtain ⟨u, hwrite, hplay⟩ := andThen_spec _ _ _ h
      exact (previewWrite_emits hwrite).trans (playStep_emits hplay)
    · cases h; exact .refl s
  | bal => cases h; unfold applyBal; split <;> exact .refl s
  | bbs =>
    cases h
    unfold applyBbs
    split
    · exact emits_advance s
    · exact .refl s
  | bbl => cases h; unfold applyBbl; split <;> exact .refl s

theorem drain_emits {s t : State} (h : drain s = .next t) : Emits s t :=
  (drainList_induct (Emits s)
    (fun _ rest u _ _ hs happly => hs.trans (applyIntent_emits (s := { u with iq := rest }) happly)) s.iq s t rfl (.refl s) h).1

theorem arrive_emits {c : Intent} {s t : State} (h : arrive c s = .next t) : Emits s t := by
  rcases arrive_spec c s t h with ⟨_, rfl⟩ | ⟨_, _, rfl⟩ | ⟨_, _, happly⟩
  · exact .refl _
  · rcases enqueue_cases c s with ⟨_, heq⟩ | ⟨_, heq⟩ <;> rw [heq] <;> exact .refl s
  · exact applyIntent_emits happly

theorem execTick_emits {s t : State} (h : execTick s = .next t) : Emits s t := by
  rcases execTick_spec s t h with ⟨_, hdrain⟩ | ⟨_, _, _, u, hplay, hdrain⟩ | ⟨_, _, rfl⟩
  · exact (emits_divOnTick s).trans (drain_emits hdrain)
  · exact (seqPlayTick_emits hplay).trans (drain_emits hdrain)
  · exact .refl _

theorem emits_adjustSelected (c : Byte) (s : State) : Emits s (adjustSelected c s) := by
  rcases adjustSelected_spec c s with heq | ⟨i, _, _, heq⟩ <;> rw [heq]
  · exact .refl s
  · exact emits_notify { s with
      div := s.div.set i c
      cnt := if s.cfg.resetCounterOnChange then s.cnt.set i c else s.cnt }

theorem execDadj_emits {c : Byte} {s t : State} (h : execDadj c s = .next t) : Emits s t := by
  rcases execDadj_spec c s t h with ⟨_, rfl⟩ | ⟨_, _, rfl⟩ | ⟨_, _, rfl⟩
  · exact .refl s
  · exact .refl _
  · exact emits_adjustSelected c s

theorem stepWrite_emits {f : StepField} {v : Code} {s t : State} (h : stepWrite f v s = .next t) : Emits s t := by
  obtain ⟨_, rfl⟩ := stepWrite_spec f v s t h
  exact .refl s

theorem execEpit_emits {k : Code} {s t : State} (h : execEpit k s = .next t) : Emits s t := by
  rcases execEpit_spec k s t h with rfl | ⟨m, u, _, _, _, hwrite, rfl⟩
  · exact .refl _
  · exact stepWrite_emits (t := u) hwrite

theorem execEvel_emits {k : Code} {s t : State} (h : execEvel k s = .next t) : Emits s t := by
  rcases execEvel_spec k s t h with rfl | ⟨u, _, _, hwrite, rfl⟩
  · exact .refl _
  · exact stepWrite_emits (t := u) hwrite

theorem execQnt_emits {n : Byte} {k : Code} {s t : State} (h : execQnt n k s = .next t) : Emits s t := by
  rcases execQnt_spec n k s t h with ⟨_, _, _, rfl⟩ | ⟨_, rfl⟩
  · exact emits_emit s _
  · exact .refl s

theorem exec_emits {i : Instr} {s t : State} (h : exec i s = .next t) : Emits s t := by
  cases i with
  | tick => exact execTick_emits h
  | dadj c => exact execDadj_emits h
  | epit k => exact execEpit_emits h
  | evel k => exact execEvel_emits h
  | qnt n k => exact execQnt_emits h
  | dsel | bas | bal | bbs | bbl => exact arrive_emits h

/-- Settles O21: a reset clears history and outputs alike; every other step emits events. -/
theorem outputsFollowTheHistory : Obligations.OutputsFollowTheHistory := by
  intro s t hs h
  rcases step_spec s t h with ⟨_, rfl⟩ | ⟨rest, _, rfl⟩ | ⟨w, rest, i, _, _, hexec⟩ | ⟨w, rest, e, _, _, rfl⟩
  · exact hs
  · rfl
  · exact (exec_emits hexec).replay_out hs
  · exact hs

end Sys2Proof.Machine
end

section
/-!
The adjacent Clock Source: the external pulse taken whole (R86), the smoothing window after any samples (R83, R90), and the
tempo within its bounds (R88).
-/
namespace Sys2Proof.Machine

/-! The external pulse (R86, R163). -/

/-- The input seen active after an inactive level: a rise not yet matched. -/
def ClockState.rise (active : Bool) (cs : ClockState) : ClockState := { cs with lastLevel := active, risen := true }

/-- The input seen inactive again. -/
def ClockState.fall (active : Bool) (cs : ClockState) : ClockState := { cs with lastLevel := !active, risen := false }

theorem observeLevel_active_of_inactive {active : Bool} {cs : ClockState} (h : cs.lastLevel = !active) :
    observeLevel active active cs = (cs.rise active, false) := by
  simp [observeLevel, ClockState.rise, h]

theorem observeLevel_active_of_risen (active : Bool) (cs : ClockState) :
    observeLevel active active (cs.rise active) = (cs.rise active, false) := by
  simp [observeLevel, ClockState.rise]

/-- A transition to inactive is a tick where the matching rise has been seen, and only there. -/
theorem observeLevel_inactive (active : Bool) (cs : ClockState) :
    observeLevel active (!active) cs = (cs.fall active, cs.risen) := by
  simp [observeLevel, ClockState.fall]

theorem fall_of_inactive {active : Bool} {cs : ClockState} (hlevel : cs.lastLevel = !active) (hrisen : cs.risen = false) :
    cs.fall active = cs := by
  rw [ClockState.fall, ← hlevel, ← hrisen]

theorem tickExternal_cons_of_no_tick {active l : Bool} {cs t : ClockState} (h : observeLevel active l cs = (t, false))
    (ls : List Bool) : tickExternal active (l :: ls) cs = tickExternal active ls t := by
  rw [tickExternal, h]

theorem tickExternal_cons_of_tick {active l : Bool} {cs t : ClockState} (h : observeLevel active l cs = (t, true))
    (ls : List Bool) : tickExternal active (l :: ls) cs = some (t, ls) := by
  rw [tickExternal, h]

/-- Levels that change nothing when seen are waited through. -/
theorem tickExternal_replicate_append {active l : Bool} {cs : ClockState} (h : observeLevel active l cs = (cs, false))
    (n : Nat) (ls : List Bool) : tickExternal active (List.replicate n l ++ ls) cs = tickExternal active ls cs := by
  induction n with
  | zero => rfl
  | succ n ih => rw [List.replicate_succ, List.cons_append, tickExternal_cons_of_no_tick h, ih]

theorem tickExternal_inactive_levels {active : Bool} {cs : ClockState} (hlevel : cs.lastLevel = !active)
    (hrisen : cs.risen = false) (n : Nat) (ls : List Bool) :
    tickExternal active (List.replicate n (!active) ++ ls) cs = tickExternal active ls cs := by
  refine tickExternal_replicate_append ?_ n ls
  rw [observeLevel_inactive, fall_of_inactive hlevel hrisen, hrisen]

/-- One active level or more, after an inactive one, are one rise. -/
theorem tickExternal_active_levels {active : Bool} {cs : ClockState} (hlevel : cs.lastLevel = !active) (n : Nat)
    (ls : List Bool) :
    tickExternal active (List.replicate (n + 1) active ++ ls) cs = tickExternal active ls (cs.rise active) := by
  rw [List.replicate_succ, List.cons_append, tickExternal_cons_of_no_tick (observeLevel_active_of_inactive hlevel),
    tickExternal_replicate_append (observeLevel_active_of_risen active cs)]

/-- Settles O58: the rise alone answers nothing, and the level after it completes the tick. -/
theorem externalTickIsOneWholePulse : Obligations.ExternalTickIsOneWholePulse := by
  refine ⟨fun active cs a b rest hlevel hrisen => ⟨(cs.rise active).fall active, ?_, rfl, rfl⟩,
    fun active cs a b hlevel hrisen => ?_⟩
  · rw [List.append_assoc, tickExternal_inactive_levels hlevel hrisen, tickExternal_active_levels hlevel,
      tickExternal_cons_of_tick (observeLevel_inactive active _)]
  · rw [tickExternal_inactive_levels hlevel hrisen]
    cases b with
    | zero => rfl
    | succ b => rw [← List.append_nil (List.replicate _ _), tickExternal_active_levels hlevel, tickExternal]

/-! The samples in the window (R83, R90). -/

/-- A reading within `[0, 1]` gives its sample (R84). -/
theorem tempoSample_of_reading (c : TempoConfig) {r : Rat} (h : 0 ≤ r ∧ r ≤ 1) :
    tempoSample c r = some (readInternalTempo c r) :=
  (tempoSample_eq_some c r _).2 ⟨h, rfl⟩

theorem clockStart_of_reading (c : TempoConfig) (m : ClockMode) {r : Rat} (level : Bool) (h : 0 ≤ r ∧ r ≤ 1) :
    clockStart c m r level = some (clockFilled c m (readInternalTempo c r) level) := by
  rw [clockStart, tempoSample_of_reading c h, Option.map_some]

theorem tickInternal_of_reading (c : TempoConfig) {r : Rat} (cs : ClockState) (h : 0 ≤ r ∧ r ≤ 1) :
    tickInternal c r cs = some (pushSample (readInternalTempo c r) cs,
      tickInterval (pushSample (readInternalTempo c r) cs).tempoBpm) := by
  rw [tickInternal, tempoSample_of_reading c h, Option.map_some]

/-- The window after some samples: the latest as many as it held before. -/
theorem foldl_pushSample_window (xs : List Rat) {cs : ClockState} (h : cs.window ≠ []) :
    (xs.foldl (fun cs x => pushSample x cs) cs).window = (cs.window ++ xs).drop xs.length := by
  induction xs generalizing cs with
  | nil => simp
  | cons x xs ih =>
    obtain ⟨oldest, kept, hwindow⟩ := List.exists_cons_of_ne_nil h
    rw [List.foldl_cons, ih (by simp), pushSample_window, hwindow]
    simp

theorem foldl_pushSample_tempoBpm (xs : List Rat) {cs : ClockState} (h : cs.tempoBpm = windowMean cs.window) :
    (xs.foldl (fun cs x => pushSample x cs) cs).tempoBpm =
      windowMean (xs.foldl (fun cs x => pushSample x cs) cs).window := by
  induction xs generalizing cs with
  | nil => exact h
  | cons x xs ih => exact ih rfl

/-- The ticks of readings within `[0, 1]` push their samples. -/
theorem foldlM_tickInternal (c : TempoConfig) {rs : List Rat} (h : ∀ r ∈ rs, 0 ≤ r ∧ r ≤ 1) (cs : ClockState) :
    rs.foldlM (fun cs r => (tickInternal c r cs).map Prod.fst) cs =
      some ((rs.map (readInternalTempo c)).foldl (fun cs x => pushSample x cs) cs) := by
  induction rs generalizing cs with
  | nil => rfl
  | cons r rs ih =>
    obtain ⟨hr, hrs⟩ := List.forall_mem_cons.1 h
    rw [List.foldlM_cons, tickInternal_of_reading c cs hr]
    exact ih hrs _

/-- The window filled at startup, after any samples. -/
theorem filled_foldl_window (c : TempoConfig) (m : ClockMode) (first : Rat) (level : Bool) (xs : List Rat)
    (hK : 1 ≤ c.capacity) :
    (xs.foldl (fun cs x => pushSample x cs) (clockFilled c m first level)).window =
      (List.replicate c.capacity first ++ xs).drop xs.length := by
  refine foldl_pushSample_window xs ?_
  rw [clockFilled_window, ne_eq, List.replicate_eq_nil_iff]
  omega

theorem filled_foldl_tempoBpm (c : TempoConfig) (m : ClockMode) (first : Rat) (level : Bool) (xs : List Rat)
    (hK : 1 ≤ c.capacity) :
    (xs.foldl (fun cs x => pushSample x cs) (clockFilled c m first level)).tempoBpm =
      ((List.replicate c.capacity first ++ xs).drop xs.length).sum / c.capacity := by
  rw [foldl_pushSample_tempoBpm xs rfl, filled_foldl_window c m first level xs hK, windowMean]
  simp

/-- Settles O56: ticks push samples, so the second half is the first one at the samples of the readings. -/
theorem tempoIsTheMeanOfTheLatestSamples : Obligations.TempoIsTheMeanOfTheLatestSamples := by
  refine ⟨fun c m first level xs hK =>
    ⟨filled_foldl_window c m first level xs hK, filled_foldl_tempoBpm c m first level xs hK⟩,
    fun c m first level rs hK hreadings => ?_⟩
  obtain ⟨hfirst, hrs⟩ := List.forall_mem_cons.1 hreadings
  have hwindow := filled_foldl_window c m (readInternalTempo c first) level (rs.map (readInternalTempo c)) hK
  have htempo := filled_foldl_tempoBpm c m (readInternalTempo c first) level (rs.map (readInternalTempo c)) hK
  rw [List.length_map] at hwindow htempo
  exact ⟨_, _, clockStart_of_reading c m level hfirst, foldlM_tickInternal c hrs _, hwindow, by rw [htempo, hwindow]⟩

/-! The tempo bounds (R88). -/

theorem tempo_valid_of_valid {c : Config} (h : c.Valid) : c.tempo.Valid := by
  obtain ⟨_, _, _, _, _, _, _, _, _, _, htempo, _⟩ := h
  exact htempo

theorem construct_tempo_valid {r : ConfigRecord} {s : State} (h : construct r = .ok s) : s.cfg.tempo.Valid := by
  obtain ⟨hpass, b, _, rfl⟩ := (construct_eq_ok_iff r s).1 h
  exact tempo_valid_of_valid (configOf_valid b (accepted_of_no_violation hpass))

/-- The mean of numbers within bounds is within them. -/
theorem windowMean_bounds {w : List Rat} {lo hi : Rat} (hne : 1 ≤ w.length) (h : ∀ x ∈ w, lo ≤ x ∧ x ≤ hi) :
    lo ≤ windowMean w ∧ windowMean w ≤ hi := by
  have hlength : (0 : Rat) < w.length := Nat.cast_pos.2 hne
  have hlo := List.card_nsmul_le_sum w lo fun x hx => (h x hx).1
  have hhi := List.sum_le_card_nsmul w hi fun x hx => (h x hx).2
  rw [nsmul_eq_mul, mul_comm] at hlo hhi
  exact ⟨(le_div_iff₀ hlength).2 hlo, (div_le_iff₀ hlength).2 hhi⟩

theorem inv_tempoBpm_bounds {c : TempoConfig} {s : ClockState} (hc : c.Valid) (h : s.Inv c) :
    c.minBpm ≤ s.tempoBpm ∧ s.tempoBpm ≤ c.maxBpm := by
  obtain ⟨hfull, hsamples, htempo⟩ := h
  obtain ⟨_, _, hK⟩ := hc
  rw [htempo]
  exact windowMean_bounds (hfull ▸ hK) hsamples

theorem clockFilled_inv {c : TempoConfig} {x : Rat} (h : c.minBpm ≤ x ∧ x ≤ c.maxBpm) (m : ClockMode) (level : Bool) :
    (clockFilled c m x level).Inv c :=
  ⟨List.length_replicate, fun _ hy => List.eq_of_mem_replicate hy ▸ h, rfl⟩

theorem pushSample_inv {c : TempoConfig} {x : Rat} {s : ClockState} (hc : c.Valid) (hx : c.minBpm ≤ x ∧ x ≤ c.maxBpm)
    (h : s.Inv c) : (pushSample x s).Inv c := by
  obtain ⟨hfull, hsamples, _⟩ := h
  obtain ⟨_, _, hK⟩ := hc
  refine ⟨?_, fun y hy => ?_, rfl⟩
  · rw [pushSample_window, List.length_append, List.length_tail, List.length_singleton]
    omega
  · rw [pushSample_window, List.mem_append, List.mem_singleton] at hy
    rcases hy with hkept | rfl
    · exact hsamples y (List.mem_of_mem_tail hkept)
    · exact hx

theorem toggleSource_inv {c : TempoConfig} (hc : c.Valid) (s : ClockState) : (toggleSource c s).Inv c := by
  obtain ⟨_, hordered, _⟩ := hc
  refine ⟨by simp, ?_, rfl⟩
  simp only [toggleSource_window, windowAfterSwitch, List.forall_mem_map]
  exact fun n _ => sampleAfterSwitch_bounds c _ _ n hordered

theorem observeLevel_inv {c : TempoConfig} {s : ClockState} (h : s.Inv c) (active level : Bool) :
    (observeLevel active level s).1.Inv c := by
  simpa only [ClockState.Inv, observeLevel_window, observeLevel_tempoBpm] using h

theorem tickInternal_inv {c : TempoConfig} {r interval : Rat} {s t : ClockState} (hc : c.Valid) (h : s.Inv c)
    (htick : tickInternal c r s = some (t, interval)) : t.Inv c ∧ interval = tickInterval t.tempoBpm := by
  obtain ⟨x, hx, heq⟩ := Option.map_eq_some_iff.1 htick
  have ⟨_, hordered, _⟩ := hc
  cases heq
  exact ⟨pushSample_inv hc (tempoSample_bounds c r x hordered hx) h, rfl⟩

theorem tickExternal_inv {c : TempoConfig} {active : Bool} {levels rest : List Bool} {s t : ClockState} (h : s.Inv c)
    (htick : tickExternal active levels s = some (t, rest)) : t.Inv c := by
  induction levels generalizing s with
  | nil => cases htick
  | cons l ls ih =>
    have hseen := observeLevel_inv h active l
    rcases hlook : observeLevel active l s with ⟨u, _ | _⟩ <;> rw [hlook] at hseen
    · exact ih hseen (tickExternal_cons_of_no_tick hlook ls ▸ htick)
    · rw [tickExternal_cons_of_tick hlook] at htick
      cases htick
      exact hseen

theorem clockWait_inv {c : TempoConfig} {active : Bool} {r : Rat} {levels : List Bool} {s t : ClockState} (hc : c.Valid)
    (h : s.Inv c) (hwait : clockWait c active r levels s = some t) : t.Inv c := by
  unfold clockWait at hwait
  split at hwait
  · obtain ⟨⟨_, _⟩, htick, rfl⟩ := Option.map_eq_some_iff.1 hwait
    exact (tickInternal_inv hc h htick).1
  · obtain ⟨⟨_, _⟩, htick, rfl⟩ := Option.map_eq_some_iff.1 hwait
    exact tickExternal_inv h htick

/-- The faster the tempo, the shorter the interval (R85). -/
theorem tickInterval_anti {slow fast : Rat} (hslow : 0 < slow) (h : slow ≤ fast) : tickInterval fast ≤ tickInterval slow := by
  unfold tickInterval
  gcongr

/-- A reading outside `[0, 1]` gives no sample (R88). -/
theorem tempoSample_eq_none {c : TempoConfig} {r : Rat} (h : r < 0 ∨ 1 < r) : tempoSample c r = none := by
  rcases h with hlow | hhigh
  · exact if_neg fun ⟨h0, _⟩ => absurd h0 (not_le.2 hlow)
  · exact if_neg fun ⟨_, h1⟩ => absurd h1 (not_le.2 hhigh)

/-- Settles O57: the mean of a full window of tempos within positive bounds is within them. -/
theorem tempoStaysWithinItsBounds : Obligations.TempoStaysWithinItsBounds := by
  refine ⟨fun r s h => construct_tempo_valid h, fun c hc => ?_⟩
  have ⟨hmin, hordered, _⟩ := hc
  refine ⟨fun m r level h0 h1 => ?_, fun s hs => ?_, fun r hr => ?_⟩
  · have hsample := tempoSample_bounds c r _ hordered (tempoSample_of_reading c ⟨h0, h1⟩)
    exact ⟨_, clockStart_of_reading c m level ⟨h0, h1⟩, clockFilled_inv hsample m level⟩
  · obtain ⟨hlo, hhi⟩ := inv_tempoBpm_bounds hc hs
    refine ⟨hlo, hhi, (hmin.trans_le hlo).ne', toggleSource_inv hc s,
      fun active r levels t hwait => clockWait_inv hc hs hwait, fun r h0 h1 => ?_⟩
    have htick := tickInternal_of_reading c s ⟨h0, h1⟩
    obtain ⟨ht, hinterval⟩ := tickInternal_inv hc hs htick
    obtain ⟨htlo, hthi⟩ := inv_tempoBpm_bounds hc ht
    exact ⟨_, _, htick, ht, hinterval, tickInterval_anti (hmin.trans_le htlo) hthi, tickInterval_anti hmin htlo⟩
  · have hnone : tempoSample c r = none := tempoSample_eq_none hr
    exact ⟨fun m level => by rw [clockStart, hnone, Option.map_none], fun s => by rw [tickInternal, hnone, Option.map_none]⟩

end Sys2Proof.Machine
end

section
/-!
`DSEL` and the queue of behaviour `DIV` (R95, R135, R136): what a drain of any number of `DSEL` does, and the cycle of selections.
-/
namespace Sys2Proof.Machine

/-! The drain of a queue of `DSEL`. -/

/-- The records of the next `n` selections, with the divisions as they are (R95, R98). -/
def State.selectionRecords (s : State) (n : Nat) : List LinkRecord :=
  (List.iterate nextSel (nextSel s.sel) n).map fun sel => State.linkRecord { s with sel := sel }

/-- The state with the queue emptied, the selection moved `n` times and notified of each (R95). -/
def State.selected (s : State) (n : Nat) : State :=
  { s with
    iq := []
    sel := nextSel^[n] s.sel
    out := s.out ++ if s.cfg.notifyEn then (s.selectionRecords n).map .link else [] }

theorem selected_zero {s : State} (hiq : s.iq = []) : s.selected 0 = s := by
  cases s
  simp_all [State.selected, State.selectionRecords]

/-- Taking a `DSEL` from the queue and applying it is one selection (R136). -/
theorem selected_applyDsel (s : State) (q : List Intent) (n : Nat) :
    (applyDsel { s with iq := q }).selected n = s.selected (n + 1) := by
  rw [applyDsel, notify_eq]
  cases hnotify : s.cfg.notifyEn <;>
    simp [State.selected, State.selectionRecords, State.linkRecord, List.iterate, hnotify]

theorem drainList_dsel (n : Nat) {s : State} (hiq : s.iq = List.replicate n .dsel) :
    drainList (List.replicate n .dsel) s = .next (s.selected n) := by
  induction n generalizing s with
  | zero => rw [selected_zero hiq]; rfl
  | succ n ih =>
    calc drainList (.dsel :: List.replicate n .dsel) s
        = drainList (List.replicate n .dsel) (applyDsel { s with iq := List.replicate n .dsel }) := rfl
      _ = .next ((applyDsel { s with iq := List.replicate n .dsel }).selected n) := ih (notify_iq _)
      _ = .next (s.selected (n + 1)) := by rw [selected_applyDsel]

theorem drain_dsel {n : Nat} {s : State} (hiq : s.iq = List.replicate n .dsel) : drain s = .next (s.selected n) := by
  rw [drain, hiq, drainList_dsel n hiq]

/-! The cycle of selections (R95). -/

theorem nextSel_iterate_five (sel : Option (Fin 4)) : nextSel^[5] sel = sel := by
  revert sel
  decide

/-- Five selections, from any one, pass each of the five once. -/
theorem selBytes_of_five (sel : Option (Fin 4)) :
    ((List.iterate nextSel (nextSel sel) 5).map selByte).Perm [0x00, 0x01, 0x02, 0x03, 0xFF] := by
  revert sel
  decide

/-- The pairs of R95's cycle are those of `nextSel`. -/
theorem nextSel_of_mem_cycle {before after : Option (Fin 4)}
    (h : (before, after) ∈ [(none, some 0), (some 0, some 1), (some 1, some 2), (some 2, some 3), (some 3, none)]) :
    nextSel before = after := by
  revert before after
  decide

/-- Settles O36: the drain is five selections, each with the record of its selection. -/
theorem fiveSelectionsReturnTheSelection : Obligations.FiveSelectionsReturnTheSelection := by
  intro s hiq
  have hsel : (s.selected 5).sel = s.sel := nextSel_iterate_five s.sel
  have hbytes : (s.selectionRecords 5).map LinkRecord.selected = (List.iterate nextSel (nextSel s.sel) 5).map selByte :=
    List.map_map
  refine ⟨s.selected 5, drain_dsel hiq, hsel, rfl, rfl, rfl, ⟨fun _ => rfl, ⟨rfl, rfl, rfl, rfl⟩, rfl, rfl⟩,
    ⟨rfl, rfl, rfl⟩, fun hnotify => ⟨s.selectionRecords 5, rfl, ?_, ?_, ?_⟩, fun hsilent => ?_⟩
  · simp [State.selected, hnotify]
  · exact List.forall_mem_map.2 fun _ _ => rfl
  · exact hbytes ▸ selBytes_of_five s.sel
  · simp [State.selected, hsilent]

/-! `TICK` and `DSEL` in behaviour `DIV`. -/

/-- In `DIV` a `TICK` is the divider step, then the selections queued (R76, R93, R136). -/
theorem execTick_of_div {n : Nat} {s : State} (hdiv : s.cfg.behavior = .div) (hiq : s.iq = List.replicate n .dsel) :
    execTick s = .next ((divOnTick s).selected n) := by
  simp only [execTick, hdiv]
  exact drain_dsel ((divOnTick_iq s).trans hiq)

theorem execTick_of_div_of_iq_nil {s : State} (hdiv : s.cfg.behavior = .div) (hiq : s.iq = []) :
    execTick s = .next (divOnTick s) := by
  rw [execTick_of_div (n := 0) hdiv hiq, selected_zero ((divOnTick_iq s).trans hiq)]

/-- The divider step does not read the queue (R93). -/
theorem divOnTick_with_iq (s : State) (q : List Intent) :
    divOnTick { s with iq := q } = { divOnTick s with iq := q } := by
  rw [divOnTick_eq, divOnTick_eq]
  rfl

/-- In `DIV` the main flow always waits, so a `DSEL` is queued or dropped (R134, R135). -/
theorem execDsel_of_div {s : State} (hdiv : s.cfg.behavior = .div) : execDsel s = .next (enqueue .dsel s) := by
  simp [execDsel, arrive, applicable, State.gated, hdiv]

theorem enqueue_of_room {c : Intent} {s : State} (hroom : s.iq.length < s.cfg.iqDepth) :
    enqueue c s = { s with iq := s.iq ++ [c] } :=
  if_neg hroom.ne

theorem enqueue_of_full {c : Intent} {s : State} (hfull : s.iq.length = s.cfg.iqDepth) : enqueue c s = s.setIqovf :=
  if_pos hfull

/-- Settles O35: the next `TICK` drains a queue of one `DSEL`. -/
theorem dselMovesTheSelectionAtTheNextTick : Obligations.DselMovesTheSelectionAtTheNextTick := by
  have hqueue (s : State) (hdiv : s.cfg.behavior = .div) (hroom : s.iq.length < s.cfg.iqDepth) :
      exec .dsel s = .next { s with iq := s.iq ++ [.dsel] } :=
    (execDsel_of_div hdiv).trans (by rw [enqueue_of_room hroom])
  refine ⟨decode_encode .dsel, hqueue, fun s hdiv hfull => ?_, fun s sel hdiv hiq hdepth hcycle => ?_⟩
  · exact (execDsel_of_div hdiv).trans (by rw [enqueue_of_full hfull]; rfl)
  · have hroom : s.iq.length < s.cfg.iqDepth := hiq ▸ hdepth
    obtain rfl := nextSel_of_mem_cycle hcycle
    refine ⟨_, _, _, hqueue s hdiv hroom, execTick_of_div (n := 1) hdiv (by rw [hiq]; rfl),
      execTick_of_div_of_iq_nil hdiv hiq, ?_⟩
    rw [divOnTick_with_iq]
    simp only [State.selected, State.selectionRecords, State.linkRecord, divOnTick_cfg, divOnTick_div, divOnTick_sel,
      divOnTick_iq, hiq]
    rfl

end Sys2Proof.Machine
end

section
/-!
The divider bank (R92 to R102): the divider half of `TICK`, `DADJ`, and the ticks on which an output fires.
-/
namespace Sys2Proof.Machine

/-! The divider half of `TICK` (R93). -/

/-- Settles O30: with an empty queue `TICK` is the divider step alone. -/
theorem dividerTickCountsFiresAndReloads : Obligations.DividerTickCountsFiresAndReloads := by
  refine ⟨decode_encode .tick, fun s hdiv hiq => ⟨divOnTick s, s.fireMask, execTick_of_div_of_iq_nil hdiv hiq,
    fireMask_bit s, divOnTick_cnt s, ?_⟩⟩
  rw [divOnTick_eq]
  exact ⟨rfl, rfl, rfl, rfl, rfl, rfl, ⟨fun _ => rfl, ⟨rfl, rfl, rfl, rfl⟩, rfl, rfl⟩, hiq, ⟨rfl, rfl, rfl⟩, rfl, rfl⟩

/-! `DADJ` (R96, R97). -/

theorem encode_dadj (c : Byte) : encode (.dadj c) = 0x02000000#32 ||| c.setWidth 32 := by
  have hfits : c.toNat < 2 ^ 32 := c.isLt.trans (by decide)
  apply BitVec.eq_of_toNat_eq
  rw [encode, BitVec.toNat_append, toNat_zero_append, BitVec.toNat_or, BitVec.toNat_setWidth, Nat.mod_eq_of_lt hfits]
  rfl

theorem execDadj_of_div {c : Byte} {s : State} (hdiv : s.cfg.behavior = .div) (hlegal : countLegal c = true) :
    execDadj c s = .next { adjustSelected c s with prevChoice := c } := by
  simp only [execDadj, hlegal, if_true, hdiv]

theorem adjustSelected_of_write {c : Byte} {i : Fin 4} {s : State} (hsel : s.sel = some i) (hc : c ≠ s.prevChoice) :
    adjustSelected c s = writeDivision i c s := by
  simp only [adjustSelected, hsel, if_neg hc]

theorem adjustSelected_of_no_write {c : Byte} {s : State} (h : s.sel = none ∨ c = s.prevChoice) :
    adjustSelected c s = s := by
  rcases adjustSelected_spec c s with heq | ⟨i, hsel, hc, _⟩
  · exact heq
  · rw [hsel] at h
    exact absurd h (by simp [hc])

/-- The write branch of `DADJ` as one record update (R96, R97, R98). -/
theorem writeDivision_eq (i : Fin 4) (c : Byte) (s : State) :
    writeDivision i c s = { s with
      div := s.div.set i c
      cnt := if s.cfg.resetCounterOnChange then s.cnt.set i c else s.cnt
      out := s.out ++ if s.cfg.notifyEn then [.link (State.linkRecord { s with div := s.div.set i c })] else [] } :=
  notify_eq _

/-- The state after a `DADJ` that writes the division of output `i` (R96). -/
def State.divisionEdited (s : State) (i : Fin 4) (c : Byte) : State := { writeDivision i c s with prevChoice := c }

theorem execDadj_of_write {c : Byte} {i : Fin 4} {s : State} (hdiv : s.cfg.behavior = .div) (hlegal : countLegal c = true)
    (hsel : s.sel = some i) (hc : c ≠ s.prevChoice) : execDadj c s = .next (s.divisionEdited i c) := by
  rw [execDadj_of_div hdiv hlegal, adjustSelected_of_write hsel hc, State.divisionEdited]

@[simp] theorem divisionEdited_cfg (s : State) (i : Fin 4) (c : Byte) : (s.divisionEdited i c).cfg = s.cfg :=
  notify_cfg _

@[simp] theorem divisionEdited_iq (s : State) (i : Fin 4) (c : Byte) : (s.divisionEdited i c).iq = s.iq :=
  notify_iq _

theorem divisionEdited_div (s : State) (i : Fin 4) (c : Byte) : (s.divisionEdited i c).div = s.div.set i c :=
  notify_div _

theorem divisionEdited_cnt (s : State) (i : Fin 4) (c : Byte) :
    (s.divisionEdited i c).cnt = if s.cfg.resetCounterOnChange then s.cnt.set i c else s.cnt :=
  notify_cnt _

theorem divisionEdited_div_same (s : State) (i : Fin 4) (c : Byte) : (s.divisionEdited i c).div.get i = c := by
  rw [divisionEdited_div, lanes_get_set_same]

theorem divisionEdited_cnt_same (s : State) (i : Fin 4) (c : Byte) :
    (s.divisionEdited i c).cnt.get i = if s.cfg.resetCounterOnChange then c else s.cnt.get i := by
  rw [divisionEdited_cnt]
  split
  · exact lanes_get_set_same _ _ _
  · rfl

theorem divisionEdited_div_other (s : State) {i j : Fin 4} (c : Byte) (h : j ≠ i) :
    (s.divisionEdited i c).div.get j = s.div.get j := by
  rw [divisionEdited_div, lanes_get_set_other _ _ _ _ h]

theorem divisionEdited_cnt_other (s : State) {i j : Fin 4} (c : Byte) (h : j ≠ i) :
    (s.divisionEdited i c).cnt.get j = s.cnt.get j := by
  rw [divisionEdited_cnt]
  split
  · exact lanes_get_set_other _ _ _ _ h
  · rfl

/-- The one record of a division written names the selected output and the divisions after the write (R96, R98). -/
theorem divisionEdited_out {s : State} {i : Fin 4} (hsel : s.sel = some i) (c : Byte) :
    (s.divisionEdited i c).out = s.out ++ if s.cfg.notifyEn then
      [.link ⟨BitVec.ofNat 8 i.val, (s.divisionEdited i c).div.get 0, (s.divisionEdited i c).div.get 1,
        (s.divisionEdited i c).div.get 2, (s.divisionEdited i c).div.get 3⟩] else [] := by
  simp only [State.divisionEdited, writeDivision_eq, State.linkRecord, hsel]
  rfl

/-- What the write leaves as it is (R96). -/
theorem divisionEdited_frame (s : State) (i : Fin 4) (c : Byte) :
    (s.divisionEdited i c).sel = s.sel ∧ (s.divisionEdited i c).aout = s.aout ∧ (s.divisionEdited i c).dout = s.dout ∧
      SameSequencer s (s.divisionEdited i c) ∧ SameFlags s (s.divisionEdited i c) ∧
      SameEnvironment s (s.divisionEdited i c) := by
  rw [State.divisionEdited, writeDivision_eq]
  exact ⟨rfl, rfl, rfl, ⟨fun _ => rfl, ⟨rfl, rfl, rfl, rfl⟩, rfl, rfl⟩, ⟨rfl, rfl, rfl⟩, rfl, rfl⟩

/-- Settles O34. -/
theorem dadjWritesTheSelectedDivision : Obligations.DadjWritesTheSelectedDivision := by
  refine ⟨fun c => (decode_eq_ok_iff _ _).2 (encode_dadj c), fun s c h => execDadj_of_illegal (countLegal_eq_false h) s,
    fun s c hseq hlow hhigh => execDadj_of_seq hseq ((countLegal_iff c).2 ⟨hlow, hhigh⟩), fun s c hdiv hlow hhigh => ?_⟩
  have hlegal := (countLegal_iff c).2 ⟨hlow, hhigh⟩
  refine ⟨fun i hsel hc => ?_, fun h => ?_⟩
  · obtain ⟨hsel', haout, hdout, hsequencer, hflags, henvironment⟩ := divisionEdited_frame s i c
    exact ⟨s.divisionEdited i c, execDadj_of_write hdiv hlegal hsel hc, rfl, divisionEdited_div_same s i c,
      fun j hj => divisionEdited_div_other s c hj, divisionEdited_cnt_same s i c, fun j hj => divisionEdited_cnt_other s c hj,
      hsel', divisionEdited_out hsel c, haout, hdout, hsequencer, divisionEdited_iq s i c, hflags, henvironment⟩
  · exact (execDadj_of_div hdiv hlegal).trans (by rw [adjustSelected_of_no_write h])

/-! The ticks on which an output fires (R99, R100). -/

/-- Behaviour `DIV` with a queue of `DSEL` alone, as R143 (c) has it: what makes a `TICK` answer. -/
def DivReady (s : State) : Prop := s.cfg.behavior = .div ∧ ∀ c ∈ s.iq, c = .dsel

theorem divReady_of_queueInv {s : State} (hdiv : s.cfg.behavior = .div) (h : QueueInv s) : DivReady s := by
  obtain ⟨_, _, happlicable⟩ := h
  refine ⟨hdiv, fun c hc => ?_⟩
  have happlies := happlicable c hc
  rw [hdiv] at happlies
  cases c with
  | dsel => rfl
  | bas | bal | bbs | bbl => cases happlies

theorem DivReady.execTick_eq {s : State} (h : DivReady s) : execTick s = .next ((divOnTick s).selected s.iq.length) :=
  execTick_of_div h.1 (List.eq_replicate_of_mem h.2)

theorem selected_out (s : State) (n : Nat) : ∃ rs : List LinkRecord, (s.selected n).out = s.out ++ rs.map .link := by
  by_cases h : s.cfg.notifyEn = true
  · exact ⟨s.selectionRecords n, by rw [State.selected, if_pos h]⟩
  · exact ⟨[], by rw [State.selected, if_neg h]; rfl⟩

/-- The event pair of a `TICK` comes first, and only records follow (R93, R136). -/
theorem selected_divOnTick_out (s : State) (n : Nat) :
    ∃ rs : List LinkRecord, ((divOnTick s).selected n).out =
      s.out ++ ((if s.fireMask = 0 then [] else [.dlev s.fireMask, .dlev 0]) ++ rs.map .link) := by
  obtain ⟨rs, hout⟩ := selected_out (divOnTick s) n
  refine ⟨rs, hout.trans ?_⟩
  rw [divOnTick_eq, List.append_assoc]

/-- An output fires exactly when its counter is 1 (R93). -/
theorem DivReady.firesOnTick_iff {s : State} (h : DivReady s) (i : Fin 4) : FiresOnTick s i ↔ s.cnt.get i = 1 := by
  obtain ⟨rs, hout⟩ := selected_divOnTick_out s s.iq.length
  have hbit : s.fireMask.getLsbD i.val = true ↔ s.cnt.get i = 1 := by rw [fireMask_bit, decide_eq_true_eq]
  rw [← hbit]
  constructor
  · rintro ⟨t, m, rest, hexec, ht, hm⟩
    cases h.execTick_eq.symm.trans hexec
    have hevents := List.append_cancel_left (hout.symm.trans ht)
    split at hevents
    · cases rs <;> simp at hevents
    · cases hevents
      exact hm
  · intro hfires
    have hmask : s.fireMask ≠ 0 := by
      intro hzero
      simp [hzero] at hfires
    rw [if_neg hmask] at hout
    exact ⟨_, s.fireMask, _, h.execTick_eq, hout, hfires⟩

/-- Ticks with no division edited step every lane by itself (R93, R94). -/
theorem DivReady.runTicks (n : Nat) {s : State} (h : DivReady s) :
    ∃ u, runCommands (List.replicate n .tick) s = .next u ∧ DivReady u ∧
      ∀ i, u.cnt.get i = (fun cnt => laneNext cnt (s.div.get i))^[n] (s.cnt.get i) := by
  induction n generalizing s with
  | zero => exact ⟨s, rfl, h, fun _ => rfl⟩
  | succ n ih =>
    have hready : DivReady ((divOnTick s).selected s.iq.length) :=
      ⟨(congrArg Config.behavior (divOnTick_cfg s)).trans h.1, fun _ hc => nomatch hc⟩
    obtain ⟨u, hrun, hu, hcnt⟩ := ih hready
    have hstep : runCommands (List.replicate (n + 1) .tick) s =
        andThen (execTick s) (runCommands (List.replicate n .tick)) := rfl
    refine ⟨u, by rw [hstep, h.execTick_eq, andThen_next, hrun], hu, fun i => ?_⟩
    have hlane : (divOnTick s).cnt.get i = laneNext (s.cnt.get i) (s.div.get i) := by rw [divOnTick_cnt, laneNext_eq]
    have hdivision : ((divOnTick s).selected s.iq.length).div = s.div := divOnTick_div s
    rw [hcnt i, Function.iterate_succ_apply, ← hlane, hdivision]
    rfl

/-- A lane whose counter is `a` and whose division is `d` is about to fire after `n` ticks exactly when `n + 1` is one of `a`,
`a + d`, `a + 2 * d`, … (R99). -/
theorem laneNext_iterate_eq_one_iff {d : Byte} (hd : 1 ≤ d.toNat) (n : Nat) {a : Byte} (ha : 1 ≤ a.toNat) :
    (fun cnt => laneNext cnt d)^[n] a = 1 ↔ a.toNat ≤ n + 1 ∧ d.toNat ∣ n + 1 - a.toNat := by
  induction n generalizing a with
  | zero =>
    have hone : a = 1 ↔ a.toNat = 1 := by rw [← BitVec.toNat_inj]; rfl
    have hsub : 0 + 1 - a.toNat = 0 := by omega
    rw [Function.iterate_zero_apply, hone, hsub]
    simp only [Nat.dvd_zero, and_true]
    omega
  | succ n ih =>
    rw [Function.iterate_succ_apply, laneNext_eq]
    by_cases h : a = 1
    · subst h
      have hreload : d.toNat ≤ n + 1 ∧ d.toNat ∣ n + 1 - d.toNat ↔ d.toNat ∣ n + 1 :=
        ⟨fun ⟨hle, hdvd⟩ => (Nat.dvd_sub_iff_left hle dvd_rfl).1 hdvd,
          fun hdvd => ⟨Nat.le_of_dvd n.succ_pos hdvd, Nat.dvd_sub hdvd dvd_rfl⟩⟩
      rw [if_pos rfl, ih hd, hreload]
      simp
    · have hcount : (a - 1).toNat = a.toNat - 1 := by bv_omega
      have hsub : n + 1 - (a.toNat - 1) = n + 1 + 1 - a.toNat := by omega
      have hmore : 1 ≤ a.toNat - 1 := by bv_omega
      rw [if_neg h, ih (hcount ▸ hmore), hcount, hsub, Nat.sub_le_iff_le_add]

/-- From any state of behaviour `DIV`, output `i` fires when its count runs out and then on every `div[i]`-th tick, while no
division is edited (R99, R100). -/
theorem DivReady.firesOnTick_after_ticks {s : State} (h : DivReady s) (n : Nat) :
    ∃ u, runCommands (List.replicate n .tick) s = .next u ∧
      ∀ i, 1 ≤ (s.cnt.get i).toNat → 1 ≤ (s.div.get i).toNat →
        (FiresOnTick u i ↔ (s.cnt.get i).toNat ≤ n + 1 ∧ (s.div.get i).toNat ∣ n + 1 - (s.cnt.get i).toNat) := by
  obtain ⟨u, hrun, hu, hcnt⟩ := h.runTicks n
  refine ⟨u, hrun, fun i hcount hdivision => ?_⟩
  rw [hu.firesOnTick_iff, hcnt, laneNext_iterate_eq_one_iff hdivision n hcount]

/-- Settles O33: after the edit, lane `i` has division `c` and the old count, or the count `c` where the edit resets it. -/
theorem divisionEditTakesEffectAtTheNextFiring : Obligations.DivisionEditTakesEffectAtTheNextFiring := by
  rintro s i c ⟨_, ⟨_, hcounters, _⟩, _, _, hqueue, _⟩ hdiv hsel hlow hhigh hc
  have hready : DivReady (s.divisionEdited i c) := by
    simpa [DivReady] using divReady_of_queueInv hdiv hqueue
  have hcnt : ((s.divisionEdited i c).cnt.get i).toNat =
      if s.cfg.resetCounterOnChange then c.toNat else (s.cnt.get i).toNat := by
    rw [divisionEdited_cnt_same, apply_ite BitVec.toNat]
  have hcount : 1 ≤ ((s.divisionEdited i c).cnt.get i).toNat := by
    rw [hcnt]
    split
    · exact hlow
    · exact ((lanesLegal_iff _).1 hcounters i).1
  refine ⟨_, execDadj_of_write hdiv ((countLegal_iff c).2 ⟨hlow, hhigh⟩) hsel hc, fun n => ?_⟩
  obtain ⟨u, hrun, hfires⟩ := hready.firesOnTick_after_ticks n
  have hlane := hfires i hcount
  rw [hcnt, divisionEdited_div_same] at hlane
  exact ⟨u, hrun, hlane hlow⟩

end Sys2Proof.Machine
end

section
/-!
The play step and the step pointer as record updates (R111, R112), and the commands of behaviour `SEQ` that are executed when
presented (R135).
-/
namespace Sys2Proof.Machine

/-! `play_step` (R112). -/

/-- The state after `play_step` with the analog outputs at `a`: everything but the outputs and the history is as it was. -/
def State.played (s : State) (a : Lanes Code) : State :=
  { s with aout := a, dout := 0, out := s.out ++ s.playEvents }

theorem playStep_played {s : State} (hvalid : s.cfg.Valid) (hpos : s.pos.toNat < s.cfg.seqLen) :
    ∃ a, playStep s = .next (s.played a) ∧ PlayedOutputs s (s.played a) := by
  obtain ⟨_, hrows, _⟩ := hvalid
  obtain ⟨t, hplay, hout, hdout, hplayed⟩ := playStep_next s hrows hpos
  have ht : t = s.played t.aout := by
    rw [State.played, ← hout, ← hdout]
    exact playStep_outputsOnly s t hplay
  exact ⟨t.aout, ht ▸ hplay, ht ▸ hplayed⟩

/-! `advance` (R111). -/

/-- Inside the row `advance` moves the step pointer, and appends the restart pulse at the last step alone (R111). -/
theorem advance_eq_events {s : State} (hlen : s.cfg.seqLen ≤ 256) (hpos : s.pos.toNat < s.cfg.seqLen) :
    ∃ p : Byte, p.toNat = s.advancePos ∧ advance s = { s with
      pos := p
      dout := if s.atLastStep then 0 else s.dout
      out := s.out ++ s.advanceEvents } := by
  rw [advance_eq, State.advancePos, State.advanceEvents]
  by_cases hlast : s.pos.toNat + 1 = s.cfg.seqLen
  · have hat : s.atLastStep = true := decide_eq_true (by omega)
    exact ⟨0, by simp [hat], by simp [hlast, hat]⟩
  · have hat : s.atLastStep = false := decide_eq_false (by omega)
    exact ⟨s.pos + 1, by rw [hat, if_neg Bool.false_ne_true]; bv_omega, by simp [hlast, hat]⟩

/-! Commands executed when presented. -/

theorem gated_of_edit {s : State} (hseq : s.cfg.behavior = .seq) (hedit : s.mode = .edit) : s.gated = false := by
  simp [gated_of_seq hseq, hedit]

theorem gated_of_paused {s : State} (hseq : s.cfg.behavior = .seq) (hpaused : s.running = false) : s.gated = false := by
  rw [gated_of_seq hseq, hpaused, Bool.and_false]

/-- In behaviour `SEQ` a button that no running Play holds back is applied at once (R135). -/
theorem exec_button {c : Intent} {s : State} (hseq : s.cfg.behavior = .seq) (hc : applicable .seq c = true)
    (hgated : s.gated = false) : exec c.command s = applyIntent c s := by
  rw [exec_command, arrive_of_not_gated (hseq ▸ hc) hgated]

end Sys2Proof.Machine
end

section
/-!
The four buttons (R107 to R110): preview, pause, the next row, the next step, the mode; in running Play they take effect after
the next tick's step (R135, R136).
-/
namespace Sys2Proof.Machine

/-! `BAL` (R108). -/

/-- Settles O41. -/
theorem balCyclesTheActiveRow : Obligations.BalCyclesTheActiveRow := by
  refine ⟨fun s hvalid hseq hedit => ⟨BitVec.ofNat 8 ((s.activeRow.toNat + 1) % s.cfg.rows), ?_, ?_⟩, fun s hplay => ?_,
    decode_encode .bal⟩
  · obtain ⟨_, ⟨hrows, hjacks⟩, _⟩ := hvalid
    have hrow : (s.activeRow.toNat + 1) % s.cfg.rows < s.cfg.rows := Nat.mod_lt _ hrows
    exact BitVec.toNat_ofNat .. |>.trans (Nat.mod_eq_of_lt (by omega))
  · calc exec .bal s = applyIntent .bal s := exec_button (c := .bal) hseq rfl (gated_of_edit hseq hedit)
      _ = _ := by simp only [applyIntent, applyBal, hedit]
  · rw [applyIntent, applyBal_of_play hplay]

/-! `BBS` (R109). -/

theorem execBbs_of_edit {s : State} (hseq : s.cfg.behavior = .seq) (hedit : s.mode = .edit) :
    exec .bbs s = .next (advance s) := by
  calc exec .bbs s = applyIntent .bbs s := exec_button (c := .bbs) hseq rfl (gated_of_edit hseq hedit)
    _ = .next (advance s) := by simp only [applyIntent, applyBbs, hedit]

/-- Settles O42. -/
theorem bbsAdvancesTheStepPointer : Obligations.BbsAdvancesTheStepPointer := by
  refine ⟨fun s hvalid hseq hedit hpos => ?_, fun s hplay => ?_, decode_encode .bbs⟩
  · obtain ⟨⟨_, hlen⟩, _⟩ := hvalid
    rw [execBbs_of_edit hseq hedit]
    obtain ⟨p, hp, hadvance⟩ := advance_eq_events hlen hpos
    exact ⟨p, hp, by rw [hadvance]⟩
  · rw [applyIntent, applyBbs_of_play hplay]

theorem runCommands_append (is js : List Instr) (s : State) :
    runCommands (is ++ js) s = andThen (runCommands is s) (runCommands js) := by
  induction is generalizing s with
  | nil => rfl
  | cons i is ih =>
    rw [List.cons_append, runCommands, runCommands]
    cases exec i s with
    | next u => exact ih u
    | fault | refused => rfl

/-- Next-steps that do not pass the last step move the step pointer alone (R109, R111). -/
theorem runCommands_bbs_before_last (n : Nat) {s : State} (hseq : s.cfg.behavior = .seq) (hedit : s.mode = .edit)
    (hlen : s.cfg.seqLen ≤ 256) (hpos : s.pos.toNat + n < s.cfg.seqLen) :
    runCommands (List.replicate n .bbs) s = .next { s with pos := s.pos + BitVec.ofNat 8 n } := by
  induction n generalizing s with
  | zero => simp [runCommands]
  | succ n ih =>
    have hadvance : advance s = { s with pos := s.pos + 1 } := by
      rw [advance_eq, if_neg (by omega)]
    have hnext : (s.pos + 1).toNat = s.pos.toNat + 1 := by bv_omega
    have hsum : s.pos + 1 + BitVec.ofNat 8 n = s.pos + BitVec.ofNat 8 (n + 1) := by
      rw [BitVec.ofNat_add]
      ac_rfl
    calc runCommands (List.replicate (n + 1) .bbs) s
        = andThen (exec .bbs s) (runCommands (List.replicate n .bbs)) := rfl
      _ = runCommands (List.replicate n .bbs) { s with pos := s.pos + 1 } := by
        rw [execBbs_of_edit hseq hedit, hadvance, andThen_next]
      _ = .next { s with pos := s.pos + BitVec.ofNat 8 (n + 1) } := by
        rw [ih (s := { s with pos := s.pos + 1 }) hseq hedit hlen (by simp only [hnext]; omega), ← hsum]

/-- The state after the step pointer wraps (R111): position 0 and the pattern-restart pulse. -/
def State.restarted (s : State) : State :=
  { s with pos := 0, dout := 0, out := s.out ++ [.dlev 0b0010#4, .dlev 0b0000#4] }

theorem execBbs_of_last {s : State} (hseq : s.cfg.behavior = .seq) (hedit : s.mode = .edit)
    (hlast : s.pos.toNat + 1 = s.cfg.seqLen) : exec .bbs s = .next s.restarted := by
  rw [execBbs_of_edit hseq hedit, advance_eq, if_pos hlast]
  rfl

/-- Settles O43: `SEQ_LEN - 1 - pos` next-steps reach the last step, one wraps, `pos` more lead back. -/
theorem nextStepsRoundTheRowRestartOnce : Obligations.NextStepsRoundTheRowRestartOnce := by
  rintro s ⟨⟨⟨_, hlen⟩, _⟩, _, ⟨hpos, _⟩, _, _, _, hdout⟩ hseq hedit
  have hsplit : List.replicate s.cfg.seqLen Instr.bbs =
      List.replicate (s.cfg.seqLen - 1 - s.pos.toNat) .bbs ++ .bbs :: List.replicate s.pos.toNat .bbs := by
    rw [← List.replicate_succ, ← List.replicate_add]
    congr 1
    omega
  have hlast : (s.pos + BitVec.ofNat 8 (s.cfg.seqLen - 1 - s.pos.toNat)).toNat + 1 = s.cfg.seqLen := by bv_omega
  have hforth := runCommands_bbs_before_last (s.cfg.seqLen - 1 - s.pos.toNat) hseq hedit hlen (by omega)
  have hwrap : exec .bbs { s with pos := s.pos + BitVec.ofNat 8 (s.cfg.seqLen - 1 - s.pos.toNat) } = .next s.restarted :=
    execBbs_of_last hseq hedit hlast
  have hback : runCommands (List.replicate s.pos.toNat .bbs) s.restarted =
      .next { s with out := s.out ++ [.dlev 0b0010#4, .dlev 0b0000#4] } := by
    rw [runCommands_bbs_before_last (s := s.restarted) _ hseq hedit hlen (by simpa [State.restarted] using hpos)]
    simp [State.restarted, hdout]
  rw [hsplit, runCommands_append, hforth, andThen_next, runCommands, hwrap, andThen_next, hback]

end Sys2Proof.Machine
end

section
/-!
`play_step` in `TICK` and in `BAS` (R107, R112, R113), and the buttons that a running Play queues (R135, R136).
-/
namespace Sys2Proof.Machine

/-! `TICK` in Play (R113). -/

theorem execTick_of_running {s : State} (hseq : s.cfg.behavior = .seq) (hplay : s.mode = .play) (hrunning : s.running = true) :
    execTick s = andThen (seqPlayTick s) drain := by
  simp [execTick, hseq, hplay, hrunning]

theorem execTick_of_running_of_iq_nil {s t : State} (hseq : s.cfg.behavior = .seq) (hplay : s.mode = .play)
    (hrunning : s.running = true) (hstep : seqPlayTick s = .next t) (hiq : t.iq = []) : execTick s = .next t := by
  rw [execTick_of_running hseq hplay hrunning, hstep, andThen_next, drain_of_iq_nil hiq]

theorem seqPlayTick_played {s : State} (hvalid : s.cfg.Valid) (hpos : s.pos.toNat < s.cfg.seqLen) :
    ∃ a, seqPlayTick s = .next (advance (s.played a)) ∧ PlayedOutputs s (s.played a) := by
  obtain ⟨a, hplay, hplayed⟩ := playStep_played hvalid hpos
  exact ⟨a, by rw [seqPlayTick, hplay, andThen_next], hplayed⟩

/-- Settles O37: an empty queue leaves the play step and the advance alone. -/
theorem playTickPlaysThenAdvances : Obligations.PlayTickPlaysThenAdvances := by
  refine ⟨decode_encode .tick, fun s hseq hidle => execTick_of_not_gated hseq ?_, ?_⟩
  · rcases hidle with hedit | hpaused
    · exact gated_of_edit hseq hedit
    · exact gated_of_paused hseq hpaused
  · intro s hvalid hseq hplay hrunning hiq hpos
    obtain ⟨a, htick, hplayed⟩ := seqPlayTick_played hvalid hpos
    obtain ⟨⟨_, hlen⟩, _⟩ := hvalid
    obtain ⟨p, hp, hadvance⟩ := advance_eq_events (s := s.played a) hlen hpos
    have hexec : exec .tick s = .next (advance (s.played a)) :=
      execTick_of_running_of_iq_nil hseq hplay hrunning htick ((advance_iq _).trans hiq)
    refine ⟨_, hexec, ?_⟩
    rw [hadvance]
    exact ⟨rfl, hplayed, ite_self _, hp, rfl, hplay, hrunning, fun _ => rfl, ⟨rfl, rfl⟩, ⟨rfl, rfl, rfl, rfl⟩, hiq,
      ⟨rfl, rfl, rfl⟩, rfl, rfl⟩

/-! A button presented to a running Play. -/

/-- Row `r` of `play_step` where it lies in the grid and has its jacks (R112). -/
theorem playRow_of_inRange {r : Nat} {s : State} {jp jv : Fin 4} (hrange : stepInRange s.cfg r s.pos.toNat = true)
    (hjacks : rowJacks r = some (jp, jv)) :
    playRow r s = .next ((s.emit (.analog jp (s.rowCell r).pitch)).emit (.analog jv (s.rowCell r).vel)) := by
  simp only [playRow, stepRead, hrange, if_true, hjacks, State.rowCell]

/-- `play_step` does not read the queue (R112). -/
theorem playRows_with_iq {rs : List Nat} {s t : State} (q : List Intent) (h : playRows rs s = .next t) :
    playRows rs { s with iq := q } = .next { t with iq := q } := by
  induction rs generalizing s with
  | nil => cases h; rfl
  | cons r rs ih =>
    obtain ⟨u, hrow, hrows⟩ := andThen_spec _ _ _ h
    obtain ⟨hrange, jp, jv, hjacks, rfl⟩ := playRow_spec r s u hrow
    rw [playRows, playRow_of_inRange (s := { s with iq := q }) hrange hjacks, andThen_next]
    exact ih hrows

theorem advance_with_iq (s : State) (q : List Intent) : advance { s with iq := q } = { advance s with iq := q } := by
  rw [advance_eq, advance_eq]
  split <;> rfl

theorem seqPlayTick_with_iq {s t : State} (q : List Intent) (h : seqPlayTick s = .next t) :
    seqPlayTick { s with iq := q } = .next { t with iq := q } := by
  obtain ⟨u, hplay, hadvance⟩ := andThen_spec _ _ _ h
  obtain ⟨v, hrows, hpulse⟩ := andThen_spec _ _ _ hplay
  cases hpulse
  cases hadvance
  have hrows' : playRows (List.range s.cfg.rows) { s with iq := q } = .next { v with iq := q } := playRows_with_iq q hrows
  rw [seqPlayTick, playStep, hrows', andThen_next, andThen_next, ← advance_with_iq]
  rfl

theorem one_le_iqDepth_of_valid {c : Config} (h : c.Valid) : 1 ≤ c.iqDepth := by
  obtain ⟨_, _, _, _, _, _, _, _, hdepth, _⟩ := h
  exact hdepth

/-- In running Play a button is queued (R135); the next `TICK` is the step it would have been, then the button's application
(R136). -/
theorem tick_after_button {c : Intent} {s : State} (hinv : Inv s) (hseq : s.cfg.behavior = .seq) (hplay : s.mode = .play)
    (hrunning : s.running = true) (hiq : s.iq = []) (hc : applicable .seq c = true) :
    ∃ v, exec c.command s = .next { s with iq := [c] } ∧ exec .tick s = .next v ∧
      exec .tick { s with iq := [c] } = applyIntent c v ∧ v.mode = .play ∧ v.running = true := by
  obtain ⟨hvalid, _, ⟨hpos, _⟩, _⟩ := hinv
  have hgated : s.gated = true := by simp [gated_of_seq hseq, hplay, hrunning]
  have hroom : s.iq.length < s.cfg.iqDepth := hiq ▸ one_le_iqDepth_of_valid hvalid
  obtain ⟨a, htick, _⟩ := seqPlayTick_played hvalid hpos
  have hempty : (advance (s.played a)).iq = [] := (advance_iq _).trans hiq
  refine ⟨advance (s.played a), ?_, ?_, ?_, (advance_mode _).trans hplay, (advance_running _).trans hrunning⟩
  · rw [exec_command, arrive, if_pos (hseq ▸ hc), if_pos hgated, enqueue_of_room hroom, hiq]
    rfl
  · exact execTick_of_running_of_iq_nil hseq hplay hrunning htick hempty
  · have htaken : { advance (s.played a) with iq := [] } = advance (s.played a) := by rw [← hempty]
    calc exec .tick { s with iq := [c] } = andThen (seqPlayTick { s with iq := [c] }) drain :=
        execTick_of_running hseq hplay hrunning
      _ = drain { advance (s.played a) with iq := [c] } := by rw [seqPlayTick_with_iq [c] htick, andThen_next]
      _ = andThen (applyIntent c { advance (s.played a) with iq := [] }) (drainList []) := rfl
      _ = applyIntent c (advance (s.played a)) := by
        rw [htaken]
        cases applyIntent c (advance (s.played a)) <;> rfl

theorem applyBas_of_play {s : State} (h : s.mode = .play) : applyBas s = .next { s with running := !s.running } := by
  simp only [applyBas, h]

/-- Settles O39. -/
theorem basInPlayPausesAndResumes : Obligations.BasInPlayPausesAndResumes := by
  refine ⟨fun s hseq hplay hpaused => ?_, fun s hinv hseq hplay hrunning hiq => ?_⟩
  · calc exec .bas s = applyBas s := exec_button (c := .bas) hseq rfl (gated_of_paused hseq hpaused)
      _ = .next { s with running := true } := by rw [applyBas_of_play hplay, hpaused]; rfl
  · obtain ⟨v, hbutton, htick, hafter, hvplay, hvrunning⟩ := tick_after_button (c := .bas) hinv hseq hplay hrunning hiq rfl
    refine ⟨_, _, v, hbutton, hafter.trans (applyBas_of_play hvplay), htick, ?_⟩
    rw [hvrunning]
    rfl

/-! `BBL` (R110). -/

theorem applyBbl_of_edit {s : State} (h : s.mode = .edit) : applyBbl s = { s with mode := .play, running := true } := by
  simp only [applyBbl, h]

theorem applyBbl_of_play {s : State} (h : s.mode = .play) :
    applyBbl s = { s with mode := .edit, running := false, pos := 0 } := by
  simp only [applyBbl, h]

/-- Settles O44. -/
theorem bblTogglesTheMode : Obligations.BblTogglesTheMode := by
  refine ⟨fun s hseq hedit => ?_, fun s hseq hplay hpaused => ?_, fun s hinv hseq hplay hrunning hiq => ?_, decode_encode .bbl⟩
  · calc exec .bbl s = .next (applyBbl s) := exec_button (c := .bbl) hseq rfl (gated_of_edit hseq hedit)
      _ = _ := by rw [applyBbl_of_edit hedit]
  · calc exec .bbl s = .next (applyBbl s) := exec_button (c := .bbl) hseq rfl (gated_of_paused hseq hpaused)
      _ = _ := by rw [applyBbl_of_play hplay]
  · obtain ⟨v, hbutton, htick, hafter, hvplay, _⟩ := tick_after_button (c := .bbl) hinv hseq hplay hrunning hiq rfl
    exact ⟨_, _, v, hbutton, hafter, htick, applyBbl_of_play hvplay⟩

/-! `BAS` in Edit (R107, R118). -/

theorem execBas_of_edit {s : State} (hseq : s.cfg.behavior = .seq) (hedit : s.mode = .edit) :
    exec .bas s = andThen (previewWrite s) playStep := by
  calc exec .bas s = applyBas s := exec_button (c := .bas) hseq rfl (gated_of_edit hseq hedit)
    _ = andThen (previewWrite s) playStep := by simp only [applyBas, hedit]

/-- Settles O38. -/
theorem basInEditPreviewsWithoutMoving : Obligations.BasInEditPreviewsWithoutMoving := by
  intro s hvalid hseq hedit hwrite hpos
  obtain ⟨a, hplay, hplayed⟩ := playStep_played hvalid hpos
  have hexec : exec .bas s = .next (s.played a) := by
    rw [execBas_of_edit hseq hedit, previewWrite, if_neg (by simp [hwrite]), andThen_next, hplay]
  exact ⟨s.played a, hexec, rfl, hplayed, rfl, fun _ => rfl, ⟨rfl, rfl, rfl, rfl⟩, ⟨rfl, rfl⟩, ⟨rfl, rfl, rfl, rfl⟩, rfl,
    ⟨rfl, rfl, rfl⟩, rfl, rfl⟩

/-- The cell with field `f` at the value of `v`, where it has one (R118). -/
def StepCell.setLatest (f : StepField) (v : Option Code) (c : StepCell) : StepCell :=
  match v with
  | none => c
  | some m => c.setField f m

theorem writeLatest_next {s : State} (f : StepField) (v : Option Code) (hgrid : GridInv s) (hsequencer : SequencerInv s) :
    ∃ m, writeLatest f v s = .next { s with steps := m } ∧ GridInv { s with steps := m } ∧
      State.cellAt { s with steps := m } s.editAddress = (s.cellAt s.editAddress).setLatest f v ∧
      SameGridExcept s.editAddress s { s with steps := m } := by
  cases v with
  | none => exact ⟨s.steps, rfl, hgrid, rfl, fun _ _ => rfl⟩
  | some x =>
    have hwrite := stepWrite_next f x s hsequencer
    exact ⟨_, hwrite, stepWrite_gridInv f x s _ hwrite hgrid, setCell_cellAt_same _ _ _ hgrid.1,
      fun b hb => setCell_cellAt_other _ _ _ _ hb⟩

/-- Under `WRITE_ON_PREVIEW` the addressed cell takes the latest pitch and velocity, where they have a value (R107, R118). -/
theorem previewWrite_next {s : State} (hwrite : s.cfg.writeOnPreview = true) (hgrid : GridInv s) (hsequencer : SequencerInv s) :
    ∃ m, previewWrite s = .next { s with steps := m } ∧
      State.cellAt { s with steps := m } s.editAddress =
        ((s.cellAt s.editAddress).setLatest .pitch s.lastPitch).setLatest .vel s.lastVel ∧
      SameGridExcept s.editAddress s { s with steps := m } := by
  obtain ⟨m, hpitch, hgrid', hcell, hother⟩ := writeLatest_next .pitch s.lastPitch hgrid hsequencer
  obtain ⟨n, hvel, _, hcell', hother'⟩ := writeLatest_next .vel s.lastVel hgrid' hsequencer
  refine ⟨n, ?_, hcell'.trans ?_, fun b hb => (hother' b hb).trans (hother b hb)⟩
  · rw [previewWrite, if_pos hwrite, hpitch, andThen_next, hvel]
  · exact congrArg _ hcell

theorem setLatest_both (c : StepCell) (pitch vel : Option Code) :
    (c.setLatest .pitch pitch).setLatest .vel vel = ⟨pitch.getD c.pitch, vel.getD c.vel⟩ := by
  cases pitch <;> cases vel <;> rfl

/-- Settles O40. -/
theorem basWritesOnPreviewWhereConfigured : Obligations.BasWritesOnPreviewWhereConfigured := by
  rintro s ⟨hvalid, _, hsequencer, hgrid, _⟩ hseq hedit hwrite
  obtain ⟨m, hpreview, hcell, hother⟩ := previewWrite_next hwrite hgrid hsequencer
  rw [setLatest_both] at hcell
  obtain ⟨a, hplay, hrows, hjacks⟩ := playStep_played (s := { s with steps := m }) hvalid hsequencer.1
  have hexec : exec .bas s = .next (State.played { s with steps := m } a) := by
    rw [execBas_of_edit hseq hedit, hpreview, andThen_next, hplay]
  exact ⟨_, hexec, congrArg StepCell.pitch hcell, congrArg StepCell.vel hcell, hother, rfl, hrows, hjacks, rfl,
    ⟨rfl, rfl, rfl, rfl⟩, ⟨rfl, rfl⟩, ⟨rfl, rfl, rfl, rfl⟩, rfl, ⟨rfl, rfl, rfl⟩, rfl, rfl⟩

end Sys2Proof.Machine
end

section
/-!
The Edit-mode samples (R114 to R117): the words, the two knob mappings, and the guarded write of the addressed cell.
-/
namespace Sys2Proof.Machine

/-! The words. -/

/-- A knob command's word is its opcode's word with the knob code in the low bits (R61, R73). -/
theorem word_formatK (op : Byte) (k : Code) : (op ++ (0#8 ++ k) : CmdWord) = (op ++ 0#24) ||| k.setWidth 32 := by
  have hfits : k.toNat < 2 ^ 32 := k.isLt.trans (by decide)
  apply BitVec.eq_of_toNat_eq
  rw [BitVec.toNat_append, toNat_zero_append, BitVec.toNat_or, BitVec.toNat_append, BitVec.toNat_setWidth,
    Nat.mod_eq_of_lt hfits, BitVec.toNat_ofNat, Nat.zero_mod, Nat.or_zero]

theorem encode_epit (k : Code) : encode (.epit k) = 0x03000000#32 ||| k.setWidth 32 := word_formatK 0x03 k

theorem encode_evel (k : Code) : encode (.evel k) = 0x04000000#32 ||| k.setWidth 32 := word_formatK 0x04 k

/-! The velocity mapping (R117). -/

/-- Clearing the low `j` bits of a code, in numbers. -/
theorem toNat_and_not_low (k : Code) (j : Nat) :
    (k &&& ~~~(BitVec.ofNat 16 (2 ^ j - 1))).toNat = k.toNat / 2 ^ j * 2 ^ j := by
  have hshift : k &&& ~~~(BitVec.ofNat 16 (2 ^ j - 1)) = (k >>> j) <<< j := by
    apply BitVec.eq_of_getLsbD_eq
    intro i hi
    simp only [BitVec.getLsbD_and, BitVec.getLsbD_not, BitVec.getLsbD_ofNat, Nat.testBit_two_pow_sub_one,
      BitVec.getLsbD_shiftLeft, BitVec.getLsbD_ushiftRight, hi, decide_true, Bool.true_and]
    by_cases hlow : i < j
    · simp [hlow]
    · simp [hlow, Nat.add_sub_cancel' (Nat.le_of_not_lt hlow)]
  have hfits : k.toNat / 2 ^ j * 2 ^ j < 2 ^ 16 := (Nat.div_mul_le_self _ _).trans_lt k.isLt
  rw [hshift, BitVec.toNat_shiftLeft, BitVec.toNat_ushiftRight, Nat.shiftRight_eq_div_pow, Nat.shiftLeft_eq,
    Nat.mod_eq_of_lt hfits]

theorem vmap_toNat (c : Config) (k : Code) :
    (vmap c k).toNat = k.toNat / 2 ^ (16 - c.velKeepBits) * 2 ^ (16 - c.velKeepBits) :=
  toNat_and_not_low k _

/-- Settles O50: with 7 bits every mapped code is a multiple of 512. -/
theorem velocityMappingKeepsTheTopBits : Obligations.VelocityMappingKeepsTheTopBits := by
  refine ⟨fun c k _ _ => vmap_toNat c k, fun c hkeep => ?_⟩
  have hmask (k : Code) : vmap c k = k &&& 0xFE00#16 := by
    rw [vmap, hkeep]
    rfl
  refine ⟨hmask, hmask _, hmask _, hmask _, fun k htop => ?_⟩
  have hnat := vmap_toNat c k
  rw [htop, hkeep] at hnat
  have hmultiple : 65535 = k.toNat / 512 * 512 := hnat
  omega

/-! The guarded write (R114, R115). -/

theorem editing_eq_false {s : State} (h : s.cfg.behavior ≠ .seq ∨ s.mode ≠ .edit) : s.editing = false := by
  rw [Bool.eq_false_iff, ne_eq, editing_iff]
  tauto

theorem pmap_eq {c : Config} {d : TableDesc} {k m : Code} (htable : c.tdesc[c.chromaT]? = some d)
    (hword : c.tmem[d.base.toNat + quantizeIndex c.eps k d.len.toNat]? = some m) : pmap c k = some m := by
  rw [pmap, quantize, htable]
  exact hword

theorem execEpit_of_editing {s : State} {k m : Code} (hediting : s.editing = true) (hm : pmap s.cfg k = some m)
    (hsequencer : SequencerInv s) :
    execEpit k s = .next (if s.lastPitch = some m then s else
      { s.setCell s.editAddress ((s.cellAt s.editAddress).setField .pitch m) with lastPitch := some m }) := by
  simp only [execEpit, hediting, hm, if_true, stepWrite_next .pitch m s hsequencer, andThen_next]
  split <;> rfl

theorem execEvel_of_editing {s : State} (k : Code) (hediting : s.editing = true) (hsequencer : SequencerInv s) :
    execEvel k s = .next (if s.lastVel = some (vmap s.cfg k) then s else
      { s.setCell s.editAddress ((s.cellAt s.editAddress).setField .vel (vmap s.cfg k)) with
        lastVel := some (vmap s.cfg k) }) := by
  simp only [execEvel, hediting, if_true, stepWrite_next .vel (vmap s.cfg k) s hsequencer, andThen_next]
  split <;> rfl

/-- Settles O48. -/
theorem epitWritesAChangedPitch : Obligations.EpitWritesAChangedPitch := by
  refine ⟨fun k => (decode_eq_ok_iff _ _).2 (encode_epit k), fun s k h => execEpit_of_not_editing (editing_eq_false h) k, ?_⟩
  intro s k m d hgrid hsequencer hseq hedit htable hword
  have hexec : exec (.epit k) s = _ :=
    execEpit_of_editing ((editing_iff s).2 ⟨hseq, hedit⟩) (pmap_eq htable hword) hsequencer
  refine ⟨fun hsame => by rw [hexec, if_pos hsame], fun hnew => ⟨_, by rw [hexec, if_neg hnew], ?_⟩⟩
  exact ⟨setCell_cellAt_same _ _ _ hgrid.1,
    fun b hb => setCell_cellAt_other s _ b ((s.cellAt s.editAddress).setField .pitch m) hb, rfl, rfl, ⟨rfl, rfl, rfl, rfl⟩,
    ⟨rfl, rfl, rfl⟩, ⟨rfl, rfl, rfl, rfl⟩, rfl, ⟨rfl, rfl, rfl⟩, rfl, rfl⟩

/-- Settles O49. -/
theorem evelWritesAChangedVelocity : Obligations.EvelWritesAChangedVelocity := by
  refine ⟨fun k => (decode_eq_ok_iff _ _).2 (encode_evel k), fun s k h => execEvel_of_not_editing (editing_eq_false h) k, ?_⟩
  intro s k m hgrid hsequencer _ hseq hedit hm
  obtain rfl : m = vmap s.cfg k := BitVec.eq_of_toNat_eq (hm.trans (vmap_toNat s.cfg k).symm)
  have hexec : exec (.evel k) s = _ := execEvel_of_editing k ((editing_iff s).2 ⟨hseq, hedit⟩) hsequencer
  refine ⟨fun hsame => by rw [hexec, if_pos hsame], fun hnew => ⟨_, by rw [hexec, if_neg hnew], ?_⟩⟩
  exact ⟨setCell_cellAt_same _ _ _ hgrid.1,
    fun b hb => setCell_cellAt_other s _ b ((s.cellAt s.editAddress).setField .vel (vmap s.cfg k)) hb, rfl, rfl, ⟨rfl, rfl, rfl, rfl⟩,
    ⟨rfl, rfl, rfl⟩, ⟨rfl, rfl, rfl, rfl⟩, rfl, ⟨rfl, rfl, rfl⟩, rfl, rfl⟩

end Sys2Proof.Machine
end

section
/-!
The writers of the grid (R120): the two Edit-mode samples, and `BAS` under `WRITE_ON_PREVIEW`.
-/
namespace Sys2Proof.Machine

theorem SameGrid.refl (s : State) : SameGrid s s := fun _ => rfl

theorem advance_sameGrid (s : State) : SameGrid s (advance s) := cellAt_congr _ _ (advance_cfg s) (advance_steps s)

/-! Intents. -/

theorem applyBas_sameGridExcept {s t : State} (h : applyBas s = .next t) :
    SameGrid s t ∨ s.cfg.writeOnPreview = true ∧ s.mode = .edit ∧ SameGridExcept s.editAddress s t := by
  unfold applyBas at h
  split at h
  · next hedit =>
    obtain ⟨u, hwrite, hplay⟩ := andThen_spec _ _ _ h
    obtain ⟨_, hother, hkept, _⟩ := previewWrite_spec s u hwrite
    obtain ⟨a, es, rfl⟩ := playStep_eq hplay
    by_cases hconfigured : s.cfg.writeOnPreview = true
    · exact .inr ⟨hconfigured, hedit, hother⟩
    · obtain rfl := hkept (Bool.eq_false_of_not_eq_true hconfigured)
      exact .inl (.refl u)
  · cases h
    exact .inl (.refl s)

/-- No intent but a `BAS` that writes on preview changes a cell, and it changes the addressed cell alone (R107, R118). -/
theorem applyIntent_grid {c : Intent} {s t : State} {a : Nat} (h : applyIntent c s = .next t)
    (hne : t.cellAt a ≠ s.cellAt a) :
    c = .bas ∧ s.cfg.writeOnPreview = true ∧ s.mode = .edit ∧ a = s.editAddress := by
  by_cases hbas : c = .bas
  · subst hbas
    rcases applyBas_sameGridExcept h with hsame | ⟨hconfigured, hedit, hother⟩
    · exact absurd (hsame a) hne
    · exact ⟨rfl, hconfigured, hedit, not_imp_comm.1 (hother a) hne⟩
  · have hsame : SameGrid s t := by
      cases applied_of_applyIntent h with
      | preview | pause => exact absurd rfl hbas
      | select => exact cellAt_congr _ _ (notify_cfg _) (notify_steps _)
      | nextStep => exact advance_sameGrid s
      | nextRow | balInPlay | bbsInPlay | enterPlay | enterEdit => exact .refl s
    exact absurd (hsame a) hne

/-! Commands without write-on-preview. -/

/-- The grid and the configuration are the same. -/
def GridFrame (s t : State) : Prop := SameGrid s t ∧ t.cfg = s.cfg

theorem applyIntent_sameGrid {c : Intent} {s t : State} (hoff : s.cfg.writeOnPreview = false) (h : applyIntent c s = .next t) :
    SameGrid s t := by
  intro a
  by_contra hne
  obtain ⟨_, hon, _⟩ := applyIntent_grid h hne
  exact nomatch hoff.symm.trans hon

theorem drain_sameGrid {s t : State} (hoff : s.cfg.writeOnPreview = false) (h : drain s = .next t) : SameGrid s t := by
  refine (drainList_induct (GridFrame s) (fun c rest u v _ hu happly => ?_) s.iq s t rfl ⟨.refl s, rfl⟩ h).1.1
  obtain ⟨hgrid, hcfg⟩ := hu
  obtain ⟨_, _, ⟨hcfg', _⟩, _⟩ := applyIntent_frame _ _ _ happly
  have hsame := applyIntent_sameGrid (s := { u with iq := rest }) (hcfg ▸ hoff) happly
  exact ⟨fun a => (hsame a).trans (hgrid a), hcfg'.trans hcfg⟩

theorem execTick_sameGrid {s t : State} (hoff : s.cfg.writeOnPreview = false) (h : execTick s = .next t) : SameGrid s t := by
  rcases execTick_spec s t h with ⟨_, hdrain⟩ | ⟨_, _, _, u, hplay, hdrain⟩ | ⟨_, _, rfl⟩
  · have hsame := drain_sameGrid (by rwa [divOnTick_cfg]) hdrain
    exact fun a => (hsame a).trans (cellAt_congr _ _ (divOnTick_cfg s) (divOnTick_steps s) a)
  · obtain ⟨b, es, rfl⟩ := seqPlayTick_eq hplay
    have hsame := drain_sameGrid (by rwa [advance_cfg]) hdrain
    exact fun a => (hsame a).trans (advance_sameGrid _ a)
  · exact .refl t

theorem arrive_sameGrid {c : Intent} {s t : State} (hoff : s.cfg.writeOnPreview = false) (h : arrive c s = .next t) :
    SameGrid s t := by
  rcases arrive_spec c s t h with ⟨_, rfl⟩ | ⟨_, _, rfl⟩ | ⟨_, _, happly⟩
  · exact .refl t
  · rcases enqueue_cases c s with ⟨_, heq⟩ | ⟨_, heq⟩ <;> rw [heq] <;> exact .refl s
  · exact applyIntent_sameGrid hoff happly

theorem execDadj_sameGrid {c : Byte} {s t : State} (h : execDadj c s = .next t) : SameGrid s t := by
  rcases execDadj_spec c s t h with ⟨_, rfl⟩ | ⟨_, _, rfl⟩ | ⟨_, _, rfl⟩
  · exact .refl s
  · exact .refl t
  · obtain ⟨d, n, es, heq⟩ := adjustSelected_eq c s
    rw [heq]
    exact .refl s

theorem execQnt_sameGrid {n : Byte} {k : Code} {s t : State} (h : execQnt n k s = .next t) : SameGrid s t := by
  rcases execQnt_spec n k s t h with ⟨_, _, _, rfl⟩ | ⟨_, rfl⟩ <;> exact .refl s

/-- A `StepWrite` changes the addressed cell alone, and of it the field written (R46). -/
theorem stepWrite_cell {f : StepField} {v : Code} {s t : State} {a : Nat} (hgrid : GridInv s) (h : stepWrite f v s = .next t)
    (hne : t.cellAt a ≠ s.cellAt a) : a = s.editAddress ∧ t.cellAt a = (s.cellAt a).setField f v := by
  obtain ⟨_, rfl⟩ := stepWrite_spec f v s t h
  obtain rfl : a = s.editAddress := not_imp_comm.1 (setCell_cellAt_other s _ a _) hne
  exact ⟨rfl, setCell_cellAt_same _ _ _ hgrid.1⟩

/-- Settles O28: no command but the two samples changes the grid, and a sample changes it by one `StepWrite`. -/
theorem onlyEditsWriteTheGrid : Obligations.OnlyEditsWriteTheGrid := by
  refine ⟨fun i s t a hgrid hoff h hne => ?_, fun c s t a h hne => applyIntent_grid h hne⟩
  cases i with
  | tick => exact absurd (execTick_sameGrid hoff h a) hne
  | dadj c => exact absurd (execDadj_sameGrid h a) hne
  | qnt n k => exact absurd (execQnt_sameGrid h a) hne
  | dsel | bas | bal | bbs | bbl => exact absurd (arrive_sameGrid hoff h a) hne
  | epit k =>
    rcases execEpit_spec k s t h with rfl | ⟨m, u, hediting, _, _, hwrite, rfl⟩
    · exact absurd rfl hne
    · obtain ⟨hseq, hedit⟩ := (editing_iff s).1 hediting
      obtain ⟨ha, hcell⟩ := stepWrite_cell hgrid hwrite hne
      have hkept : (u.cellAt a).vel = (s.cellAt a).vel := by
        rw [hcell]
        rfl
      exact ⟨hseq, hedit, ha, .inl ⟨⟨k, rfl⟩, hkept⟩⟩
  | evel k =>
    rcases execEvel_spec k s t h with rfl | ⟨u, hediting, _, hwrite, rfl⟩
    · exact absurd rfl hne
    · obtain ⟨hseq, hedit⟩ := (editing_iff s).1 hediting
      obtain ⟨ha, hcell⟩ := stepWrite_cell hgrid hwrite hne
      have hkept : (u.cellAt a).pitch = (s.cellAt a).pitch := by
        rw [hcell]
        rfl
      exact ⟨hseq, hedit, ha, .inr ⟨⟨k, rfl⟩, hkept⟩⟩

end Sys2Proof.Machine
end

section
/-!
The adjacent Arpeggiator: what one tick reads, writes and advances (R123), and its two passes (R125).
-/
namespace Sys2Proof.Machine

/-! The lengths of R123. -/

theorem effectiveLength_le {a : ArpState} (hnotes : 0 < a.notes.length) : a.effectiveLength ≤ a.notes.length :=
  max_le hnotes (min_le_left _ _)

theorem descendingLength_mem (a : ArpState) : a.descendingLength ∈ [a.notes.length, a.effectiveLength] := by
  unfold ArpState.descendingLength
  split <;> simp

/-- A `step` below the effective length of a collection with a note counts back to a note of it, whichever length it counts from. -/
theorem step_lt_descendingLength {a : ArpState} (hnotes : 0 < a.notes.length) (hstep : a.step < a.effectiveLength) :
    a.step < a.descendingLength ∧ a.descendingLength ≤ a.notes.length := by
  have hle := effectiveLength_le hnotes
  have hmem := descendingLength_mem a
  rw [List.mem_pair] at hmem
  omega

/-! The readings of R123. -/

/-- The note the descending reading names: `len - 1 - step`, counted in the naturals where `step` is below `len`. -/
theorem noteAt_descending {notes : List Code} {len step : Nat} (hstep : step < len) (hlen : len ≤ notes.length) :
    notes[len - 1 - step]? = some (noteAt notes ((len : Int) - 1 - step)) := by
  have hindex : (len : Int) - 1 - step = (len - 1 - step : Nat) := by omega
  have hin : len - 1 - step < notes.length := by omega
  rw [hindex, noteAt_eq_getElem notes _ hin, List.getElem?_eq_getElem hin]

theorem readings_ascending (r : Code) {a : ArpState} (hstep : a.step < a.notes.length) :
    a.notes[a.step]? = some (a.readings r).ascending := by
  rw [List.getElem?_eq_getElem hstep, ← noteAt_eq_getElem _ _ hstep]
  rfl

theorem readings_descending (r : Code) {a : ArpState} (hstep : a.step < a.descendingLength)
    (hlen : a.descendingLength ≤ a.notes.length) :
    a.notes[a.descendingLength - 1 - a.step]? = some (a.readings r).descending :=
  noteAt_descending hstep hlen

theorem readings_bidirectional (r : Code) (a : ArpState) :
    (a.readings r).bidirectional = if a.biForward then (a.readings r).ascending else (a.readings r).descending := rfl

/-! Advancing `step` (R123): it wraps, and the direction flips, exactly on reaching the effective length. -/

@[simp] theorem arpAdvance_notes (a : ArpState) : a.advance.notes = a.notes := by
  simp [ArpState.notes]

@[simp] theorem arpAdvance_effectiveLength (a : ArpState) : a.advance.effectiveLength = a.effectiveLength := by
  simp [ArpState.effectiveLength]

theorem arpAdvance_of_lt {a : ArpState} (h : a.step + 1 < a.effectiveLength) : a.advance = { a with step := a.step + 1 } :=
  if_pos h

theorem arpAdvance_of_last {a : ArpState} (h : a.step + 1 = a.effectiveLength) :
    a.advance = { a with step := 0, biForward := !a.biForward } :=
  if_neg (by omega)

theorem arpAdvance_step {a : ArpState} (hstep : a.step < a.effectiveLength) :
    a.advance.step = if a.step + 1 = a.effectiveLength then 0 else a.step + 1 := by
  split
  · next hlast => rw [arpAdvance_of_last hlast]
  · next hnot => rw [arpAdvance_of_lt (by omega)]

theorem arpAdvance_biForward {a : ArpState} (hstep : a.step < a.effectiveLength) :
    a.advance.biForward = if a.step + 1 = a.effectiveLength then !a.biForward else a.biForward := by
  split
  · next hlast => rw [arpAdvance_of_last hlast]
  · next hnot => rw [arpAdvance_of_lt (by omega)]

/-! The tick. -/

/-- The state a tick leaves whose draw is the note `r`. -/
def ArpState.ticked (r : Code) (a : ArpState) : ArpState := (a.write (a.readings r)).advance

theorem arpTick_of_draw {draw : Nat} {r : Code} {a : ArpState} (hr : a.notes[draw]? = some r) :
    arpTick draw a = some (a.readings r, a.ticked r) := by
  simp only [arpTick, hr, ArpState.ticked]

@[simp] theorem ticked_rotation (r : Code) (a : ArpState) : (a.ticked r).rotation = a.rotation :=
  arpAdvance_rotation _

@[simp] theorem ticked_range (r : Code) (a : ArpState) : (a.ticked r).range = a.range :=
  arpAdvance_range _

@[simp] theorem ticked_notes (r : Code) (a : ArpState) : (a.ticked r).notes = a.notes := by
  simp [ArpState.ticked]

@[simp] theorem ticked_effectiveLength (r : Code) (a : ArpState) : (a.ticked r).effectiveLength = a.effectiveLength := by
  simp [ArpState.ticked]

theorem ticked_step (r : Code) {a : ArpState} (hstep : a.step < a.effectiveLength) :
    (a.ticked r).step = if a.step + 1 = a.effectiveLength then 0 else a.step + 1 :=
  arpAdvance_step (a := a.write (a.readings r)) hstep

theorem ticked_biForward (r : Code) {a : ArpState} (hstep : a.step < a.effectiveLength) :
    (a.ticked r).biForward = if a.step + 1 = a.effectiveLength then !a.biForward else a.biForward :=
  arpAdvance_biForward (a := a.write (a.readings r)) hstep

/-- The output to which reading `i` is assigned holds it after the tick. -/
theorem ticked_output (r : Code) (a : ArpState) (i : Fin 4) :
    (a.ticked r).outputs.get (Config.arpReadingOf.symm i) = (a.readings r).get i := by
  simp [ArpState.ticked]

/-- Settles O60: the outputs are those the assignment of readings, one-to-one, gives to the four readings. -/
theorem arpeggiatorTickWritesFourOutputs : Obligations.ArpeggiatorTickWritesFourOutputs := by
  have hdistinct : ([0, 1, 2, 3].map Config.arpReadingOf.symm).Nodup :=
    List.Nodup.map Config.arpReadingOf.symm.injective (by decide)
  refine ⟨_, _, _, _, hdistinct, fun a draw r hstep hr => ?_⟩
  have hnotes : 0 < a.notes.length := Nat.zero_lt_of_lt (List.getElem?_eq_some_iff.1 hr).1
  obtain ⟨hdown, hlen⟩ := step_lt_descendingLength hnotes hstep
  refine ⟨(a.readings r).ascending, (a.readings r).descending, a.readings r, a.ticked r, arpTick_of_draw hr,
    readings_ascending r (hdown.trans_le hlen), ⟨_, descendingLength_mem a, readings_descending r hdown hlen⟩,
    ticked_output r a 0, ticked_output r a 1, (ticked_output r a 2).trans (readings_bidirectional r a),
    ticked_output r a 3, rfl, ticked_step r hstep, ticked_biForward r hstep, ticked_rotation r a, ticked_range r a⟩

/-! The passes (R125). -/

/-- The notes of one pass in the direction of `bi_forward`. -/
def ArpState.passNotes (a : ArpState) : List Code := if a.biForward then a.notes else a.notes.reverse

@[simp] theorem passNotes_length (a : ArpState) : a.passNotes.length = a.notes.length := by
  unfold ArpState.passNotes
  split <;> simp

/-- Where the effective length is the full length, so is the length the descending reading counts from. -/
theorem descendingLength_of_full {a : ArpState} (hfull : a.effectiveLength = a.notes.length) :
    a.descendingLength = a.notes.length := by
  have hmem := descendingLength_mem a
  rwa [hfull, List.mem_pair, or_self] at hmem

/-- With the effective length the full length, the bidirectional reading is the note of the pass at `step`. -/
theorem passNotes_step (r : Code) {a : ArpState} (hfull : a.effectiveLength = a.notes.length) (hstep : a.step < a.notes.length) :
    a.passNotes[a.step]? = some (a.readings r).bidirectional := by
  have hlen := descendingLength_of_full hfull
  have hdown := readings_descending r (hlen ▸ hstep) hlen.le
  rw [readings_bidirectional, ArpState.passNotes]
  split
  · exact readings_ascending r hstep
  · rw [List.getElem?_reverse hstep, ← hdown, hlen]

theorem arpBidirectional_cons {draw : Nat} {r : Code} {a : ArpState} (draws : List Nat) (hr : a.notes[draw]? = some r) :
    arpBidirectional (draw :: draws) a =
      (arpBidirectional draws (a.ticked r)).map ((a.readings r).bidirectional :: ·) := by
  simp only [arpBidirectional, arpTick_of_draw hr]

/-- The rest of a pass reads the notes from `step` on, and leaves a state at the start of a pass in the other direction. -/
theorem arpBidirectional_pass (draws later : List Nat) (a : ArpState) (hfull : a.effectiveLength = a.notes.length)
    (hstep : a.step < a.notes.length) (hdraws : a.step + draws.length = a.notes.length)
    (hrange : ∀ d ∈ draws, d < a.notes.length) :
    ∃ b : ArpState, b.step = 0 ∧ b.biForward = (!a.biForward) ∧ b.notes = a.notes ∧ b.effectiveLength = a.effectiveLength ∧
      arpBidirectional (draws ++ later) a = (arpBidirectional later b).map (a.passNotes.drop a.step ++ ·) := by
  induction draws generalizing a with
  | nil => exact absurd hdraws hstep.ne
  | cons d ds ih =>
    obtain ⟨hd, hds⟩ := List.forall_mem_cons.1 hrange
    rw [List.length_cons] at hdraws
    have hr := List.getElem?_eq_getElem hd
    have hpos := ticked_step a.notes[d] (hfull ▸ hstep)
    have hdir := ticked_biForward a.notes[d] (hfull ▸ hstep)
    obtain ⟨hin, hread⟩ := List.getElem?_eq_some_iff.1 (passNotes_step a.notes[d] hfull hstep)
    rw [List.drop_eq_getElem_cons hin, hread, List.cons_append, arpBidirectional_cons _ hr]
    by_cases hlast : a.step + 1 = a.notes.length
    · obtain rfl : ds = [] := List.length_eq_zero_iff.1 (by omega)
      rw [if_pos (hlast.trans hfull.symm)] at hpos hdir
      refine ⟨a.ticked a.notes[d], hpos, hdir, ticked_notes _ a, ticked_effectiveLength _ a, ?_⟩
      have hend : a.passNotes.drop (a.step + 1) = [] := by
        rw [hlast, ← passNotes_length, List.drop_length]
      simp only [hend, List.nil_append, List.cons_append]
    · rw [if_neg (hfull ▸ hlast)] at hpos hdir
      have hpass : (a.ticked a.notes[d]).passNotes = a.passNotes := by
        simp only [ArpState.passNotes, hdir, ticked_notes]
      obtain ⟨b, hzero, hflip, hnotes, heff, hrun⟩ := ih (a.ticked a.notes[d]) (by simpa using hfull)
        (by rw [hpos, ticked_notes]; omega) (by rw [hpos, ticked_notes]; omega) (by simpa using hds)
      refine ⟨b, hzero, by rw [hflip, hdir], by simpa using hnotes, by simpa using heff, ?_⟩
      rw [hrun, hpass, hpos, Option.map_map]
      rfl

/-- Settles O59: the first pass reads the notes and turns the direction, the second reads them in reverse. -/
theorem arpeggiatorWalksForwardThenBack : Obligations.ArpeggiatorWalksForwardThenBack := by
  intro a draws hzero hforward hnotes hfull hlength hrange
  have hstep : a.step < a.notes.length := hzero ▸ List.length_pos_iff.2 hnotes
  obtain ⟨b, hbzero, hbdir, hbnotes, hbeff, hfirst⟩ := arpBidirectional_pass (draws.take a.notes.length)
    (draws.drop a.notes.length) a hfull hstep (by rw [List.length_take]; omega) (fun d hd => hrange d (List.mem_of_mem_take hd))
  obtain ⟨c, -, -, -, -, hsecond⟩ := arpBidirectional_pass (draws.drop a.notes.length) [] b (by rw [hbeff, hbnotes, hfull])
    (by rw [hbzero, hbnotes]; omega) (by rw [List.length_drop, hbzero, hbnotes]; omega)
    (fun d hd => hbnotes ▸ hrange d (List.mem_of_mem_drop hd))
  have hforth : a.passNotes.drop a.step = a.notes := by simp [ArpState.passNotes, hforward, hzero]
  have hback : b.passNotes.drop b.step = a.notes.reverse := by simp [ArpState.passNotes, hbdir, hforward, hbzero, hbnotes]
  calc arpBidirectional draws a
      = (arpBidirectional (draws.drop a.notes.length) b).map (a.notes ++ ·) := by
        rwa [hforth, List.take_append_drop] at hfirst
    _ = some (a.notes ++ a.notes.reverse) := by
        rw [← List.append_nil (draws.drop a.notes.length), hsecond, hback]
        simp [arpBidirectional]

end Sys2Proof.Machine
end

section
/-!
The quantizer (R126 to R131): its index as the floor of R127, the bounds of the index for the default `EPS`, the readings under
which it is idempotent, and its command.
-/
namespace Sys2Proof.Machine

/-! The index (R127, R128). -/

theorem clamp_eq_max_min {lo hi : Int} (x : Int) (h : lo ≤ hi) : clamp x lo hi = max lo (min hi x) := by
  unfold clamp
  split
  · omega
  · split <;> omega

/-- The index as an integer: the clamp to `0..N-1` leaves nothing negative for `toNat` to drop. -/
theorem quantizeIndex_cast (eps : Rat) (k : Code) {n : Nat} (hn : 1 ≤ n) :
    (quantizeIndex eps k n : Int) =
      clamp ((((eps.den : Int) * k.toNat - 65535 * eps.num) * n) / (65535 * eps.den)) 0 (n - 1) := by
  rw [quantizeIndex, clamp_eq_max_min _ (by omega)]
  exact Int.toNat_of_nonneg (le_max_left _ _)

theorem quantizeIndex_lt (eps : Rat) (k : Code) {n : Nat} (hn : 1 ≤ n) : quantizeIndex eps k n < n := by
  have hcast := quantizeIndex_cast eps k hn
  rw [clamp_eq_max_min _ (by omega)] at hcast
  omega

/-- The argument of the floor of R127 over the common denominator of R128. -/
theorem reading_eq_div (eps : Rat) (k n : Nat) :
    ((k : Rat) / 65535 - eps) * n =
      (((eps.den : Int) * k - 65535 * eps.num) * n : Int) / (65535 * eps.den : Nat) := by
  have hden : (eps.den : Rat) ≠ 0 := Nat.cast_ne_zero.2 eps.den_nz
  push_cast
  conv_lhs => rw [← Rat.num_div_den eps]
  field_simp

theorem floor_reading (eps : Rat) (k n : Nat) :
    ⌊((k : Rat) / 65535 - eps) * n⌋ = (((eps.den : Int) * k - 65535 * eps.num) * n) / (65535 * eps.den) := by
  rw [reading_eq_div, Rat.floor_intCast_div_natCast]
  rfl

theorem quantizeIndex_eq_qidx (eps : Rat) (k : Code) {n : Nat} (hn : 1 ≤ n) :
    (quantizeIndex eps k n : Int) = qidx eps ((k.toNat : Rat) / 65535) n := by
  rw [quantizeIndex_cast eps k hn, clamp_eq_max_min _ (by omega), qidx, floor_reading]

/-- The index for `EPS = 1/10000` before the clamp (R128). -/
def rawIndex (k : Code) (n : Nat) : Int := ((10000 * (k.toNat : Int) - 65535) * n) / 655350000

theorem quantizeIndex_eq_clamp_rawIndex (k : Code) {n : Nat} (hn : 1 ≤ n) :
    (quantizeIndex (1 / 10000) k n : Int) = clamp (rawIndex k n) 0 (n - 1) := by
  have hnum : (1 / 10000 : Rat).num = 1 := by norm_num
  have hden : (1 / 10000 : Rat).den = 10000 := by norm_num
  rw [quantizeIndex_cast _ k hn, hnum, hden]
  rfl

theorem quantize_eq_tmem {c : Config} {t : Nat} {d : TableDesc} (k : Code) (htable : c.tdesc[t]? = some d) :
    quantize c k t = c.tmem[d.base.toNat + quantizeIndex c.eps k d.len.toNat]? := by
  rw [quantize, htable]
  rfl

/-- Settles O51: the floor of an integer over a positive integer is integer division. -/
theorem quantizerIsTheExactFloorFormula : Obligations.QuantizerIsTheExactFloorFormula :=
  ⟨fun eps k _ _ _ hn => quantizeIndex_eq_qidx eps k hn, fun k _ hn => quantizeIndex_eq_clamp_rawIndex k hn,
    fun _ k _ _ htable => quantize_eq_tmem k htable⟩

/-! The bounds of the raw index. -/

theorem rawIndex_lt (k : Code) {n : Nat} (hn : 1 ≤ n) : rawIndex k n < n := by
  have hcode : 10000 * (k.toNat : Int) - 65535 < 655350000 := by omega
  apply Int.ediv_lt_of_lt_mul (by decide)
  calc (10000 * (k.toNat : Int) - 65535) * n < 655350000 * n := by gcongr
    _ = n * 655350000 := mul_comm _ _

theorem rawIndex_neg_iff (k : Code) {n : Nat} (hn : 1 ≤ n) : rawIndex k n < 0 ↔ k.toNat ≤ 6 := by
  have hpos : (0 : Int) < n := by omega
  rw [rawIndex, Int.ediv_lt_iff_lt_mul (by decide), zero_mul, ← zero_mul (n : Int), mul_lt_mul_iff_left₀ hpos]
  omega

theorem rawIndex_mono {k l : Code} (h : k.toNat ≤ l.toNat) (n : Nat) : rawIndex k n ≤ rawIndex l n := by
  apply Int.ediv_le_ediv (by decide)
  gcongr

theorem rawIndex_fullScale {n : Nat} (hn : 1 ≤ n) (hn' : n ≤ 10000) : rawIndex 65535#16 n = n - 1 := by
  rw [rawIndex, BitVec.toNat_ofNat]
  omega

/-- Full scale falls short of the last entry of a table longer than `1/EPS`. -/
theorem rawIndex_lt_last (k : Code) {n : Nat} (hn : 10000 < n) : rawIndex k n < n - 1 := by
  have hcode : 10000 * (k.toNat : Int) - 65535 ≤ 655284465 := by omega
  apply Int.ediv_lt_of_lt_mul (by decide)
  calc (10000 * (k.toNat : Int) - 65535) * n ≤ 655284465 * n := by gcongr
    _ < (n - 1) * 655350000 := by omega

/-! The bounds of the index. -/

theorem quantizeIndex_mono {k l : Code} (h : k.toNat ≤ l.toNat) {n : Nat} (hn : 1 ≤ n) :
    quantizeIndex (1 / 10000) k n ≤ quantizeIndex (1 / 10000) l n := by
  have hraw := rawIndex_mono h n
  have hk := quantizeIndex_eq_clamp_rawIndex k hn
  have hl := quantizeIndex_eq_clamp_rawIndex l hn
  rw [clamp_eq_max_min _ (by omega)] at hk hl
  omega

theorem quantizeIndex_fullScale {n : Nat} (hn : 1 ≤ n) (hn' : n ≤ 10000) :
    quantizeIndex (1 / 10000) 65535#16 n = n - 1 := by
  have hcast := quantizeIndex_eq_clamp_rawIndex 65535#16 hn
  rw [clamp_eq_max_min _ (by omega), rawIndex_fullScale hn hn'] at hcast
  omega

theorem quantizeIndex_ne_last (k : Code) {n : Nat} (hn : 10000 < n) : quantizeIndex (1 / 10000) k n ≠ n - 1 := by
  have hraw := rawIndex_lt_last k hn
  have hcast := quantizeIndex_eq_clamp_rawIndex k (n := n) (by omega)
  rw [clamp_eq_max_min _ (by omega)] at hcast
  omega

/-- Settles O52: each bound of the raw index passes through the clamp. -/
theorem quantizerIndexBounds : Obligations.QuantizerIndexBounds :=
  ⟨fun k _ hn => Nat.le_sub_one_of_lt (quantizeIndex_lt _ k hn), fun k _ hn => rawIndex_lt k hn,
    fun k _ hn => rawIndex_neg_iff k hn, fun _ _ _ hn h => quantizeIndex_mono h hn,
    fun _ hn hn' => quantizeIndex_fullScale hn hn', fun _ hn k => quantizeIndex_ne_last k hn⟩

/-! Feeding an index back (R131). -/

/-- A reading whose scaled value lies in `[i, i + 1)` has index `i`. -/
theorem qidx_eq_of_mem {eps v : Rat} {n : Nat} {i : Int} (hi : 0 ≤ i) (hin : i < n) (hlow : (i : Rat) ≤ (v - eps) * n)
    (hhigh : (v - eps) * n < i + 1) : qidx eps v n = i := by
  rw [qidx, Int.floor_eq_iff.2 ⟨hlow, hhigh⟩]
  omega

/-- A reading whose scaled value lies below 1, also one below 0, has index 0. -/
theorem qidx_eq_zero_of_lt {eps v : Rat} {n : Nat} (h : (v - eps) * n < 1) : qidx eps v n = 0 := by
  have hfloor : ⌊(v - eps) * n⌋ < 1 := Int.floor_lt.2 (by exact_mod_cast h)
  rw [qidx]
  omega

/-- `i/(N-1)` scales to `i + i/(N-1) - N/10000`: for `i` from 1 the excess `1/(N-1)` outweighs the `EPS` term. -/
theorem qidx_endpoint_reading {n i : Nat} (hn : 2 ≤ n) (hsize : n * (n - 1) ≤ 10000) (hi : i < n) :
    qidx (1 / 10000) ((i : Rat) / ((n : Rat) - 1)) n = i := by
  obtain ⟨m, rfl⟩ : ∃ m, n = m + 1 := ⟨n - 1, by omega⟩
  have hm : (0 : Rat) < m := by exact_mod_cast (show 0 < m by omega)
  have hscaled : ((i : Rat) / (((m + 1 : Nat) : Rat) - 1) - 1 / 10000) * (m + 1 : Nat) = i + i / m - (m + 1) / 10000 := by
    push_cast
    rw [add_sub_cancel_right]
    field_simp
  have hexcess : (i : Rat) / m ≤ 1 := (div_le_one hm).2 (by exact_mod_cast (show i ≤ m by omega))
  rcases Nat.eq_zero_or_pos i with rfl | hpos
  · apply qidx_eq_zero_of_lt
    rw [hscaled, Nat.cast_zero, zero_div]
    linarith
  · have hstep : ((m : Rat) + 1) / 10000 ≤ i / m := by
      rw [div_le_div_iff₀ (by norm_num) hm]
      have hnat : (m + 1) * m ≤ i * 10000 := hsize.trans (by omega)
      exact_mod_cast hnat
    apply qidx_eq_of_mem (by omega) (by omega) <;> rw [hscaled, Int.cast_natCast] <;> linarith

/-- `(i + 1/2)/N` scales to `i + 1/2 - N/10000`. -/
theorem qidx_midpoint_reading {n i : Nat} (hn : 1 ≤ n) (hsize : n ≤ 5000) (hi : i < n) :
    qidx (1 / 10000) (((i : Rat) + 1 / 2) / n) n = i := by
  have hpos : (0 : Rat) < n := by exact_mod_cast hn
  have hle : (n : Rat) ≤ 5000 := by exact_mod_cast hsize
  have hscaled : (((i : Rat) + 1 / 2) / n - 1 / 10000) * n = i + 1 / 2 - n / 10000 := by field_simp
  apply qidx_eq_of_mem (by omega) (by omega) <;> rw [hscaled, Int.cast_natCast] <;> linarith

/-- `i/N` scales to `i - N/10000`, which falls short of `i`. -/
theorem qidx_left_reading {n i : Nat} (hsize : n ≤ 10000) (hi : 1 ≤ i) (hin : i < n) :
    qidx (1 / 10000) ((i : Rat) / n) n = (i : Int) - 1 := by
  have hpos : (0 : Rat) < n := by exact_mod_cast hi.trans hin.le
  have hle : (n : Rat) ≤ 10000 := by exact_mod_cast hsize
  have hscaled : ((i : Rat) / n - 1 / 10000) * n = i - n / 10000 := by field_simp
  apply qidx_eq_of_mem (by omega) (by omega) <;> rw [hscaled] <;> push_cast <;> linarith

/-- The examples of the toy table (R131). -/
theorem qidx_toyTable :
    qidx (1 / 10000) 0 3 = 0 ∧ qidx (1 / 10000) (33 / 100) 3 = 0 ∧ qidx (1 / 10000) (34 / 100) 3 = 1 ∧
      qidx (1 / 10000) (99999 / 100000) 3 = 2 := by
  refine ⟨qidx_eq_zero_of_lt ?_, qidx_eq_zero_of_lt ?_, qidx_eq_of_mem ?_ ?_ ?_ ?_, qidx_eq_of_mem ?_ ?_ ?_ ?_⟩ <;>
    norm_num

/-- Settles O53. -/
theorem quantizerIdempotenceReadings : Obligations.QuantizerIdempotenceReadings :=
  ⟨qidx_toyTable, fun _ _ => qidx_endpoint_reading, fun _ _ => qidx_midpoint_reading, fun _ _ => qidx_left_reading⟩

/-! The command (R129). -/

/-- A table command's word is its opcode's word with the table number and the knob code in the low bits (R61, R73). -/
theorem word_formatT (op t : Byte) (k : Code) :
    (op ++ (t ++ k) : CmdWord) = (op ++ 0#24) ||| t.setWidth 32 <<< 16 ||| k.setWidth 32 := by
  have hcode : k.toNat < 2 ^ 32 := k.isLt.trans (by decide)
  have htable : t.toNat < 2 ^ 32 := t.isLt.trans (by decide)
  have hshifted : t.toNat <<< 16 < 2 ^ 32 := by
    rw [Nat.shiftLeft_eq]
    omega
  apply BitVec.eq_of_toNat_eq
  rw [BitVec.toNat_append, BitVec.toNat_append, BitVec.toNat_or, BitVec.toNat_or, BitVec.toNat_append,
    BitVec.toNat_shiftLeft, BitVec.toNat_setWidth, BitVec.toNat_setWidth, Nat.mod_eq_of_lt hcode,
    Nat.mod_eq_of_lt htable, Nat.mod_eq_of_lt hshifted, BitVec.toNat_ofNat, Nat.zero_mod, Nat.or_zero, Nat.or_assoc]

theorem encode_qnt (t : Byte) (k : Code) :
    encode (.qnt t k) = 0x05000000#32 ||| t.setWidth 32 <<< 16 ||| k.setWidth 32 := word_formatT 0x05 t k

/-- In a valid configuration every table of the bank answers every knob code, with a word inside that table (R33, R34). -/
theorem quantize_of_valid {c : Config} (hvalid : c.Valid) {t : Nat} (ht : t < c.nt) (k : Code) :
    ∃ (d : TableDesc) (n : Code), c.tdesc[t]? = some d ∧ quantizeIndex c.eps k d.len.toNat < d.len.toNat ∧
      c.tmem[d.base.toNat + quantizeIndex c.eps k d.len.toNat]? = some n := by
  obtain ⟨_, _, _, _, htables, _⟩ := hvalid
  have hdesc : c.tdesc[t]? = some c.tdesc[t] := List.getElem?_eq_getElem ht
  obtain ⟨hlen, hfits⟩ := htables _ (List.getElem_mem ht)
  have hindex := quantizeIndex_lt c.eps k hlen
  exact ⟨c.tdesc[t], _, hdesc, hindex, List.getElem?_eq_getElem (by omega)⟩

theorem execQnt_of_legal {t : Byte} {k n : Code} {s : State} (ht : t.toNat < s.cfg.nt)
    (hnote : quantize s.cfg k t.toNat = some n) : execQnt t k s = .next (s.emit (.note n)) := by
  have hlegal : tableLegal s.cfg t = true := decide_eq_true ht
  simp only [execQnt, hlegal, hnote, if_true]

/-- Settles O54. -/
theorem qntEmitsTheNoteAndChangesNothingElse : Obligations.QntEmitsTheNoteAndChangesNothingElse := by
  obtain ⟨_, hillegal, _⟩ := illegalOperandSetsOnlyItsFlag
  refine ⟨fun t k => (decode_eq_ok_iff _ _).2 (encode_qnt t k), fun s t k => hillegal t k s, fun s t k hvalid ht => ?_⟩
  obtain ⟨d, n, hdesc, hindex, hword⟩ := quantize_of_valid hvalid ht k
  exact ⟨d, n, hdesc, hindex, hword, execQnt_of_legal ht ((quantize_eq_tmem k hdesc).trans hword)⟩

end Sys2Proof.Machine
end

section
/-!
The asynchronous-edit multiplexer (R134 to R138, R143): what an arrival under the gate does, the drain one intent at a time, and a
`TICK` of a running Play with any queue.
-/
namespace Sys2Proof.Machine

/-! An arrival under the gate (R135, R138). -/

theorem arrive_of_gated {c : Intent} {s : State} (hc : applicable s.cfg.behavior c = true) (hgated : s.gated = true) :
    arrive c s = .next (enqueue c s) := by
  rw [arrive, if_pos hc, if_pos hgated]

/-- Settles O45: each pair of the statement is an applicable intent with its command. -/
theorem gatedIntentsAreQueuedOrDropped : Obligations.GatedIntentsAreQueuedOrDropped := by
  rintro s ⟨i, c⟩ hgated hpair
  obtain ⟨rfl, hc⟩ : i = c.command ∧ applicable s.cfg.behavior c = true := by
    rcases hpair with ⟨hdiv, hp⟩ | ⟨hseq, hp⟩
    · cases hp
      exact ⟨rfl, by rw [hdiv]; rfl⟩
    · rw [hseq]
      simp only [List.mem_cons, Prod.mk.injEq, List.not_mem_nil, or_false] at hp
      rcases hp with ⟨rfl, rfl⟩ | ⟨rfl, rfl⟩ | ⟨rfl, rfl⟩ | ⟨rfl, rfl⟩ <;> exact ⟨rfl, rfl⟩
  have harrive : exec c.command s = .next (enqueue c s) := (exec_command c s).trans (arrive_of_gated hc hgated)
  exact ⟨fun hroom => harrive.trans (by rw [enqueue, if_neg hroom]),
    fun hfull => harrive.trans (by rw [enqueue_of_full hfull, State.setIqovf])⟩

/-! The queue's invariants (R143). -/

/-- A `TICK` that the main flow waits for empties the queue (R143 (d)). -/
theorem execTick_iq_of_gated {s t : State} (hgated : s.gated = true) (h : execTick s = .next t) : t.iq = [] := by
  rcases execTick_spec s t h with ⟨_, hdrain⟩ | ⟨_, _, _, _, _, hdrain⟩ | ⟨hseq, hopen, _⟩
  · exact (drain_frame hdrain).1
  · exact (drain_frame hdrain).1
  · rcases hopen with hedit | hpaused
    · exact nomatch hgated.symm.trans (gated_of_edit hseq hedit)
    · exact nomatch hgated.symm.trans (gated_of_paused hseq hpaused)

/-- Settles O18. -/
theorem queueInvariantsHoldBetweenCommands : Obligations.QueueInvariantsHoldBetweenCommands :=
  ⟨reset_queueInv, fun _ _ hs h => step_queueInv h hs, fun _ _ hgated h => execTick_iq_of_gated hgated h⟩

/-! The drain (R136). -/

/-- No application adds to the queue, so draining what is left of it is draining the state that the oldest intent gives. -/
theorem drain_of_iq_cons {c : Intent} {rest : List Intent} {s : State} (hiq : s.iq = c :: rest) :
    drain s = andThen (applyIntent c { s with iq := rest }) drain := by
  rw [drain, hiq, drainList]
  cases happly : applyIntent c { s with iq := rest } with
  | next u =>
    have hrest : u.iq = rest := (applyIntent_frame c _ u happly).1
    rw [andThen_next, andThen_next, drain, hrest]
  | fault | refused => rfl

theorem execTick_eq_drain_of_div {s : State} (hdiv : s.cfg.behavior = .div) : execTick s = drain (divOnTick s) := by
  simp only [execTick, hdiv]

/-- Settles O46. -/
theorem drainAppliesTheOldestIntentFirst : Obligations.DrainAppliesTheOldestIntentFirst :=
  ⟨fun _ hdiv => execTick_eq_drain_of_div hdiv, fun _ hseq hplay hrunning => execTick_of_running hseq hplay hrunning,
    fun _ hiq => drain_of_iq_nil hiq, fun _ _ _ hiq => drain_of_iq_cons hiq⟩

/-! Intents drained one after another (R136). -/

/-- One turn of the drain's loop (R136). -/
theorem drain_of_applied {c : Intent} {rest : List Intent} {v w : State} (h : applyIntent c { v with iq := rest } = .next w) :
    drain { v with iq := c :: rest } = drain w := by
  calc drain { v with iq := c :: rest } = andThen (applyIntent c { v with iq := rest }) drain := drain_of_iq_cons rfl
    _ = drain w := by rw [h, andThen_next]

theorem applyBbs_of_edit {s : State} (h : s.mode = .edit) : applyBbs s = advance s := by
  simp only [applyBbs, h]

/-- `BAS` taken from the queue in Play toggles `running` (R107, R136). -/
theorem drain_bas_of_play {v : State} (hplay : v.mode = .play) (rest : List Intent) :
    drain { v with iq := .bas :: rest } = drain { v with running := !v.running, iq := rest } :=
  drain_of_applied (applyBas_of_play (s := { v with iq := rest }) hplay)

/-- `BBL` taken from the queue in Play enters Edit, stopped at position 0 (R110, R136). -/
theorem drain_bbl_of_play {v : State} (hplay : v.mode = .play) (rest : List Intent) :
    drain { v with iq := .bbl :: rest } = drain { v with mode := .edit, running := false, pos := 0, iq := rest } :=
  drain_of_applied (congrArg _ (applyBbl_of_play (s := { v with iq := rest }) hplay))

/-- `BBS` taken from the queue in Edit moves the step pointer (R109, R136). -/
theorem drain_bbs_of_edit {v : State} (hedit : v.mode = .edit) (rest : List Intent) :
    drain { v with iq := .bbs :: rest } = drain { advance v with iq := rest } := by
  rw [← advance_with_iq]
  exact drain_of_applied (congrArg _ (applyBbs_of_edit (s := { v with iq := rest }) hedit))

/-- A pause and a resume in one drain leave Play as it was (R136). -/
theorem drain_bas_bas {v : State} (hplay : v.mode = .play) (hiq : v.iq = []) :
    drain { v with iq := [.bas, .bas] } = .next v := by
  calc drain { v with iq := [.bas, .bas] } = drain { v with running := !v.running, iq := [.bas] } :=
        drain_bas_of_play hplay _
    _ = drain { v with running := !!v.running, iq := [] } :=
        drain_bas_of_play (v := { v with running := !v.running }) hplay []
    _ = drain v := by rw [Bool.not_not, ← hiq]
    _ = .next v := drain_of_iq_nil hiq

/-- The position after a step from position 0 of a row that has another one (R111). -/
theorem advance_from_zero {v : State} (hlen : 2 ≤ v.cfg.seqLen) : advance { v with pos := 0 } = { v with pos := 1 } := by
  have hinside : ¬ (0 : Byte).toNat + 1 = v.cfg.seqLen := Nat.ne_of_lt hlen
  rw [advance_eq, if_neg hinside]
  rfl

/-- The next step after `BBL` is taken in the Edit mode that `BBL` entered, from position 0 (R136). -/
theorem drain_bbl_bbs {v : State} (hplay : v.mode = .play) (hiq : v.iq = []) (hlen : 2 ≤ v.cfg.seqLen) :
    drain { v with iq := [.bbl, .bbs] } = .next { v with mode := .edit, running := false, pos := 1 } := by
  have hstep := advance_from_zero (v := { v with mode := .edit, running := false }) hlen
  calc drain { v with iq := [.bbl, .bbs] }
      = drain { v with mode := .edit, running := false, pos := 0, iq := [.bbs] } := drain_bbl_of_play hplay _
    _ = drain { advance { v with mode := .edit, running := false, pos := 0 } with iq := [] } :=
        drain_bbs_of_edit (v := { v with mode := .edit, running := false, pos := 0 }) rfl []
    _ = drain { v with mode := .edit, running := false, pos := 1 } := by rw [hstep, ← hiq]
    _ = .next { v with mode := .edit, running := false, pos := 1 } := drain_of_iq_nil hiq

/-! `TICK` of a running Play with a queue (R113, R136). -/

/-- In running Play a `TICK` is the step it would have been with an empty queue, then the drain of the queue as it was. -/
theorem execTick_with_queue {s : State} (hinv : Inv s) (hseq : s.cfg.behavior = .seq) (hplay : s.mode = .play)
    (hrunning : s.running = true) :
    ∃ v, exec .tick { s with iq := [] } = .next v ∧ exec .tick s = drain { v with iq := s.iq } ∧
      v.mode = .play ∧ v.iq = [] ∧ v.cfg = s.cfg := by
  obtain ⟨hvalid, _, ⟨hpos, _⟩, _⟩ := hinv
  obtain ⟨a, htick, _⟩ := seqPlayTick_played hvalid hpos
  have hqueue : (advance (s.played a)).iq = s.iq := advance_iq _
  refine ⟨{ advance (s.played a) with iq := [] }, ?_, ?_, (advance_mode _).trans hplay, rfl, advance_cfg _⟩
  · exact execTick_of_running_of_iq_nil (s := { s with iq := [] }) hseq hplay hrunning (seqPlayTick_with_iq [] htick) rfl
  · calc exec .tick s = andThen (seqPlayTick s) drain := execTick_of_running hseq hplay hrunning
      _ = drain (advance (s.played a)) := by rw [htick, andThen_next]
      _ = drain { advance (s.played a) with iq := s.iq } := by rw [← hqueue]

/-- Settles O47. -/
theorem drainedIntentsSeeTheirPredecessors : Obligations.DrainedIntentsSeeTheirPredecessors := by
  intro s hinv hseq hplay hrunning
  obtain ⟨v, hempty, htick, hvplay, hviq, hvcfg⟩ := execTick_with_queue hinv hseq hplay hrunning
  refine ⟨fun hiq => ⟨v, v, ?_, hempty, rfl⟩, fun hiq hlen => ⟨_, v, ?_, hempty, rfl⟩⟩
  · rw [htick, hiq, drain_bas_bas hvplay hviq]
  · rw [htick, hiq, drain_bbl_bbs hvplay hviq (hvcfg ▸ hlen)]

end Sys2Proof.Machine
end

section
/-!
No run-time exceptions (R148). Each of the model's three stops asks for an access outside the grid, outside table memory or past the
fourth jack; `OnGrid`, the part of `Inv` that rules these out, is kept by every part of a command, so each of them answers in turn.
-/
namespace Sys2Proof.Machine

/-- What every part of a command needs to answer, and keeps (R9, R30, R46). -/
def OnGrid (s : State) : Prop := s.cfg.Valid ∧ SequencerInv s ∧ GridInv s

theorem onGrid_of_inv {s : State} (h : Inv s) : OnGrid s := by
  obtain ⟨hvalid, _, hsequencer, hgrid, _⟩ := h
  exact ⟨hvalid, hsequencer, hgrid⟩

theorem Effect.onGrid {s t : State} (h : Effect s t) (hs : OnGrid s) : OnGrid t := by
  obtain ⟨hvalid, hsequencer, hgrid⟩ := hs
  exact ⟨valid_of_effect h hvalid, h.sequencerInv hvalid hsequencer, h.gridInv hgrid⟩

theorem Effects.onGrid {s t : State} (h : Effects s t) (hs : OnGrid s) : OnGrid t :=
  h.keep (P := OnGrid) (fun _ _ heffect hu => heffect.onGrid hu) hs

/-! The intents, an arrival and the drain (R107, R135, R136). -/

theorem previewWrite_answers {s : State} (h : OnGrid s) : ∃ m, previewWrite s = .next { s with steps := m } := by
  obtain ⟨_, hsequencer, hgrid⟩ := h
  by_cases hwrite : s.cfg.writeOnPreview = true
  · obtain ⟨m, hpreview, _⟩ := previewWrite_next hwrite hgrid hsequencer
    exact ⟨m, hpreview⟩
  · exact ⟨s.steps, by rw [previewWrite, if_neg hwrite]⟩

theorem applyBas_of_edit {s : State} (h : s.mode = .edit) : applyBas s = andThen (previewWrite s) playStep := by
  simp only [applyBas, h]

theorem applyBas_answers {s : State} (h : OnGrid s) : ∃ t, applyBas s = .next t := by
  cases hmode : s.mode with
  | edit =>
    obtain ⟨m, hpreview⟩ := previewWrite_answers h
    obtain ⟨hvalid, ⟨hpos, _⟩, _⟩ := h
    obtain ⟨a, hplay, _⟩ := playStep_played (s := { s with steps := m }) hvalid hpos
    exact ⟨_, by rw [applyBas_of_edit hmode, hpreview, andThen_next, hplay]⟩
  | play => exact ⟨_, applyBas_of_play hmode⟩

theorem applyIntent_answers (c : Intent) {s : State} (h : OnGrid s) : ∃ t, applyIntent c s = .next t := by
  cases c with
  | bas => exact applyBas_answers h
  | dsel | bal | bbs | bbl => exact ⟨_, rfl⟩

theorem arrive_answers (c : Intent) {s : State} (h : OnGrid s) : ∃ t, arrive c s = .next t := by
  cases hc : applicable s.cfg.behavior c with
  | false => exact ⟨s, arrive_of_not_applicable hc⟩
  | true =>
    cases hgated : s.gated with
    | true => exact ⟨_, arrive_of_gated hc hgated⟩
    | false => exact arrive_of_not_gated hc hgated ▸ applyIntent_answers c h

/-- The drain answers whatever the queue: each application leaves the state on the grid for the next one (R136). -/
theorem drain_answers {s : State} (h : OnGrid s) : ∃ t, drain s = .next t := by
  generalize hiq : s.iq = l
  induction l generalizing s with
  | nil => exact ⟨s, drain_of_iq_nil hiq⟩
  | cons c rest ih =>
    obtain ⟨u, happly⟩ := applyIntent_answers c (s := { s with iq := rest }) h
    have hrest : u.iq = rest := (applyIntent_frame c _ u happly).1
    rw [drain_of_iq_cons hiq, happly, andThen_next]
    exact ih ((Effect.drain hiq happly).onGrid h) hrest

/-! The commands (R76, R96, R114, R115, R129). -/

theorem execTick_answers {s : State} (h : OnGrid s) : ∃ t, execTick s = .next t := by
  cases hbehavior : s.cfg.behavior with
  | div =>
    rw [execTick_eq_drain_of_div hbehavior]
    exact drain_answers ((Effect.divide hbehavior).onGrid h)
  | seq =>
    by_cases hrunning : s.mode = .play ∧ s.running = true
    · obtain ⟨hplay, hrunning⟩ := hrunning
      have ⟨hvalid, ⟨hpos, _⟩, _⟩ := h
      obtain ⟨a, htick, _⟩ := seqPlayTick_played hvalid hpos
      rw [execTick_of_running hbehavior hplay hrunning, htick, andThen_next]
      exact drain_answers ((seqPlayTick_effects hbehavior htick).onGrid h)
    · exact ⟨s, execTick_of_not_gated hbehavior (by simpa [gated_of_seq hbehavior] using hrunning)⟩

theorem execDadj_answers (c : Byte) (s : State) : ∃ t, execDadj c s = .next t := by
  cases hlegal : countLegal c with
  | false => exact ⟨_, execDadj_of_illegal hlegal s⟩
  | true =>
    cases hbehavior : s.cfg.behavior with
    | div => exact ⟨_, execDadj_of_div hbehavior hlegal⟩
    | seq => exact ⟨_, execDadj_of_seq hbehavior hlegal⟩

theorem exists_quantize_of_valid {c : Config} (hvalid : c.Valid) {t : Nat} (ht : t < c.nt) (k : Code) :
    ∃ n, quantize c k t = some n := by
  obtain ⟨d, n, hdesc, _, hword⟩ := quantize_of_valid hvalid ht k
  exact ⟨n, (quantize_eq_tmem k hdesc).trans hword⟩

theorem exists_pmap_of_valid {c : Config} (hvalid : c.Valid) (k : Code) : ∃ m, pmap c k = some m := by
  have ⟨_, _, _, _, _, _, hchroma, _⟩ := hvalid
  exact exists_quantize_of_valid hvalid hchroma k

theorem execEpit_answers (k : Code) {s : State} (h : OnGrid s) : ∃ t, execEpit k s = .next t := by
  obtain ⟨hvalid, hsequencer, _⟩ := h
  cases hediting : s.editing with
  | false => exact ⟨s, execEpit_of_not_editing hediting k⟩
  | true =>
    obtain ⟨m, hm⟩ := exists_pmap_of_valid hvalid k
    exact ⟨_, execEpit_of_editing hediting hm hsequencer⟩

theorem execEvel_answers (k : Code) {s : State} (h : OnGrid s) : ∃ t, execEvel k s = .next t := by
  obtain ⟨_, hsequencer, _⟩ := h
  cases hediting : s.editing with
  | false => exact ⟨s, execEvel_of_not_editing hediting k⟩
  | true => exact ⟨_, execEvel_of_editing k hediting hsequencer⟩

theorem execQnt_answers (t : Byte) (k : Code) {s : State} (h : OnGrid s) : ∃ u, execQnt t k s = .next u := by
  obtain ⟨hvalid, _⟩ := h
  by_cases ht : t.toNat < s.cfg.nt
  · obtain ⟨n, hnote⟩ := exists_quantize_of_valid hvalid ht k
    exact ⟨_, execQnt_of_legal ht hnote⟩
  · exact ⟨_, execQnt_of_illegal (decide_eq_false ht) k⟩

theorem exec_answers (i : Instr) {s : State} (h : OnGrid s) : ∃ t, exec i s = .next t := by
  cases i with
  | tick => exact execTick_answers h
  | dadj c => exact execDadj_answers c s
  | epit k => exact execEpit_answers k h
  | evel k => exact execEvel_answers k h
  | qnt t k => exact execQnt_answers t k h
  | dsel | bas | bal | bbs | bbl => exact arrive_answers _ h

/-! The step. -/

theorem step_of_port_nil {s : State} (hport : s.port = []) : step s = .next s := by
  simp only [step, takeEvent, hport]

theorem step_of_rst {s : State} {rest : List PortEvent} (hport : s.port = .rst :: rest) :
    step s = .next (rstPulse { s with port := rest }) := by
  simp only [step, takeEvent_of_port_cons hport]

theorem step_answers {s : State} (h : OnGrid s) : ∃ t, step s = .next t := by
  cases hport : s.port with
  | nil => exact ⟨s, step_of_port_nil hport⟩
  | cons e rest =>
    cases e with
    | rst => exact ⟨_, step_of_rst hport⟩
    | cmd w =>
      cases hdecode : decode w with
      | ok i => exact step_of_decode_ok hport hdecode ▸ exec_answers i (s := { s with port := rest }) h
      | error e => exact ⟨_, step_of_decode_error hport hdecode⟩

/-- Settles O16: `Inv` places the state on the grid, and there every step answers. -/
theorem noStepStopsInsideTheInvariant : Obligations.NoStepStopsInsideTheInvariant :=
  fun _ hinv => step_answers (onGrid_of_inv hinv)

end Sys2Proof.Machine
end

section
/-!
What is left of the step, of reset and of the named parts of the invariant: the reset event (R164), the fetch interface (log entry
1), the model's own reset state, the grid (R46) and the sequencer's registers (R30).
-/
namespace Sys2Proof.Machine

/-! The step and the reset state. -/

/-- Settles O8: the reset event is `rstPulse`, which keeps the configuration and the rest of the stream. -/
theorem resetEventRestoresTheResetState : Obligations.ResetEventRestoresTheResetState :=
  ⟨fun _ _ hport => step_of_rst hport, fun _ hport => step_of_port_nil hport⟩

/-- A 32-bit row of a table is the word itself, presented whole (R60). -/
theorem withFetchWord_toNat (s : State) (w : CmdWord) : s.withFetchWord 32 w.toNat = presentNext w s := by
  have hword : BitVec.ofNat 32 (w.toNat % 2 ^ 32) = w := by rw [Nat.mod_eq_of_lt w.isLt, BitVec.ofNat_toNat, BitVec.setWidth_eq]
  rw [State.withFetchWord, hword]

/-- Settles O9: the word presented next is at the head of the port, and it decodes to its command. -/
theorem wordPresentedNextRunsNext : Obligations.WordPresentedNextRunsNext := by
  intro s i
  rw [withFetchWord_toNat, step_of_decode_ok (presentNext_port (encode i) s) (decode_encode i)]
  rfl

/-- The defaults of R9, and the model's choices for the open parameters (log entries 2 and 3), meet the constraints of R9. -/
theorem default_valid : Config.default.Valid := by decide

/-- Settles O11: the default configuration is a valid one. -/
theorem resetMeetsEveryInvariant : Obligations.ResetMeetsEveryInvariant :=
  ⟨rfl, reset_inv default_valid⟩

/-! Parts of the invariant that a step keeps by themselves. -/

/-- Settles O17: every part of a command keeps the grid canonical and in range, and so does the reset event. -/
theorem stepKeepsTheGridCanonical : Obligations.StepKeepsTheGridCanonical :=
  fun _ _ hgrid hstep => step_gridInv hstep hgrid

/-- Settles O19: the range of the registers is kept together with the validity of the configuration. -/
theorem sequencerInvariantsKept : Obligations.SequencerInvariantsKept := by
  intro s t hvalid hsequencer hstep
  obtain ⟨_, hsequencer'⟩ := step_valid_sequencerInv hstep ⟨hvalid, hsequencer⟩
  exact hsequencer'

end Sys2Proof.Machine
end

section
/-!
The firing ticks of an output while no division is edited (R99): which they are, and how many of them a window holds.
-/
namespace Sys2Proof.Machine

/-- Settles O31: inside the invariant the queue lets every `TICK` answer, and every count and division is at least 1. -/
theorem outputsFireEveryDivisionTicks : Obligations.OutputsFireEveryDivisionTicks := by
  rintro s ⟨_, ⟨hdivisions, hcounters, _⟩, _, _, hqueue, _⟩ hdiv n
  obtain ⟨t, hrun, hfires⟩ := (divReady_of_queueInv hdiv hqueue).firesOnTick_after_ticks n
  have hcount (i : Fin 4) : 1 ≤ (s.cnt.get i).toNat := ((lanesLegal_iff _).1 hcounters i).1
  have hdivision (i : Fin 4) : 1 ≤ (s.div.get i).toNat := ((lanesLegal_iff _).1 hdivisions i).1
  exact ⟨t, hrun, fun i => hfires i (hcount i) (hdivision i)⟩

/-- The `k`-th firing tick, both counted from 0, of a lane whose count is `a` and whose division is `d` (R99). -/
def firingTick (a d k : Nat) : Nat := k * d + (a - 1)

theorem firingTick_injective (a : Nat) {d : Nat} (hd : 0 < d) : Function.Injective (firingTick a d) :=
  fun _ _ h => Nat.eq_of_mul_eq_mul_right hd (Nat.add_right_cancel h)

/-- The firing ticks of a window of `n` divisions are the first `n`: the count, at most a division, runs out in the first one. -/
theorem firingTicks_eq_image {a d : Nat} (ha : 1 ≤ a) (had : a ≤ d) (n : Nat) :
    {j | j < n * d ∧ a ≤ j + 1 ∧ d ∣ j + 1 - a} = firingTick a d '' Set.Iio n := by
  ext j
  constructor
  · rintro ⟨hwindow, hstarted, k, hk⟩
    have hj : j = k * d + (a - 1) := by
      rw [Nat.mul_comm k d]
      omega
    exact ⟨k, Nat.lt_of_mul_lt_mul_right (a := d) (by omega), hj.symm⟩
  · rintro ⟨k, hk, rfl⟩
    have hwindow : (k + 1) * d ≤ n * d := Nat.mul_le_mul_right d hk
    rw [Nat.succ_mul] at hwindow
    have hsub : k * d + (a - 1) + 1 - a = k * d := by omega
    rw [Set.mem_ofPred_eq, firingTick, hsub]
    exact ⟨by omega, by omega, Nat.dvd_mul_left d k⟩

theorem firingTicks_ncard {a d : Nat} (ha : 1 ≤ a) (had : a ≤ d) (n : Nat) :
    {j | j < n * d ∧ a ≤ j + 1 ∧ d ∣ j + 1 - a}.ncard = n := by
  rw [firingTicks_eq_image ha had, Set.ncard_image_of_injective _ (firingTick_injective a (ha.trans had)), ← Finset.coe_Iio,
    Set.ncard_coe_finset, Nat.card_Iio]

/-- Settles O32: by O31 the firing ticks are those of a lane, and a window holds one for each of its divisions. -/
theorem outputFiresOncePerDivisionInEveryWindow : Obligations.OutputFiresOncePerDivisionInEveryWindow := by
  intro s i n hinv hdiv hle
  have ⟨_, ⟨_, hcounters, _⟩, _⟩ := hinv
  have hfiring (j : Nat) : (∃ t, runCommands (List.replicate j .tick) s = .next t ∧ FiresOnTick t i) ↔
      (s.cnt.get i).toNat ≤ j + 1 ∧ (s.div.get i).toNat ∣ j + 1 - (s.cnt.get i).toNat := by
    obtain ⟨t, hrun, hfires⟩ := outputsFireEveryDivisionTicks s hinv hdiv j
    rw [hrun, ← hfires i]
    exact ⟨fun ⟨_, hsame, hu⟩ => by cases hsame; exact hu, fun ht => ⟨t, rfl, ht⟩⟩
  simp only [hfiring]
  exact firingTicks_ncard ((lanesLegal_iff _).1 hcounters i).1 hle n

end Sys2Proof.Machine
end
